-- ==== Sys2Proof/Word.lean ====
section
/-! DEFINITION. The word types of SignalLabs CORE and their plainest constants (00_scope.md R7, R11; 30_encoding.md R75). -/

namespace Sys2Proof

/-- R7: a sample or a real-valued parameter, the 64-bit image of a binary64 number. -/
abbrev F64 := BitVec 64

/-- R75: a buffer slot number; every value of the 4-bit field is a slot that exists. -/
abbrev SlotNo := Fin 16

/-- R51: one sample of a slot, its index in the slot and its 64-bit image. -/
abbrev Cell := Nat × F64

/-- The position of one arithmetic operation inside one command (R38 says that position is (stage, index)):
the operation, the sample index, the stage and, last, the number of the command.
It only names which free NaN the operation would draw (R12). -/
abbrev DrawKey := List Nat

/-- R11: the literal `0` of a formula, `+0.0`. -/
def F64.zero : F64 := 0x0000000000000000
/-- R11: the literal `1`. -/
def F64.one : F64 := 0x3FF0000000000000
/-- R11: the literal `2`. -/
def F64.two : F64 := 0x4000000000000000
/-- R11: the literal `3`. -/
def F64.three : F64 := 0x4008000000000000
/-- R11: the literal `4`. -/
def F64.four : F64 := 0x4010000000000000
/-- R186: the literal `0.5` of the default triangle. -/
def F64.half : F64 := 0x3FE0000000000000
/-- R187: the literal `-1.0` of `SGN`. -/
def F64.negOne : F64 := 0xBFF0000000000000
/-- R10: `+inf`. -/
def F64.posInf : F64 := 0x7FF0000000000000
/-- R10: `-inf`. -/
def F64.negInf : F64 := 0xFFF0000000000000
/-- R11: the binary64 value nearest 2π. -/
def F64.twoPi : F64 := 0x401921FB54442D18

end Sys2Proof
end

