-- ==== Sys2Proof/HostOp.lean ====
section
/-! DEFINITION. What the host does to the block: the operations of 20_memory.md R52 and the external reset of
70_reset_and_hazards.md R300. -/

namespace Sys2Proof

/-- One atomic move of the host (45_system.md R240). Register, slot and index numbers are what the host names, so
they may lie outside the spaces of R50; the step says what happens then. -/
inductive HostOp where
  /-- R52 `HostReadReg(r)`. -/
  | readReg (r : Nat)
  /-- R52 `HostWriteReg(r, v)`; `r = 0x20` issues a command (R244), `r = 0x24` is `CLRF` or `SRST` (R247, R248). -/
  | writeReg (r : Nat) (v : BitVec 64)
  /-- R52 `HostReadSample(s, i)`. -/
  | readSample (slot index : Nat)
  /-- R52 `HostWriteSample(s, i, v)`. -/
  | writeSample (slot index : Nat) (v : F64)
  /-- R300: the external reset event, between two host operations (log entry 16). -/
  | extReset
  deriving DecidableEq, Repr

end Sys2Proof
end

