-- ==== Sys2Proof/Syntax.lean ====
section
/-! DEFINITION. The 22 commands of 30_encoding.md R80, one constructor a row of spec/opcode_table.json. -/

namespace Sys2Proof

/-- R71 to R79: `dst`, `src` are the slots of format U; `dst`, `aux1` (message), `aux2` (t) those of format G; the
Booleans are the option bits. Every value of every field has an encoding. -/
inductive Instr where
  | lowpass (dst src : SlotNo)
  | highpass (dst src : SlotNo)
  | bandpass (dst src : SlotNo)
  | bandstop (dst src : SlotNo)
  | mavg (dst src : SlotNo) (prime : Bool)
  | envdetRaw (dst src : SlotNo) (prime : Bool)
  | envdetHw (dst src : SlotNo) (prime : Bool)
  | envdetFw (dst src : SlotNo) (prime : Bool)
  | hwr (dst src : SlotNo)
  | fwr (dst src : SlotNo)
  | dcrem (dst src : SlotNo)
  | dcoff (dst src : SlotNo)
  | diff (dst src : SlotNo)
  | adiff (dst src : SlotNo)
  | integ (dst src : SlotNo)
  | ammodSin (dst aux1 aux2 : SlotNo)
  | ammodTri (dst aux1 aux2 : SlotNo)
  | ammodSqr (dst aux1 aux2 : SlotNo)
  | ammodIdx (dst aux1 aux2 : SlotNo)
  | fmmod (dst aux1 aux2 : SlotNo)
  | amdemod (dst src : SlotNo) (dcfix : Bool)
  | fmdemod (dst src : SlotNo) (ovr plain prime : Bool)
  deriving DecidableEq, Repr

end Sys2Proof
end

