-- ==== Sys2Proof/WellFormed.lean ====
section
/-! DEFINITION. The checks on commands and host operations. A command's fields have exactly the range of their bits
(30_encoding.md R75), so every `Instr` has a word; what can be wrong with one is the operand rule of R75. -/

namespace Sys2Proof

/-- R75: in format U, `DST` differs from `SRC`; in format G, `DST`, `AUX1` and `AUX2` are pairwise different.
A command that breaks this is legal as a word, and its execution faults with `BufferAlias` (R266). -/
def Instr.wf : Instr → Bool
  | .lowpass d r | .highpass d r | .bandpass d r | .bandstop d r
  | .mavg d r _ | .envdetRaw d r _ | .envdetHw d r _ | .envdetFw d r _
  | .hwr d r | .fwr d r | .dcrem d r | .dcoff d r | .diff d r | .adiff d r | .integ d r
  | .amdemod d r _ | .fmdemod d r _ _ _ => decide (d ≠ r)
  | .ammodSin d m t | .ammodTri d m t | .ammodSqr d m t | .ammodIdx d m t
  | .fmmod d m t => decide (d ≠ m) && decide (d ≠ t) && decide (m ≠ t)

/-- R53, R54: a sample operation names a slot below 16, a write an index below `MAXN`, a read an index below the
slot's `LEN`. One that does not has no meaning. -/
def HostOp.wf (maxN : Nat) (len : Nat → Nat) : HostOp → Bool
  | .readReg _ | .writeReg _ _ | .extReset => true
  | .readSample s i => decide (s < 16) && decide (i < len s)
  | .writeSample s i _ => decide (s < 16) && decide (i < maxN)

end Sys2Proof
end

