-- ==== Sys2Proof/Decode.lean ====
section
/-! DEFINITION. The 32-bit command word (30_encoding.md R70 to R83): its fields, the decoder, the encoder and the
mask and match table of R80. -/

namespace Sys2Proof

/-- R71: the fields of a command word, the same positions in both formats. -/
structure Fields where
  opc : BitVec 8
  dst : BitVec 4
  src : BitVec 4
  aux1 : BitVec 4
  aux2 : BitVec 4
  opt : BitVec 8
  deriving DecidableEq, Repr

/-- Why a word is illegal (R82). -/
inductive Reject where
  /-- an `OPC` not in the table -/
  | reservedOpcode
  /-- format U with a nonzero `AUX1` or `AUX2` -/
  | auxNotZero
  /-- format G with a nonzero `SRC` -/
  | srcNotZero
  /-- an `OPT` bit the command does not define -/
  | optNotZero
  deriving DecidableEq, Repr

/-- R71: bits 31:24, 23:20, 19:16, 15:12, 11:8, 7:0. -/
def fieldsOf (w : BitVec 32) : Fields :=
  { opc := w.extractLsb' 24 8
    dst := w.extractLsb' 20 4
    src := w.extractLsb' 16 4
    aux1 := w.extractLsb' 12 4
    aux2 := w.extractLsb' 8 4
    opt := w.extractLsb' 0 8 }

/-- R71: the word of six fields. -/
def wordOf (f : Fields) : BitVec 32 :=
  f.opc ++ f.dst ++ f.src ++ f.aux1 ++ f.aux2 ++ f.opt

/-- R75: a 4-bit field is the number of a slot. -/
def slotOf (v : BitVec 4) : SlotNo := ⟨v.toNat, v.isLt⟩

/-- The 4-bit field of a slot number. -/
def fieldOfSlot (d : SlotNo) : BitVec 4 := BitVec.ofNat 4 d.val

/-- The 1-bit option `b` placed at bit `n` of `OPT`. -/
def optBit (b : Bool) (n : Nat) : BitVec 8 := if b then BitVec.ofNat 8 (2 ^ n) else 0

/-- R72: format U with the option bits `allowed`. -/
def decodeU (f : Fields) (allowed : BitVec 8) (build : SlotNo → SlotNo → Instr) : Except Reject Instr :=
  if f.aux1 ≠ 0 ∨ f.aux2 ≠ 0 then .error .auxNotZero
  else if f.opt &&& ~~~allowed ≠ 0 then .error .optNotZero
  else .ok (build (slotOf f.dst) (slotOf f.src))

/-- R73: format G. -/
def decodeG (f : Fields) (build : SlotNo → SlotNo → SlotNo → Instr) : Except Reject Instr :=
  if f.src ≠ 0 then .error .srcNotZero
  else if f.opt ≠ 0 then .error .optNotZero
  else .ok (build (slotOf f.dst) (slotOf f.aux1) (slotOf f.aux2))

/-- R80, R81: the command of the fields, or why there is none. -/
def decodeFields (f : Fields) : Except Reject Instr :=
  let b0 := f.opt.getLsbD 0
  let b1 := f.opt.getLsbD 1
  let b2 := f.opt.getLsbD 2
  match f.opc.toNat with
  | 0x01 => decodeU f 0 .lowpass
  | 0x02 => decodeU f 0 .highpass
  | 0x03 => decodeU f 0 .bandpass
  | 0x04 => decodeU f 0 .bandstop
  | 0x08 => decodeU f 1 (.mavg · · b0)
  | 0x09 => decodeU f 1 (.envdetRaw · · b0)
  | 0x0A => decodeU f 1 (.envdetHw · · b0)
  | 0x0B => decodeU f 1 (.envdetFw · · b0)
  | 0x10 => decodeU f 0 .hwr
  | 0x11 => decodeU f 0 .fwr
  | 0x12 => decodeU f 0 .dcrem
  | 0x13 => decodeU f 0 .dcoff
  | 0x14 => decodeU f 0 .diff
  | 0x15 => decodeU f 0 .adiff
  | 0x16 => decodeU f 0 .integ
  | 0x20 => decodeG f .ammodSin
  | 0x21 => decodeG f .ammodTri
  | 0x22 => decodeG f .ammodSqr
  | 0x23 => decodeG f .ammodIdx
  | 0x24 => decodeG f .fmmod
  | 0x30 => decodeU f 1 (.amdemod · · b0)
  | 0x31 => decodeU f 7 (.fmdemod · · b0 b1 b2)
  | _ => .error .reservedOpcode

/-- R81: the decoder, total on 32-bit words. -/
def decode (w : BitVec 32) : Except Reject Instr := decodeFields (fieldsOf w)

/-! ## The encoder -/

/-- R72: a word of format U. -/
def encodeU (opc : BitVec 8) (dst src : SlotNo) (opt : BitVec 8) : BitVec 32 :=
  wordOf { opc := opc, dst := fieldOfSlot dst, src := fieldOfSlot src, aux1 := 0, aux2 := 0, opt := opt }

/-- R73: a word of format G. -/
def encodeG (opc : BitVec 8) (dst aux1 aux2 : SlotNo) : BitVec 32 :=
  wordOf { opc := opc, dst := fieldOfSlot dst, src := 0, aux1 := fieldOfSlot aux1, aux2 := fieldOfSlot aux2, opt := 0 }

/-- R80: the word of a command. -/
def encode : Instr → BitVec 32
  | .lowpass d r => encodeU 0x01 d r 0
  | .highpass d r => encodeU 0x02 d r 0
  | .bandpass d r => encodeU 0x03 d r 0
  | .bandstop d r => encodeU 0x04 d r 0
  | .mavg d r p => encodeU 0x08 d r (optBit p 0)
  | .envdetRaw d r p => encodeU 0x09 d r (optBit p 0)
  | .envdetHw d r p => encodeU 0x0A d r (optBit p 0)
  | .envdetFw d r p => encodeU 0x0B d r (optBit p 0)
  | .hwr d r => encodeU 0x10 d r 0
  | .fwr d r => encodeU 0x11 d r 0
  | .dcrem d r => encodeU 0x12 d r 0
  | .dcoff d r => encodeU 0x13 d r 0
  | .diff d r => encodeU 0x14 d r 0
  | .adiff d r => encodeU 0x15 d r 0
  | .integ d r => encodeU 0x16 d r 0
  | .ammodSin d m t => encodeG 0x20 d m t
  | .ammodTri d m t => encodeG 0x21 d m t
  | .ammodSqr d m t => encodeG 0x22 d m t
  | .ammodIdx d m t => encodeG 0x23 d m t
  | .fmmod d m t => encodeG 0x24 d m t
  | .amdemod d r x => encodeU 0x30 d r (optBit x 0)
  | .fmdemod d r o p x => encodeU 0x31 d r (optBit o 0 ||| optBit p 1 ||| optBit x 2)

/-! ## The table of R80 as it is printed -/

/-- R80: the `match` column of a command's row. -/
def Instr.pattern : Instr → BitVec 32
  | .lowpass .. => 0x01000000
  | .highpass .. => 0x02000000
  | .bandpass .. => 0x03000000
  | .bandstop .. => 0x04000000
  | .mavg .. => 0x08000000
  | .envdetRaw .. => 0x09000000
  | .envdetHw .. => 0x0A000000
  | .envdetFw .. => 0x0B000000
  | .hwr .. => 0x10000000
  | .fwr .. => 0x11000000
  | .dcrem .. => 0x12000000
  | .dcoff .. => 0x13000000
  | .diff .. => 0x14000000
  | .adiff .. => 0x15000000
  | .integ .. => 0x16000000
  | .ammodSin .. => 0x20000000
  | .ammodTri .. => 0x21000000
  | .ammodSqr .. => 0x22000000
  | .ammodIdx .. => 0x23000000
  | .fmmod .. => 0x24000000
  | .amdemod .. => 0x30000000
  | .fmdemod .. => 0x31000000

/-- R80: the `mask` column of a command's row. -/
def Instr.mask : Instr → BitVec 32
  | .lowpass .. | .highpass .. | .bandpass .. | .bandstop .. => 0xFF00FFFF
  | .mavg .. | .envdetRaw .. | .envdetHw .. | .envdetFw .. => 0xFF00FFFE
  | .hwr .. | .fwr .. | .dcrem .. | .dcoff .. | .diff .. | .adiff .. | .integ .. => 0xFF00FFFF
  | .ammodSin .. | .ammodTri .. | .ammodSqr .. | .ammodIdx .. | .fmmod .. => 0xFF0F00FF
  | .amdemod .. => 0xFF00FFFE
  | .fmdemod .. => 0xFF00FFF8

/-! ## The host's view -/

/-- R70: the word a 64-bit write to `CMD` issues, bits 31:0. -/
def issuedWord (v : BitVec 64) : BitVec 32 := v.setWidth 32

/-- The 32-bit word of a table row's bits: every bit above `nbits` is 0 (R70: every command is one word). -/
def tableWord (nbits w : Nat) : BitVec 32 := BitVec.ofNat 32 (w % 2 ^ nbits)

/-- The command the decoder reads from a table row's bits. -/
def decodeTableWord (nbits w : Nat) : Option Instr :=
  match decode (tableWord nbits w) with
  | .ok i => some i
  | .error _ => none

end Sys2Proof
end

