-- ==== Sys2Proof/Config.lean ====
section
/-! DEFINITION. What the spec leaves open (00_scope.md R6): the capacities, the transcendental functions, the triangle
and the free draws. Every constant here is opaque and has no body, so no proof can learn a value of it. -/

namespace Sys2Proof

/-- Log entry 1 (R12 `NANDRAW`): the bits from which one operation draws the NaN it generates. -/
opaque Config.nanDraw : DrawKey → BitVec 64

/-- Log entry 2 (R35, 93 U8): the value of a sample that nothing has written, by the draw that made the slot's contents
unspecified, the slot and the index. -/
opaque Config.unwritten : Nat → Nat → Nat → F64

/-- Log entry 3 (R6 `EXP`): the exponential away from the anchors of R10. -/
opaque Config.expRaw : F64 → F64

/-- Log entry 3 (R6 `SIN`): the sine away from the anchors of R10. -/
opaque Config.sinRaw : F64 → F64

/-- Log entry 3 (R6 `COS`): the cosine away from the anchors of R10. -/
opaque Config.cosRaw : F64 → F64

/-- Log entry 4 (R6 `TRI`, R186): the unit triangle on a phase. -/
opaque Config.tri : F64 → F64

/-- Log entry 5 (R6 `MAXN`): one less than the capacity of a slot. -/
opaque Config.maxNPred : Fin 4294967295

/-- Log entry 5 (R6 `MAXW`): one less than the capacity of the estimator ring. -/
opaque Config.maxWPred : Fin 4294967295

/-- Log entry 6 (R185): whether the zero that `floor` gives for `-0.0` is `-0.0`. -/
opaque Config.floorOfNegZeroIsNeg : Bool

/-- R6: the capacity of one buffer slot, `1 <= MAXN < 2^32` by construction. -/
def Config.maxN : Nat := Config.maxNPred.val + 1

/-- R6: the capacity of the estimator ring, `1 <= MAXW < 2^32` by construction. -/
def Config.maxW : Nat := Config.maxWPred.val + 1

end Sys2Proof
end

