-- ==== Sys2Proof/Machine/Float.lean ====
section
/-! DEFINITION. Binary64 arithmetic (00_scope.md R7 to R16): exact integer arithmetic first, one rounding to nearest,
ties to even, at the end. Every operation takes the position (DrawKey) that names its free NaN (R12, log entry 1).
PRESUMED (log entry 11): the signs of zeros and infinities and the list of invalid operations are IEEE 754's. -/

namespace Sys2Proof

/-! ## Parts of an image (R7) -/

/-- R7: sign bit 63. -/
def F64.sign (v : F64) : Bool := v.getLsbD 63

/-- R7: biased exponent, bits 62:52. -/
def F64.expField (v : F64) : Nat := v.toNat / 2 ^ 52 % 2 ^ 11

/-- R7: fraction, bits 51:0. -/
def F64.frac (v : F64) : Nat := v.toNat % 2 ^ 52

/-- The image without its sign bit, bits 62:0. -/
def F64.magBits (v : F64) : Nat := v.toNat % 2 ^ 63

def F64.isNaN (v : F64) : Bool := decide (v.expField = 2047) && decide (v.frac ≠ 0)

def F64.isInf (v : F64) : Bool := decide (v.expField = 2047) && decide (v.frac = 0)

def F64.isFinite (v : F64) : Bool := decide (v.expField ≠ 2047)

/-- Either zero. -/
def F64.isZero (v : F64) : Bool := decide (v.magBits = 0)

/-- The integer significand of a finite value: the value is `± sig * 2^(expo)`. -/
def F64.sig (v : F64) : Nat := if v.expField = 0 then v.frac else v.frac + 2 ^ 52

/-- The exponent field that scales `sig`, subnormals sharing that of the least normals: the value is
`± sig * 2^(scale - 1075)`, `scale` at least 1. -/
def F64.scale (v : F64) : Nat := if v.expField = 0 then 1 else v.expField

/-! ## Building images -/

/-- An image from a sign and bits 62:0. -/
def F64.ofBits (neg : Bool) (mag : Nat) : F64 :=
  BitVec.ofNat 64 ((if neg then 2 ^ 63 else 0) + mag)

def F64.zeroOf (neg : Bool) : F64 := F64.ofBits neg 0

def F64.infOf (neg : Bool) : F64 := F64.ofBits neg (2047 * 2 ^ 52)

/-- R12: the NaN a draw stands for: sign and fraction of the draw, the fraction never zero. Every NaN is drawn by some bits. -/
def F64.nanOf (d : F64) : F64 :=
  F64.ofBits d.sign (2047 * 2 ^ 52 + (if d.frac = 0 then 1 else d.frac))

/-- R12: the NaN the operation at position `k` generates. -/
def F64.nan (k : DrawKey) : F64 := F64.nanOf (Config.nanDraw k)

/-- R8: the nearest integer to `m / 2^sh`, ties to even. -/
def roundShift (m sh : Nat) : Nat :=
  if m % 2 ^ sh * 2 > 2 ^ sh ∨ (m % 2 ^ sh * 2 = 2 ^ sh ∧ m / 2 ^ sh % 2 = 1) then m / 2 ^ sh + 1 else m / 2 ^ sh

/-- R8: `± m * 2^(e - low - 1074)` rounded once to binary64, to nearest, ties to even, subnormals kept, overflow to an
infinity. On the scale of `e` the least subnormal weighs `low`; `q` is the weight of the result's last place. -/
def F64.roundScaled (neg : Bool) (m e low : Nat) : F64 :=
  -- the last place of the result, never below that of the subnormals
  let q := max (e + Nat.log2 m - 52) low
  let r := if q ≤ e then m * 2 ^ (e - q) else roundShift m (q - e)
  let bits := (q - low) * 2 ^ 52 + r
  if m = 0 then F64.zeroOf neg
  else if bits < 2047 * 2 ^ 52 then F64.ofBits neg bits
  else F64.infOf neg

/-- R15: `f64(n)`, exact for every count the block can hold. -/
def F64.ofNat (n : Nat) : F64 := F64.roundScaled false n 1074 0

/-! ## Arithmetic (R8) -/

/-- Negation flips bit 63 (R9: negation is exact). -/
def F64.neg (v : F64) : F64 := v ^^^ 0x8000000000000000

/-- R14: `fabs` clears bit 63 and changes nothing else. -/
def F64.abs (v : F64) : F64 := v &&& 0x7FFFFFFFFFFFFFFF

/-- A finite value as an exact integer number of units of `2^(-1074)`. -/
def F64.units (v : F64) : Int :=
  let n : Int := (v.sig * 2 ^ (v.scale - 1) : Nat)
  if v.sign then -n else n

/-- R8: `a + b`. -/
def F64.add (k : DrawKey) (a b : F64) : F64 :=
  if a.isNaN || b.isNaN then F64.nan k
  else if a.isInf then (if b.isInf && (a.sign != b.sign) then F64.nan k else a)
  else if b.isInf then b
  else
    let sum := a.units + b.units
    -- an exact zero sum is +0.0 unless both operands are negative zeros
    if sum = 0 then F64.zeroOf (a.sign && b.sign)
    else F64.roundScaled (decide (sum < 0)) sum.natAbs 0 0

/-- R8: `a - b`. -/
def F64.sub (k : DrawKey) (a b : F64) : F64 :=
  F64.add k a b.neg

/-- R8: `a * b`. -/
def F64.mul (k : DrawKey) (a b : F64) : F64 :=
  let neg := a.sign != b.sign
  if a.isNaN || b.isNaN then F64.nan k
  else if a.isInf then (if b.isZero then F64.nan k else F64.infOf neg)
  else if b.isInf then (if a.isZero then F64.nan k else F64.infOf neg)
  -- sig * sig * 2^(scale + scale - 2150)
  else F64.roundScaled neg (a.sig * b.sig) (a.scale + b.scale) 1076

/-- The quotient of two significands scaled by `2^128`, with a last bit that is 1 when the division is not exact.
The quotient has more than 70 bits, so that last bit stands below every rounding position and rounds as the exact
quotient does. -/
def stickyQuotient (m n : Nat) : Nat :=
  2 * (m * 2 ^ 128 / n) + (if m * 2 ^ 128 % n = 0 then 0 else 1)

/-- R8: `a / b`. -/
def F64.div (k : DrawKey) (a b : F64) : F64 :=
  let neg := a.sign != b.sign
  if a.isNaN || b.isNaN then F64.nan k
  else if a.isInf then (if b.isInf then F64.nan k else F64.infOf neg)
  else if b.isInf then F64.zeroOf neg
  else if b.isZero then (if a.isZero then F64.nan k else F64.infOf neg)
  -- sticky(sig a, sig b) * 2^(scale a - scale b - 129)
  else F64.roundScaled neg (stickyQuotient a.sig b.sig) (a.scale + 2048 - b.scale) 1103

/-! ## Comparisons (R12: false with a NaN operand) -/

/-- The order of the values that are no NaN: sign and magnitude as one integer, both zeros 0. -/
def F64.order (v : F64) : Int := if v.sign then -(v.magBits : Int) else v.magBits

/-- `a > b`. -/
def F64.gt (a b : F64) : Bool := !a.isNaN && !b.isNaN && decide (a.order > b.order)

/-- `a >= b`. -/
def F64.ge (a b : F64) : Bool := !a.isNaN && !b.isNaN && decide (a.order ≥ b.order)

/-! ## Integers (R15, R16) -/

/-- R16: the greatest integer not above a finite value (units of `2^(-1074)`, divided with the floor). -/
def F64.floorInt (v : F64) : Int := v.units / ((2 ^ 1074 : Nat) : Int)

/-- R185: `floor` as a binary64 value, for a finite `v`: the integer of R16, exact. Its zero is `+0.0`, but for `v = -0.0`
its sign is free (log entry 6). -/
def F64.floor (v : F64) : F64 :=
  let n := v.floorInt
  if n = 0 then F64.zeroOf (v.isZero && v.sign && Config.floorOfNegZeroIsNeg)
  else F64.roundScaled (decide (n < 0)) n.natAbs 1074 0

/-! ## Transcendental functions: the anchors of R10 around an open function -/

/-- R10: `EXP`. -/
def F64.exp (v : F64) : F64 :=
  if v.isNaN then F64.nanOf (Config.expRaw v)
  else if v.isZero then F64.one
  else if v.isInf then (if v.sign then F64.zero else F64.posInf)
  else Config.expRaw v

/-- R10: `SIN`. -/
def F64.sin (v : F64) : F64 :=
  if v.isNaN || v.isInf then F64.nanOf (Config.sinRaw v)
  else if v = F64.zero then F64.zero
  else Config.sinRaw v

/-- R10: `COS`. -/
def F64.cos (v : F64) : F64 :=
  if v.isNaN || v.isInf then F64.nanOf (Config.cosRaw v)
  else if v.isZero then F64.one
  else Config.cosRaw v

end Sys2Proof
end

