-- ==== Sys2Proof/Machine/State.lean ====
section
/-! DEFINITION. The state of one block (10_state.md R20), the host operations still to be made, and the state after
reset (R45). -/

namespace Sys2Proof.Machine

/-- R21: the thirteen parameter registers. -/
structure ParamRegs where
  fs : F64
  dur : F64
  fc : F64
  fm : F64
  am : F64
  ac : F64
  mu : F64
  beta : F64
  cut : F64
  low : F64
  high : F64
  const : F64
  cmult : F64
  deriving DecidableEq, Repr

/-- R24: the six integer registers. -/
structure CountRegs where
  order : BitVec 32
  bpord : BitVec 32
  win : BitVec 32
  dcwin : BitVec 32
  envdiv : BitVec 32
  dcmult : BitVec 32
  deriving DecidableEq, Repr

/-- R27: the three flags of `STATUS`. -/
structure Status where
  fault : Bool
  corrected : Bool
  done : Bool
  deriving DecidableEq, Repr

/-- R261: the fault classes a command can raise. These are recorded in `CAUSE`; they never stop the machine. -/
inductive FaultClass where
  | invalidParameter
  | degenerateFilterRange
  | illegalCommand
  | bufferAlias
  | capacityExceeded
  deriving DecidableEq, Repr

/-- What `raise F(info)` carries (R270). -/
structure Raise where
  cls : FaultClass
  info : BitVec 64
  deriving DecidableEq, Repr

/-- R35, R51: the stored samples of one slot (log entries 2, 8). `written` lists them by strictly rising index; a sample
that is not listed is unspecified and reads as the free value `Config.unwritten epoch slot index`. -/
structure SlotMem where
  written : List Cell
  epoch : Nat
  deriving DecidableEq, Repr

/-- R50: the sample space. -/
structure Memory where
  slots : Vector SlotMem 16
  deriving DecidableEq, Repr

structure State where
  /-- R21: `P[0x00..0x0C]` -/
  p : ParamRegs
  /-- R24: `K[0x10..0x15]` -/
  k : CountRegs
  /-- R26: `CMD` -/
  cmd : BitVec 32
  /-- R27: `STATUS` -/
  status : Status
  /-- R28: `CAUSE[7:0]` -/
  cause : BitVec 8
  /-- R29: `INFO` -/
  info : BitVec 64
  /-- R33: `LEN[0..15]` (log entry 13) -/
  len : Vector Nat 16
  /-- R35: `BUF[0..15]` -/
  mem : Memory
  /-- R26: `CAPN`, that is `MAXN`; nothing changes it (log entry 5) -/
  capN : Nat
  /-- R26: `CAPW`, that is `MAXW`; nothing changes it (log entry 5) -/
  capW : Nat
  /-- the model's own (log entries 1, 2): the number of the next draw of unspecified values -/
  draws : Nat
  /-- the host's side (R62, log entry 7): the operations the host has still to make, the next one first -/
  ops : List HostOp
  /-- the host's side (R52): the values its reads have returned, the latest first -/
  got : List (BitVec 64)
  deriving DecidableEq, Repr

/-- The block never stops (R250: "The block itself never stops, halts or hangs"; 93 U18), so no step of the model
ends in a fault: there is no reason to name (log entry 15). A command's faults are next states (R270). -/
inductive Fault
  deriving DecidableEq, Repr

/-- Why the model gives a step no meaning (log entry 10). -/
inductive Refusal where
  /-- raised by an arm of `exec` whose instruction has no meaning yet; none is left. Safe. -/
  | notModelled (mnemonic : String)
  /-- raised by `HostReadSample` with a slot of 16 or more (R54, 93 U14: the model refuses it). Safe. -/
  | readOutsideSlots
  /-- raised by `HostReadSample` at or above `LEN` (R54: "it has no meaning (a model refuses it)"). Safe. -/
  | readBeyondLength
  /-- raised by `HostWriteSample` with a slot of 16 or more, or an index of `MAXN` or more (R53: "it has no meaning
  (a model refuses it)"). Safe. -/
  | writeOutsideSlots
  deriving DecidableEq, Repr

/-- R300: every slot's contents unspecified, as one draw. -/
def Memory.unspecified (epoch : Nat) : Memory :=
  { slots := Vector.replicate 16 { written := [], epoch := epoch } }

/-- R45. The host's side is empty and the draw counter is past the draw of the slots (log entries 2, 7). -/
def State.reset : State :=
  { p := { fs := 0, dur := 0, fc := 0, fm := 0, am := 0, ac := 0, mu := 0, beta := 0, cut := 0, low := 0, high := 0
           const := 0, cmult := 0 }
    k := { order := 1, bpord := 1, win := 1, dcwin := 1, envdiv := 2, dcmult := 3 }
    cmd := 0
    status := { fault := false, corrected := false, done := false }
    cause := 0
    info := 0
    len := Vector.replicate 16 0
    mem := Memory.unspecified 0
    capN := Config.maxN
    capW := Config.maxW
    draws := 1
    ops := []
    got := [] }

end Sys2Proof.Machine
end

