-- ==== Sys2Proof/Machine/Flags.lean ====
section
/-! DEFINITION. `STATUS`, `CAUSE` and `INFO` (10_state.md R27 to R29): what sets and clears each flag. The block has no
other flags (R39). -/

namespace Sys2Proof.Machine

/-- R261: the code of a fault class. -/
def FaultClass.code : FaultClass → BitVec 8
  | .invalidParameter => 1
  | .degenerateFilterRange => 2
  | .illegalCommand => 4
  | .bufferAlias => 5
  | .capacityExceeded => 6

/-- R27: `STATUS` as the host reads it, bits 63:3 zero. -/
def Status.word (t : Status) : BitVec 64 :=
  BitVec.ofNat 64 (t.fault.toNat + 2 * t.corrected.toNat + 4 * t.done.toNat)

/-- R246 step 2: `DONE` and `CORRECTED` are cleared when a command is accepted. -/
def State.accept (s : State) : State :=
  { s with status := { s.status with corrected := false, done := false } }

/-- R270: `raise F(info)`, taking a fault. Nothing else changes. -/
def State.raise (s : State) (r : Raise) : State :=
  { s with
    status := { fault := true, corrected := false, done := false }
    cause := r.cls.code
    info := r.info }

/-- R274: the return, `CLRF`: `FAULT`, `CAUSE` and `INFO` are cleared and nothing else changes. -/
def State.acknowledge (s : State) : State :=
  { s with status := { s.status with fault := false }, cause := 0, info := 0 }

/-- R246 step 8: `STATUS.CORRECTED` takes the value the command's rule says. -/
def State.setCorrected (s : State) (b : Bool) : State :=
  { s with status := { s.status with corrected := b } }

/-- R246 step 9: `STATUS.DONE <- 1`. The command's draws are used up (log entries 1, 2). -/
def State.complete (s : State) : State :=
  { s with status := { s.status with done := true }, draws := s.draws + 1 }

end Sys2Proof.Machine
end

