-- ==== Sys2Proof/Machine/Memory.lean ====
section
/-! DEFINITION. The sample space (20_memory.md R50 to R55): reading and writing samples, and replacing a slot by a
result. -/

namespace Sys2Proof.Machine

/-- The sample listed at an index. -/
def lookupCell : List Cell → Nat → Option F64
  | [], _ => none
  | (j, v) :: rest, i => if j = i then some v else lookupCell rest i

/-- The list with the sample at `i` set to `v`, in rising order. -/
def insertCell (i : Nat) (v : F64) : List Cell → List Cell
  | [] => [(i, v)]
  | (j, u) :: rest =>
    if i < j then (i, v) :: (j, u) :: rest
    else if i = j then (i, v) :: rest
    else (j, u) :: insertCell i v rest

/-- A result sequence as cells, from index `i` up. -/
def cellsFrom (i : Nat) : List F64 → List Cell
  | [] => []
  | v :: rest => (i, v) :: cellsFrom (i + 1) rest

/-- The indices rise strictly, from `lo` up. -/
def risingFrom : Nat → List Cell → Bool
  | _, [] => true
  | lo, (i, _) :: rest => decide (lo ≤ i) && risingFrom (i + 1) rest

/-- Every listed index is below `n`. -/
def cellsBelow (n : Nat) (cells : List Cell) : Bool := cells.all fun c => decide (c.1 < n)

/-- The canonical form: in every slot the listed indices rise strictly. Only samples that were written are listed. -/
def Memory.wf (m : Memory) : Bool := m.slots.toList.all fun t => risingFrom 0 t.written

/-- R52 `BufRead(s, i)`: the sample written last, or the free value of a sample that is unspecified (R35, 93 U8). -/
def Memory.read (m : Memory) (d : SlotNo) (i : Nat) : F64 :=
  (lookupCell m.slots[d].written i).getD (Config.unwritten m.slots[d].epoch d.val i)

/-- R53: `BUF[s][i] <- v`, and nothing else changes. -/
def Memory.write (m : Memory) (d : SlotNo) (i : Nat) (v : F64) : Memory :=
  { slots := m.slots.set d { m.slots[d] with written := insertCell i v m.slots[d].written } }

/-- R35: the slot holds the result `y`; its samples at and above the result's length are unspecified, by the draw
`epoch`. -/
def Memory.replace (m : Memory) (d : SlotNo) (y : List F64) (epoch : Nat) : Memory :=
  { slots := m.slots.set d { written := cellsFrom 0 y, epoch := epoch } }

/-- R55: the first `n` samples of a slot. -/
def Memory.samples (m : Memory) (d : SlotNo) (n : Nat) : List F64 := (List.range n).map fun i => m.read d i

end Sys2Proof.Machine
end

