-- ==== Sys2Proof/Machine/Operands.lean ====
section
/-! DEFINITION. The operands: the register map as the host reaches it (10_state.md R21 to R31, 20_memory.md R60) and
the source slot of a command (R55). A command's registers are the named fields of the state (30_encoding.md R76). -/

namespace Sys2Proof.Machine

/-- R60: the slot whose `LEN` is register `0x30 + s`. -/
def lenSlot (r : Nat) : Option SlotNo :=
  if h : 0x30 ≤ r ∧ r < 0x40 then some ⟨r - 0x30, by omega⟩ else none

/-- R21: the parameter register of a number. -/
def ParamRegs.read (p : ParamRegs) : Nat → Option F64
  | 0x00 => some p.fs
  | 0x01 => some p.dur
  | 0x02 => some p.fc
  | 0x03 => some p.fm
  | 0x04 => some p.am
  | 0x05 => some p.ac
  | 0x06 => some p.mu
  | 0x07 => some p.beta
  | 0x08 => some p.cut
  | 0x09 => some p.low
  | 0x0A => some p.high
  | 0x0B => some p.const
  | 0x0C => some p.cmult
  | _ => none

/-- R22, R241: `P[r] <- v`, all 64 bits, no check; no other number names a parameter register. -/
def ParamRegs.write (p : ParamRegs) (r : Nat) (v : F64) : ParamRegs :=
  match r with
  | 0x00 => { p with fs := v }
  | 0x01 => { p with dur := v }
  | 0x02 => { p with fc := v }
  | 0x03 => { p with fm := v }
  | 0x04 => { p with am := v }
  | 0x05 => { p with ac := v }
  | 0x06 => { p with mu := v }
  | 0x07 => { p with beta := v }
  | 0x08 => { p with cut := v }
  | 0x09 => { p with low := v }
  | 0x0A => { p with high := v }
  | 0x0B => { p with const := v }
  | 0x0C => { p with cmult := v }
  | _ => p

/-- R24: the integer register of a number. -/
def CountRegs.read (k : CountRegs) : Nat → Option (BitVec 32)
  | 0x10 => some k.order
  | 0x11 => some k.bpord
  | 0x12 => some k.win
  | 0x13 => some k.dcwin
  | 0x14 => some k.envdiv
  | 0x15 => some k.dcmult
  | _ => none

/-- R24: `K[r] <- n`; no other number names an integer register. -/
def CountRegs.write (k : CountRegs) (r : Nat) (n : BitVec 32) : CountRegs :=
  match r with
  | 0x10 => { k with order := n }
  | 0x11 => { k with bpord := n }
  | 0x12 => { k with win := n }
  | 0x13 => { k with dcwin := n }
  | 0x14 => { k with envdiv := n }
  | 0x15 => { k with dcmult := n }
  | _ => k

/-- R26: the system registers as the host reads them; `CTRL` reads as 0. -/
def State.readSystem (s : State) : Nat → Option (BitVec 64)
  | 0x20 => some (s.cmd.setWidth 64)
  | 0x21 => some s.status.word
  | 0x22 => some (s.cause.setWidth 64)
  | 0x23 => some s.info
  | 0x24 => some 0
  | 0x26 => some (BitVec.ofNat 64 s.capN)
  | 0x27 => some (BitVec.ofNat 64 s.capW)
  | 0x28 => some 16
  | _ => none

/-- R52 `HostReadReg(r)`: narrower registers are zero-extended (R241), a reserved number reads 0 (R31, log entry 9). -/
def State.readReg (s : State) (r : Nat) : BitVec 64 :=
  match s.p.read r, s.k.read r, lenSlot r, s.readSystem r with
  | some v, _, _, _ => v
  | none, some n, _, _ => n.setWidth 64
  | none, none, some d, _ => BitVec.ofNat 64 s.len[d]
  | none, none, none, some v => v
  | none, none, none, none => 0

/-- R33: `LEN[d] <- n` when `n <= MAXN`, else the write is dropped (log entry 13). -/
def State.writeLen (s : State) (d : SlotNo) (n : Nat) : State :=
  if n ≤ s.capN then { s with len := s.len.set d n } else s

/-- R52 `HostWriteReg(r, v)` for a register whose write only stores: `P`, `K` (the low 32 bits, R24) and `LEN`.
A write to a read-only or a reserved register is dropped (R26, R31, log entry 9). `CMD` and `CTRL` are not stored to here. -/
def State.storeReg (s : State) (r : Nat) (v : BitVec 64) : State :=
  match lenSlot r with
  | some d => s.writeLen d v.toNat
  | none => { s with p := s.p.write r v, k := s.k.write r (v.setWidth 32) }

/-- R55: the source sequence `x`, read before anything is written. -/
def State.source (s : State) (r : SlotNo) : List F64 := s.mem.samples r s.len[r]

/-- The root of the positions inside the command now running (log entry 1): the command's draw number, then whether the
operation belongs to the checks (0) or to the result (1). -/
def State.checkKey (s : State) : DrawKey := [0, s.draws]

/-- See `State.checkKey`. -/
def State.resultKey (s : State) : DrawKey := [1, s.draws]

end Sys2Proof.Machine
end

