-- ==== Sys2Proof/Machine/Ops.lean ====
section
/-! DEFINITION. The named operations over the state: the command frame (45_system.md R246), fault entry and return
(R270, R274, in Flags.lean), reset (R300, R301) and the checks the commands share (60_exceptions.md R264, R268, R271). -/

namespace Sys2Proof.Machine

/-! ## Results -/

/-- R246 step 8: the result goes to a destination slot and its `LEN`. -/
def State.writeSlot (s : State) (d : SlotNo) (y : List F64) : State :=
  { s with mem := s.mem.replace d y s.draws, len := s.len.set d y.length }

/-- R188, R196: the bundle's three destinations: `t` to `AUX2`, the message to `AUX1`, the modulated signal to `DST`. -/
def State.writeBundle (s : State) (dst aux1 aux2 : SlotNo) (t m y : List F64) : State :=
  ((s.writeSlot aux2 t).writeSlot aux1 m).writeSlot dst y

/-- R192: `P[MU] <- v`. -/
def State.setMu (s : State) (v : F64) : State := { s with p := { s.p with mu := v } }

/-! ## The frame -/

/-- R246 for a decoded command `i`: refused while a fault is recorded; accepted; the alias check; the command's own
checks, which may also work out a count the command needs; then the effect and `DONE`. `CMD` is written by the issue
(R244), before this. DESIGN CHOICE (log entry 12): the test of `FAULT` stands here too, so that `exec` is the whole frame. -/
def frame {α : Type} (i : Instr) (checks : State → Except Raise α) (effect : α → State → State) (s : State) :
    Host.Outcome State Fault Refusal :=
  if s.status.fault then .next s
  else if !i.wf then .next (s.accept.raise { cls := .bufferAlias, info := (encode i).setWidth 64 })
  else
    match checks s.accept with
    | .error r => .next (s.accept.raise r)
    | .ok x => .next (effect x s.accept).complete

/-! ## Checks -/

/-- R271: a command with no check of its own. -/
def noChecks (_ : State) : Except Raise Unit := .ok ()

/-- One check: raise the class with `INFO` unless the condition holds. -/
def require (ok : Bool) (cls : FaultClass) (info : BitVec 64) : Except Raise Unit :=
  if ok then .ok () else .error { cls := cls, info := info }

/-- R264: `not (P[FS] > 0.0)` raises `InvalidParameter(0x00)`. -/
def checkFs (s : State) : Except Raise Unit := require (F64.gt s.p.fs F64.zero) .invalidParameter 0x00

/-- R264: `not (P[DUR] > 0.0)` raises `InvalidParameter(0x01)`. -/
def checkDur (s : State) : Except Raise Unit := require (F64.gt s.p.dur F64.zero) .invalidParameter 0x01

/-- R264: a count register that is 0 raises `InvalidParameter` with its number. -/
def checkCount (n : BitVec 32) (id : BitVec 64) : Except Raise Unit := require (n != 0) .invalidParameter id

/-- R133, R267: `not (P[HIGH] > P[LOW])` raises `DegenerateFilterRange(0x0A)`. -/
def checkBand (s : State) : Except Raise Unit :=
  require (F64.gt s.p.high s.p.low) .degenerateFilterRange 0x0A

/-- R103: a supplied window is 1 at least (`InvalidParameter`) and `MAXW` at most (`CapacityExceeded`). -/
def checkWindow (s : State) (n : BitVec 32) (id : BitVec 64) : Except Raise Unit := do
  checkCount n id
  require (decide (n.toNat ≤ s.capW)) .capacityExceeded id

/-- R16 `count(v, cap, id)`. -/
def count (v : F64) (cap : Nat) (id : BitVec 64) : Except Raise Nat :=
  if v.isNaN || v == F64.posInf then .error { cls := .capacityExceeded, info := id }
  else if v == F64.negInf then .ok 0
  else if v.floorInt < 1 then .ok 0
  else if v.floorInt > cap then .error { cls := .capacityExceeded, info := id }
  else .ok v.floorInt.toNat

/-- R16, R103 `clampwin(v, id)`: a derived window. -/
def clampWindow (s : State) (v : F64) (id : BitVec 64) : Except Raise Nat := do
  let n ← count v s.capW id
  return max n 1

/-! ## Return and reset -/

/-- R300, R301: every piece of state to its reset value; the capacities are constants. The slots' contents are
unspecified by a new draw (log entry 2), and what the host has still to do is the host's (log entry 7). -/
def State.resetBlock (s : State) : State :=
  { State.reset with
    mem := Memory.unspecified s.draws
    capN := s.capN
    capW := s.capW
    draws := s.draws + 1
    ops := s.ops
    got := s.got }

/-- R30: a write to `CTRL`. `SRST` includes the effect of `CLRF`; bits 63:2 are ignored. -/
def State.control (s : State) (v : BitVec 64) : State :=
  if v.getLsbD 1 then s.resetBlock
  else if v.getLsbD 0 then s.acknowledge
  else s

end Sys2Proof.Machine
end

