-- ==== Sys2Proof/Machine/Sequences.lean ====
section
/-! DEFINITION. The sequence functions the commands are made of (files 40 to 44 of the spec): pure functions of whole
sequences. `k` is the position the draws of a function hang below (log entry 1): operation `j` on sample `i` is
`j :: i :: k`, and two uses in one command get different `k`.
The scratch state of R40 to R42 is the arguments of these functions (log entry 18). -/

namespace Sys2Proof.Machine

/-! ## Maps that know the index -/

/-- `r[i] = f i u[i]`, the indices from `i` up. -/
def mapFrom {α β : Type} (f : Nat → α → β) : Nat → List α → List β
  | _, [] => []
  | i, a :: rest => f i a :: mapFrom f (i + 1) rest

/-- `r[i] = f i u[i] v[i]`, as long as the shorter of the two, the indices from `i` up. -/
def zipFrom {α β γ : Type} (f : Nat → α → β → γ) : Nat → List α → List β → List γ
  | _, [], _ => []
  | _, _, [] => []
  | i, a :: as, b :: bs => f i a b :: zipFrom f (i + 1) as bs

/-! ## The moving-average estimator (40_moving_average.md) -/

/-- R41: an estimator instance. -/
structure Estimator where
  w : Nat
  ring : List F64
  idx : Nat
  sum : F64
  deriving DecidableEq, Repr

/-- R102 `MAE_new(W)`. -/
def maeNew (w : Nat) : Estimator := { w := w, ring := List.replicate w F64.zero, idx := 0, sum := F64.zero }

/-- R101 `MAE_step(e, v)`: subtract the oldest, add the new, divide by `W`. -/
def maeStep (k : DrawKey) (e : Estimator) (v : F64) : Estimator × F64 :=
  let old := e.ring.getD e.idx F64.zero
  let sum := F64.add (1 :: k) (F64.sub (0 :: k) e.sum old) v
  ({ e with sum := sum, ring := e.ring.set e.idx v, idx := (e.idx + 1) % e.w }, F64.div (2 :: k) sum (F64.ofNat e.w))

/-- R102 `MAE_prime(e, p)`: `n` steps, the results discarded. -/
def maePrime (k : DrawKey) (e : Estimator) (p : F64) : Nat → Estimator
  | 0 => e
  | n + 1 => (maeStep (n :: k) (maePrime k e p n) p).1

/-- The estimator fed with the samples of `u`, from index `i` up. -/
def maeRun (k : DrawKey) (e : Estimator) : Nat → List F64 → List F64
  | _, [] => []
  | i, v :: rest => (maeStep (i :: k) e v).2 :: maeRun k (maeStep (i :: k) e v).1 (i + 1) rest

/-- R104 `MAVGF(u, W, m)`; `first` is the priming mode "prime with first value". -/
def mavgF (k : DrawKey) (u : List F64) (w : Nat) (first : Bool) : List F64 :=
  match u with
  | [] => []
  | u0 :: _ => maeRun (1 :: k) (maePrime (0 :: k) (maeNew w) (if first then u0 else F64.zero) w) 0 u

/-! ## The filter bank (41_filter_bank.md) -/

/-- The argument of `EXP` in R121 and R123, `((-TWO_PI) * cut) / fs`. -/
def expArg (k : DrawKey) (cut fs : F64) : F64 := F64.div (1 :: k) (F64.mul (0 :: k) F64.twoPi.neg cut) fs

/-- R121 `ALPHA_LP(cut, fs)`. -/
def alphaLp (k : DrawKey) (cut fs : F64) : F64 := F64.sub (2 :: k) F64.one (F64.exp (expArg k cut fs))

/-- R123 `ALPHA_HP(cut, fs)`. -/
def alphaHp (k : DrawKey) (cut fs : F64) : F64 := F64.exp (expArg k cut fs)

/-- R122: the low-pass recursion from index `i`, the previous output known. -/
def lpFrom (k : DrawKey) (alpha oma : F64) : Nat → F64 → List F64 → List F64
  | _, _, [] => []
  | i, yprev, v :: rest =>
    let y := F64.add (2 :: i :: k) (F64.mul (0 :: i :: k) alpha v) (F64.mul (1 :: i :: k) oma yprev)
    y :: lpFrom k alpha oma (i + 1) y rest

/-- R122 `LP_STAGE(alpha, u)`. -/
def lpStage (k : DrawKey) (alpha : F64) : List F64 → List F64
  | [] => []
  | _ :: rest => F64.zero :: lpFrom k alpha (F64.sub (0 :: k) F64.one alpha) 1 F64.zero rest

/-- R124: the high-pass recursion from index `i`, the previous output and input known. -/
def hpFrom (k : DrawKey) (alpha : F64) : Nat → F64 → F64 → List F64 → List F64
  | _, _, _, [] => []
  | i, yprev, xprev, v :: rest =>
    let y := F64.mul (2 :: i :: k) alpha (F64.sub (1 :: i :: k) (F64.add (0 :: i :: k) yprev v) xprev)
    y :: hpFrom k alpha (i + 1) y v rest

/-- R124 `HP_STAGE(alpha, u)`. -/
def hpStage (k : DrawKey) (alpha : F64) : List F64 → List F64
  | [] => []
  | u0 :: rest => F64.zero :: hpFrom k alpha 1 F64.zero u0 rest

/-- R126 `CASCADE(STAGE, alpha, u, order)`. -/
def cascade (stage : DrawKey → F64 → List F64 → List F64) (k : DrawKey) (alpha : F64) (u : List F64) : Nat → List F64
  | 0 => u
  | n + 1 => stage (n :: k) alpha (cascade stage k alpha u n)

/-- R130 `BPF(u, fs, low, high, order)`. -/
def bpF (k : DrawKey) (u : List F64) (fs low high : F64) (order : Nat) : List F64 :=
  let h := cascade hpStage (1 :: k) (alphaHp (0 :: k) low fs) u order
  cascade lpStage (3 :: k) (alphaLp (2 :: k) high fs) h order

/-- R132: the signal minus its band-passed version. -/
def bsF (k : DrawKey) (u : List F64) (fs low high : F64) (order : Nat) : List F64 :=
  zipFrom (fun i a b => F64.sub (0 :: i :: 5 :: k) a b) 0 u (bpF (4 :: k) u fs low high order)

/-! ## Rectifiers, DC removers, differentiators, integrator (42_rectify_dc_diff_integ.md) -/

/-- R150 `HWRF(u)`. -/
def hwrF (u : List F64) : List F64 := u.map fun v => if F64.gt v F64.zero then v else F64.zero

/-- R152 `FWRF(u)`. -/
def fwrF (u : List F64) : List F64 := u.map F64.abs

/-- R155 `DCREMF(u, W)`: the estimator is primed with the first sample. -/
def dcremF (k : DrawKey) (u : List F64) (w : Nat) : List F64 :=
  zipFrom (fun i a m => F64.sub (0 :: i :: 1 :: k) a m) 0 u (mavgF (0 :: k) u w true)

/-- R158 `DCOFFF(u, c)`. -/
def dcoffF (k : DrawKey) (u : List F64) (c : F64) : List F64 := mapFrom (fun i a => F64.sub (0 :: i :: k) a c) 0 u

/-- R160 `DIFFF(u)`: the forward difference, one sample shorter. -/
def diffF (k : DrawKey) (u : List F64) : List F64 := zipFrom (fun i a b => F64.sub (0 :: i :: k) b a) 0 u u.tail

/-- R163 `ADIFFF(u)`. -/
def adiffF (k : DrawKey) (u : List F64) : List F64 := (diffF k u).map F64.abs

/-- R170: the running total divided by `fs`, from index `i`. -/
def integFrom (k : DrawKey) (fs : F64) : Nat → F64 → List F64 → List F64
  | _, _, [] => []
  | i, acc, v :: rest =>
    let acc' := F64.add (0 :: i :: k) acc v
    F64.div (1 :: i :: k) acc' fs :: integFrom k fs (i + 1) acc' rest

/-- R170 `INTEGF(u, fs)`. -/
def integF (k : DrawKey) (u : List F64) (fs : F64) : List F64 := integFrom k fs 0 F64.zero u

/-! ## Synthesizers (43_synthesizers.md) -/

/-- R183: `t[i] = f64(i) / P[FS]`. -/
def timeBase (k : DrawKey) (fs : F64) (n : Nat) : List F64 :=
  (List.range n).map fun i => F64.div (0 :: i :: k) (F64.ofNat i) fs

/-- `(TWO_PI * f) * t`, the argument of the sines and cosines of R184, R187, R188, R191 and R194. -/
def turnArg (k : DrawKey) (f t : F64) : F64 := F64.mul (1 :: k) (F64.mul (0 :: k) F64.twoPi f) t

/-- R184 `MSG_SIN(A, fm, t)`. -/
def msgSin (k : DrawKey) (a fm : F64) (t : List F64) : List F64 :=
  mapFrom (fun i ti => F64.mul (2 :: i :: k) a (F64.sin (turnArg (i :: k) fm ti))) 0 t

/-- R185 `PHASE(fm, t)[i]`: `q - floor(q)` with `q = fm * t[i]`; a NaN when `q` is not finite (log entry 17). -/
def phaseOf (k : DrawKey) (fm t : F64) : F64 :=
  let q := F64.mul (0 :: k) fm t
  if q.isFinite then F64.sub (1 :: k) q q.floor else F64.nan (1 :: k)

/-- R186 `MSG_TRI(A, fm, t)`, for the open shape `TRI`. -/
def msgTri (k : DrawKey) (a fm : F64) (t : List F64) : List F64 :=
  mapFrom (fun i ti => F64.mul (2 :: i :: k) a (Config.tri (phaseOf (i :: k) fm ti))) 0 t

/-- R186: the spec's default triangle, "open to replacement". No command uses it: `TRI` is `Config.tri` (log entry 4). -/
def triDefault (k : DrawKey) (p : F64) : F64 :=
  if F64.gt F64.half p then F64.sub (1 :: k) (F64.mul (0 :: k) F64.four p) F64.one
  else F64.sub (1 :: k) F64.three (F64.mul (0 :: k) F64.four p)

/-- R187 `SGN(v)`: both zeros give `1.0`, a NaN gives `-1.0`. -/
def sgn (v : F64) : F64 := if F64.ge v F64.zero then F64.one else F64.negOne

/-- R187 `MSG_SQR(A, fm, t)`. -/
def msgSqr (k : DrawKey) (a fm : F64) (t : List F64) : List F64 :=
  mapFrom (fun i ti => F64.mul (2 :: i :: k) a (sgn (F64.sin (turnArg (i :: k) fm ti)))) 0 t

/-- R188: `(P[AC] + m[i]) * SIN((TWO_PI * P[FC]) * t[i])`, the amplitude-offset form. -/
def amOffset (k : DrawKey) (ac fc : F64) (t m : List F64) : List F64 :=
  zipFrom (fun i ti mi => F64.mul (3 :: i :: k) (F64.add (2 :: i :: k) ac mi) (F64.sin (turnArg (i :: k) fc ti))) 0 t m

/-- R191: `(1.0 + (P[MU] * m[i])) * COS((TWO_PI * P[FC]) * t[i])`, the index form. -/
def amIndex (k : DrawKey) (mu fc : F64) (t m : List F64) : List F64 :=
  zipFrom (fun i ti mi =>
    F64.mul (4 :: i :: k) (F64.add (3 :: i :: k) F64.one (F64.mul (2 :: i :: k) mu mi))
      (F64.cos (turnArg (i :: k) fc ti))) 0 t m

/-- R194: `kf = (TWO_PI * P[BETA]) * P[FM]`. -/
def fmSensitivity (k : DrawKey) (beta fm : F64) : F64 := F64.mul (1 :: k) (F64.mul (0 :: k) F64.twoPi beta) fm

/-- R194, R195: `COS(((TWO_PI * P[FC]) * t[i]) + (kf * g[i]))`. -/
def fmSignal (k : DrawKey) (fc kf : F64) (t g : List F64) : List F64 :=
  zipFrom (fun i ti gi =>
    F64.cos (F64.add (3 :: i :: k) (turnArg (i :: k) fc ti) (F64.mul (2 :: i :: k) kf gi))) 0 t g

/-! ## Demodulators (44_demodulators.md) -/

/-- R211 `DEMOD_LP(u)`: the cascade with cutoff `P[CMULT] * P[FM]`. -/
def demodLp (k : DrawKey) (u : List F64) (fs fm cmult : F64) (order : Nat) : List F64 :=
  cascade lpStage (2 :: k) (alphaLp (1 :: k) (F64.mul (0 :: k) cmult fm) fs) u order

/-- R220: `half = (P[BETA] + 1.0) * P[FM]`. -/
def carsonHalf (k : DrawKey) (beta fm : F64) : F64 := F64.mul (1 :: k) (F64.add (0 :: k) beta F64.one) fm

/-- R220: the Carson's-rule pair `(clow, chigh)`. -/
def carsonPair (k : DrawKey) (fc beta fm : F64) : F64 × F64 :=
  (F64.sub (2 :: k) fc (carsonHalf k beta fm), F64.add (3 :: k) fc (carsonHalf k beta fm))

/-- R212: stages 1 to 4 of the AM demodulator; `wdc` is the window of stage 4, or none for `DCFIX`. -/
def amDemodF (k : DrawKey) (x : List F64) (fs fm cmult : F64) (order wenv : Nat) (wdc : Option Nat) : List F64 :=
  let h := hwrF x
  let e := mavgF (2 :: k) h wenv false
  let l := demodLp (3 :: k) e fs fm cmult order
  match wdc with
  | some w => dcremF (4 :: k) l w
  | none => dcoffF (4 :: k) l F64.one

/-- R222: stages 1 to 5 of the FM demodulator for the band `(lo, hi)`. -/
def fmDemodF (k : DrawKey) (x : List F64) (fs fm cmult lo hi : F64) (order bpord wenv wdc : Nat) (plain prime : Bool) :
    List F64 :=
  let b := bpF (1 :: k) x fs lo hi bpord
  let d := if plain then diffF (2 :: k) b else adiffF (2 :: k) b
  let e := mavgF (3 :: k) d wenv prime
  let r := dcremF (4 :: k) e wdc
  demodLp (5 :: k) r fs fm cmult order

end Sys2Proof.Machine
end

