-- ==== Sys2Proof/Machine/Demod.lean ====
section
/-! DEFINITION. AMDEMOD, FMDEMOD (44_demodulators.md R210 to R226). -/

namespace Sys2Proof.Machine

/-- R213: the envelope window of AMDEMOD, from `P[FS] / (2.0 * P[FC])`. -/
def amEnvWindow (s : State) : Except Raise Nat :=
  clampWindow s (F64.div (1 :: s.checkKey) s.p.fs (F64.mul (0 :: s.checkKey) F64.two s.p.fc)) 0x41

/-- R215: the DC window of AMDEMOD, from `P[FS] / P[FM]`. -/
def amDcWindow (s : State) : Except Raise Nat :=
  clampWindow s (F64.div (2 :: s.checkKey) s.p.fs s.p.fm) 0x42

/-- R212: the checks of AMDEMOD, which work out `Wenv` and, with `DCFIX` = 0, `Wdc`. -/
def checkAmdemod (dcfix : Bool) (s : State) : Except Raise (Nat × Option Nat) := do
  checkFs s
  checkCount s.k.order 0x10
  let wenv ← amEnvWindow s
  if dcfix then return (wenv, none)
  let wdc ← amDcWindow s
  return (wenv, some wdc)

/-- R212: the result of AMDEMOD. -/
def State.amDemodulated (a : State) (r : SlotNo) (w : Nat × Option Nat) : List F64 :=
  amDemodF a.resultKey (a.source r) a.p.fs a.p.fm a.p.cmult a.k.order.toNat w.1 w.2

/-- R212 AMDEMOD. -/
def execAmdemod (d r : SlotNo) (dcfix : Bool) (s : State) : Host.Outcome State Fault Refusal :=
  frame (.amdemod d r dcfix) (checkAmdemod dcfix) (fun w a => a.writeSlot d (a.amDemodulated r w)) s

/-- R223: the envelope window of FMDEMOD, from `P[FS] / (f64(K[ENVDIV]) * P[FM])`. -/
def fmEnvWindow (s : State) : Except Raise Nat :=
  clampWindow s
    (F64.div (1 :: s.checkKey) s.p.fs (F64.mul (0 :: s.checkKey) (F64.ofNat s.k.envdiv.toNat) s.p.fm)) 0x41

/-- R223: the DC window of FMDEMOD, the exact product `K[DCMULT] * Wenv`, checked against `MAXW`. -/
def fmDcWindow (s : State) (wenv : Nat) : Except Raise Nat := do
  require (decide (s.k.dcmult.toNat * wenv ≤ s.capW)) .capacityExceeded 0x42
  return s.k.dcmult.toNat * wenv

/-- R221: the checks of FMDEMOD, which work out `Wenv` and `Wdc`. -/
def checkFmdemod (s : State) : Except Raise (Nat × Nat) := do
  checkFs s
  checkCount s.k.order 0x10
  checkCount s.k.bpord 0x11
  checkCount s.k.envdiv 0x14
  checkCount s.k.dcmult 0x15
  let wenv ← fmEnvWindow s
  let wdc ← fmDcWindow s wenv
  return (wenv, wdc)

/-- R224: the override is used when `OVR` = 1 and `P[HIGH] > P[LOW]`. -/
def State.overrideUsed (a : State) (ovr : Bool) : Bool := ovr && F64.gt a.p.high a.p.low

/-- R224: the override was degenerate and the Carson's-rule pair replaced it. -/
def State.overrideCorrected (a : State) (ovr : Bool) : Bool := ovr && !F64.gt a.p.high a.p.low

/-- R220, R224: the band of stage 1, `(lo, hi)`. -/
def State.fmBand (a : State) (ovr : Bool) : F64 × F64 :=
  if a.overrideUsed ovr then (a.p.low, a.p.high) else carsonPair (0 :: a.resultKey) a.p.fc a.p.beta a.p.fm

/-- R222: the result of FMDEMOD. -/
def State.fmDemodulated (a : State) (r : SlotNo) (ovr plain prime : Bool) (w : Nat × Nat) : List F64 :=
  fmDemodF a.resultKey (a.source r) a.p.fs a.p.fm a.p.cmult (a.fmBand ovr).1 (a.fmBand ovr).2 a.k.order.toNat
    a.k.bpord.toNat w.1 w.2 plain prime

/-- R222 FMDEMOD. -/
def execFmdemod (d r : SlotNo) (ovr plain prime : Bool) (s : State) : Host.Outcome State Fault Refusal :=
  frame (.fmdemod d r ovr plain prime) checkFmdemod
    (fun w a => (a.writeSlot d (a.fmDemodulated r ovr plain prime w)).setCorrected (a.overrideCorrected ovr)) s

end Sys2Proof.Machine
end

