-- ==== Sys2Proof/Machine/Estimator.lean ====
section
/-! DEFINITION. MAVG, ENVDET.RAW, ENVDET.HW, ENVDET.FW (40_moving_average.md R105 to R108). -/

namespace Sys2Proof.Machine

/-- R105: `WIN` is checked at issue. -/
def checkWin (s : State) : Except Raise Unit := checkWindow s s.k.win 0x12

/-- R105 MAVG. -/
def execMavg (d r : SlotNo) (prime : Bool) (s : State) : Host.Outcome State Fault Refusal :=
  frame (.mavg d r prime) checkWin
    (fun _ a => a.writeSlot d (mavgF a.resultKey (a.source r) a.k.win.toNat prime)) s

/-- R106 ENVDET.RAW. -/
def execEnvdetRaw (d r : SlotNo) (prime : Bool) (s : State) : Host.Outcome State Fault Refusal :=
  frame (.envdetRaw d r prime) checkWin
    (fun _ a => a.writeSlot d (mavgF a.resultKey (a.source r) a.k.win.toNat prime)) s

/-- R107 ENVDET.HW. -/
def execEnvdetHw (d r : SlotNo) (prime : Bool) (s : State) : Host.Outcome State Fault Refusal :=
  frame (.envdetHw d r prime) checkWin
    (fun _ a => a.writeSlot d (mavgF a.resultKey (hwrF (a.source r)) a.k.win.toNat prime)) s

/-- R108 ENVDET.FW. -/
def execEnvdetFw (d r : SlotNo) (prime : Bool) (s : State) : Host.Outcome State Fault Refusal :=
  frame (.envdetFw d r prime) checkWin
    (fun _ a => a.writeSlot d (mavgF a.resultKey (fwrF (a.source r)) a.k.win.toNat prime)) s

end Sys2Proof.Machine
end

