-- ==== Sys2Proof/Machine/FilterBank.lean ====
section
/-! DEFINITION. LOWPASS, HIGHPASS, BANDPASS, BANDSTOP (41_filter_bank.md R128 to R132). -/

namespace Sys2Proof.Machine

/-- R127: the checks common to the four commands, `FS` then `ORDER`. -/
def checkFilter (s : State) : Except Raise Unit := do
  checkFs s
  checkCount s.k.order 0x10

/-- R131: the checks of the band commands, those of R127 and then the band of R133. -/
def checkBandFilter (s : State) : Except Raise Unit := do
  checkFilter s
  checkBand s

/-- R128 LOWPASS. -/
def execLowpass (d r : SlotNo) (s : State) : Host.Outcome State Fault Refusal :=
  frame (.lowpass d r) checkFilter
    (fun _ a => a.writeSlot d
      (cascade lpStage (1 :: a.resultKey) (alphaLp (0 :: a.resultKey) a.p.cut a.p.fs) (a.source r) a.k.order.toNat)) s

/-- R129 HIGHPASS. -/
def execHighpass (d r : SlotNo) (s : State) : Host.Outcome State Fault Refusal :=
  frame (.highpass d r) checkFilter
    (fun _ a => a.writeSlot d
      (cascade hpStage (1 :: a.resultKey) (alphaHp (0 :: a.resultKey) a.p.cut a.p.fs) (a.source r) a.k.order.toNat)) s

/-- R131 BANDPASS. -/
def execBandpass (d r : SlotNo) (s : State) : Host.Outcome State Fault Refusal :=
  frame (.bandpass d r) checkBandFilter
    (fun _ a => a.writeSlot d (bpF a.resultKey (a.source r) a.p.fs a.p.low a.p.high a.k.order.toNat)) s

/-- R132 BANDSTOP. -/
def execBandstop (d r : SlotNo) (s : State) : Host.Outcome State Fault Refusal :=
  frame (.bandstop d r) checkBandFilter
    (fun _ a => a.writeSlot d (bsF a.resultKey (a.source r) a.p.fs a.p.low a.p.high a.k.order.toNat)) s

end Sys2Proof.Machine
end

