-- ==== Sys2Proof/Machine/Synth.lean ====
section
/-! DEFINITION. AMMOD.SIN, AMMOD.TRI, AMMOD.SQR, AMMOD.IDX, FMMOD (43_synthesizers.md R188 to R196). -/

namespace Sys2Proof.Machine

/-- R182: the length, `floor` of the one product `P[FS] * P[DUR]`. -/
def synthLength (s : State) : Except Raise Nat :=
  count (F64.mul (0 :: s.checkKey) s.p.fs s.p.dur) s.capN 0x40

/-- R181: the checks of a synthesizer, which work out `N`. -/
def checkSynth (s : State) : Except Raise Nat := do
  checkFs s
  checkDur s
  synthLength s

/-- R183: the time base of a command, `n` samples. -/
def State.timeBase (a : State) (n : Nat) : List F64 := Sys2Proof.Machine.timeBase (0 :: a.resultKey) a.p.fs n

/-- R188, R192: the three slots of an amplitude-offset command with the message `m`, then `P[MU] <- P[AM] / P[AC]`. -/
def State.writeAmOffset (a : State) (d aux1 aux2 : SlotNo) (n : Nat) (m : List F64) : State :=
  (a.writeBundle d aux1 aux2 (a.timeBase n) m (amOffset (2 :: a.resultKey) a.p.ac a.p.fc (a.timeBase n) m)).setMu
    (F64.div (3 :: a.resultKey) a.p.am a.p.ac)

/-- R188 AMMOD.SIN. -/
def execAmmodSin (d aux1 aux2 : SlotNo) (s : State) : Host.Outcome State Fault Refusal :=
  frame (.ammodSin d aux1 aux2) checkSynth
    (fun n a => a.writeAmOffset d aux1 aux2 n (msgSin (1 :: a.resultKey) a.p.am a.p.fm (a.timeBase n))) s

/-- R189 AMMOD.TRI. -/
def execAmmodTri (d aux1 aux2 : SlotNo) (s : State) : Host.Outcome State Fault Refusal :=
  frame (.ammodTri d aux1 aux2) checkSynth
    (fun n a => a.writeAmOffset d aux1 aux2 n (msgTri (1 :: a.resultKey) a.p.am a.p.fm (a.timeBase n))) s

/-- R190 AMMOD.SQR. -/
def execAmmodSqr (d aux1 aux2 : SlotNo) (s : State) : Host.Outcome State Fault Refusal :=
  frame (.ammodSqr d aux1 aux2) checkSynth
    (fun n a => a.writeAmOffset d aux1 aux2 n (msgSqr (1 :: a.resultKey) a.p.am a.p.fm (a.timeBase n))) s

/-- R191: the message of the index form and of FM (R193), the unit sine. -/
def State.unitSine (a : State) (n : Nat) : List F64 := msgSin (1 :: a.resultKey) F64.one a.p.fm (a.timeBase n)

/-- R191 AMMOD.IDX; `P[MU]` is not written. -/
def execAmmodIdx (d aux1 aux2 : SlotNo) (s : State) : Host.Outcome State Fault Refusal :=
  frame (.ammodIdx d aux1 aux2) checkSynth
    (fun n a => a.writeBundle d aux1 aux2 (a.timeBase n) (a.unitSine n)
      (amIndex (2 :: a.resultKey) a.p.mu a.p.fc (a.timeBase n) (a.unitSine n))) s

/-- R193 to R195: the FM signal of `n` samples. -/
def State.fmModulated (a : State) (n : Nat) : List F64 :=
  fmSignal (4 :: a.resultKey) a.p.fc (fmSensitivity (3 :: a.resultKey) a.p.beta a.p.fm) (a.timeBase n)
    (integF (2 :: a.resultKey) (a.unitSine n) a.p.fs)

/-- R196 FMMOD. -/
def execFmmod (d aux1 aux2 : SlotNo) (s : State) : Host.Outcome State Fault Refusal :=
  frame (.fmmod d aux1 aux2) checkSynth
    (fun n a => a.writeBundle d aux1 aux2 (a.timeBase n) (a.unitSine n) (a.fmModulated n)) s

end Sys2Proof.Machine
end

