-- ==== Sys2Proof/Machine/Utilities.lean ====
section
/-! DEFINITION. HWR, FWR, DCREM, DCOFF, DIFF, ADIFF, INTEG (42_rectify_dc_diff_integ.md R151 to R172). -/

namespace Sys2Proof.Machine

/-- R156: `DCWIN` is checked at issue. -/
def checkDcwin (s : State) : Except Raise Unit := checkWindow s s.k.dcwin 0x13

/-- R151 HWR. -/
def execHwr (d r : SlotNo) (s : State) : Host.Outcome State Fault Refusal :=
  frame (.hwr d r) noChecks (fun _ a => a.writeSlot d (hwrF (a.source r))) s

/-- R153 FWR. -/
def execFwr (d r : SlotNo) (s : State) : Host.Outcome State Fault Refusal :=
  frame (.fwr d r) noChecks (fun _ a => a.writeSlot d (fwrF (a.source r))) s

/-- R156 DCREM. -/
def execDcrem (d r : SlotNo) (s : State) : Host.Outcome State Fault Refusal :=
  frame (.dcrem d r) checkDcwin
    (fun _ a => a.writeSlot d (dcremF a.resultKey (a.source r) a.k.dcwin.toNat)) s

/-- R159 DCOFF. -/
def execDcoff (d r : SlotNo) (s : State) : Host.Outcome State Fault Refusal :=
  frame (.dcoff d r) noChecks (fun _ a => a.writeSlot d (dcoffF a.resultKey (a.source r) a.p.const)) s

/-- R162 DIFF. -/
def execDiff (d r : SlotNo) (s : State) : Host.Outcome State Fault Refusal :=
  frame (.diff d r) noChecks (fun _ a => a.writeSlot d (diffF a.resultKey (a.source r))) s

/-- R165 ADIFF. -/
def execAdiff (d r : SlotNo) (s : State) : Host.Outcome State Fault Refusal :=
  frame (.adiff d r) noChecks (fun _ a => a.writeSlot d (adiffF a.resultKey (a.source r))) s

/-- R172 INTEG. -/
def execInteg (d r : SlotNo) (s : State) : Host.Outcome State Fault Refusal :=
  frame (.integ d r) checkFs (fun _ a => a.writeSlot d (integF a.resultKey (a.source r) a.p.fs)) s

end Sys2Proof.Machine
end

