-- ==== Sys2Proof/Machine/Dispatch.lean ====
section
/-! DEFINITION. One arm a command. `exec` is the command frame (45_system.md R246) of a decoded command. -/

namespace Sys2Proof.Machine

def exec (i : Instr) (s : State) : Host.Outcome State Fault Refusal :=
  match i with
  | .lowpass d r => Sys2Proof.Machine.execLowpass d r s
  | .highpass d r => Sys2Proof.Machine.execHighpass d r s
  | .bandpass d r => Sys2Proof.Machine.execBandpass d r s
  | .bandstop d r => Sys2Proof.Machine.execBandstop d r s
  | .mavg d r prime => Sys2Proof.Machine.execMavg d r prime s
  | .envdetRaw d r prime => Sys2Proof.Machine.execEnvdetRaw d r prime s
  | .envdetHw d r prime => Sys2Proof.Machine.execEnvdetHw d r prime s
  | .envdetFw d r prime => Sys2Proof.Machine.execEnvdetFw d r prime s
  | .hwr d r => Sys2Proof.Machine.execHwr d r s
  | .fwr d r => Sys2Proof.Machine.execFwr d r s
  | .dcrem d r => Sys2Proof.Machine.execDcrem d r s
  | .dcoff d r => Sys2Proof.Machine.execDcoff d r s
  | .diff d r => Sys2Proof.Machine.execDiff d r s
  | .adiff d r => Sys2Proof.Machine.execAdiff d r s
  | .integ d r => Sys2Proof.Machine.execInteg d r s
  | .ammodSin d m t => Sys2Proof.Machine.execAmmodSin d m t s
  | .ammodTri d m t => Sys2Proof.Machine.execAmmodTri d m t s
  | .ammodSqr d m t => Sys2Proof.Machine.execAmmodSqr d m t s
  | .ammodIdx d m t => Sys2Proof.Machine.execAmmodIdx d m t s
  | .fmmod d m t => Sys2Proof.Machine.execFmmod d m t s
  | .amdemod d r dcfix => Sys2Proof.Machine.execAmdemod d r dcfix s
  | .fmdemod d r ovr plain prime => Sys2Proof.Machine.execFmdemod d r ovr plain prime s

end Sys2Proof.Machine
end

