-- ==== Sys2Proof/Machine/HostOps.lean ====
section
/-! DEFINITION. The host operations (45_system.md R240 to R248), one atomic transition each. -/

namespace Sys2Proof.Machine

/-- R244, R246 steps 1 to 3: `CMD` takes the word; while a fault is recorded it is not decoded and nothing else changes
(R272); an illegal word raises `IllegalCommand` (R265); a legal one runs. -/
def issue (w : BitVec 32) (s : State) : Host.Outcome State Fault Refusal :=
  if s.status.fault then .next { s with cmd := w }
  else
    match decode w with
    | .error _ => .next (({ s with cmd := w } : State).accept.raise { cls := .illegalCommand, info := w.setWidth 64 })
    | .ok i => exec i { s with cmd := w }

/-- R52 `HostWriteReg(r, v)`. -/
def writeReg (r : Nat) (v : BitVec 64) (s : State) : Host.Outcome State Fault Refusal :=
  if r = 0x20 then issue (issuedWord v) s
  else if r = 0x24 then .next (s.control v)
  else .next (s.storeReg r v)

/-- R52: a read's value goes to the host; nothing of the block changes (R59). -/
def State.answer (s : State) (v : BitVec 64) : State := { s with got := v :: s.got }

/-- R54 `HostReadSample(s, i)`. -/
def readSample (slot index : Nat) (s : State) : Host.Outcome State Fault Refusal :=
  if h : slot < 16 then
    if index < s.len[slot] then .next (s.answer (s.mem.read ⟨slot, h⟩ index))
    else .refused .readBeyondLength
  else .refused .readOutsideSlots

/-- R53 `HostWriteSample(s, i, v)`, whatever `LEN[s]` is. -/
def writeSample (slot index : Nat) (v : F64) (s : State) : Host.Outcome State Fault Refusal :=
  if h : slot < 16 then
    if index < s.capN then .next { s with mem := s.mem.write ⟨slot, h⟩ index v }
    else .refused .writeOutsideSlots
  else .refused .writeOutsideSlots

/-- One move of the host. -/
def hostOp (op : HostOp) (s : State) : Host.Outcome State Fault Refusal :=
  match op with
  | .readReg r => .next (s.answer (s.readReg r))
  | .writeReg r v => writeReg r v s
  | .readSample slot index => readSample slot index s
  | .writeSample slot index v => writeSample slot index v s
  | .extReset => .next s.resetBlock

/-- R62: the host's operations take effect one at a time, in order. With none to make, the block does nothing (R300). -/
def hostTurn (s : State) : Host.Outcome State Fault Refusal :=
  match s.ops with
  | [] => .next s
  | op :: rest => hostOp op { s with ops := rest }

/-- The host's next operation is the issue of `w` (R244). -/
def State.issueNext (s : State) (w : BitVec 32) : State :=
  { s with ops := .writeReg 0x20 (w.setWidth 64) :: s.ops }

end Sys2Proof.Machine
end

