-- ==== Sys2Proof/Machine/Step.lean ====
section
/-! DEFINITION. One step of the machine is one host operation (92_eei_decisions.md D1; 45_system.md R240). -/

namespace Sys2Proof.Machine

/-- The host's next operation, and with it the whole command when it issues one (R245). -/
def step : State → Host.Outcome State Fault Refusal := hostTurn

/-- The block fetches nothing (R37): an instruction reaches it as the data of the host's next write to `CMD`
(log entry 7). -/
def State.withFetchWord (s : State) (nbits w : Nat) : State := s.issueNext (tableWord nbits w)

end Sys2Proof.Machine
end

