-- ==== Sys2Proof/Safety.lean ====
section
/-! DEFINITION. What a good state is, and the words the statements use: what a command leaves in its destinations and
what it leaves alone, the checks of 60_exceptions.md R271 as data, and binary64 rounding said without an algorithm. -/

namespace Sys2Proof

/-! ## The operands and destinations of a command -/

/-- The slots a command writes. -/
def Instr.dests : Instr → List SlotNo
  | .lowpass d _ | .highpass d _ | .bandpass d _ | .bandstop d _
  | .mavg d _ _ | .envdetRaw d _ _ | .envdetHw d _ _ | .envdetFw d _ _
  | .hwr d _ | .fwr d _ | .dcrem d _ | .dcoff d _ | .diff d _ | .adiff d _ | .integ d _
  | .amdemod d _ _ | .fmdemod d _ _ _ _ => [d]
  | .ammodSin d m t | .ammodTri d m t | .ammodSqr d m t | .ammodIdx d m t | .fmmod d m t => [d, m, t]

/-- The slot a command reads, for format U. -/
def Instr.src? : Instr → Option SlotNo
  | .lowpass _ r | .highpass _ r | .bandpass _ r | .bandstop _ r
  | .mavg _ r _ | .envdetRaw _ r _ | .envdetHw _ r _ | .envdetFw _ r _
  | .hwr _ r | .fwr _ r | .dcrem _ r | .dcoff _ r | .diff _ r | .adiff _ r | .integ _ r
  | .amdemod _ r _ | .fmdemod _ r _ _ _ => some r
  | .ammodSin .. | .ammodTri .. | .ammodSqr .. | .ammodIdx .. | .fmmod .. => none

/-- R192: the amplitude-offset synthesizers, which write `MU`. -/
def Instr.writesMu : Instr → Bool
  | .ammodSin .. | .ammodTri .. | .ammodSqr .. => true
  | _ => false

end Sys2Proof

namespace Sys2Proof.Machine

/-! ## The invariant -/

/-- What every reachable state satisfies: the capacities are legal (R6), every slot is canonical and within its capacity
(R33, R50), the fault registers tell one story (R27 to R29), and `CAUSE` holds a code that is produced (93 U13). That a slot
lists its samples by strictly rising index (log entry 8) and that its free samples belong to a draw already made (log entry
2) are the model's own. -/
structure State.Inv (s : State) : Prop where
  capN_pos : 1 ≤ s.capN
  capN_lt : s.capN < 2 ^ 32
  capW_pos : 1 ≤ s.capW
  capW_lt : s.capW < 2 ^ 32
  len_le : ∀ d : SlotNo, s.len[d] ≤ s.capN
  mem_wf : s.mem.wf = true
  mem_below : ∀ d : SlotNo, cellsBelow s.capN s.mem.slots[d].written = true
  epoch_lt : ∀ d : SlotNo, s.mem.slots[d].epoch < s.draws
  fault_iff : s.status.fault = true ↔ s.cause ≠ 0
  fault_not_done : s.status.fault = true → s.status.done = false
  corrected_done : s.status.corrected = true → s.status.done = true
  no_cause_no_info : s.cause = 0 → s.info = 0
  cause_code : s.cause = 0 ∨ ∃ c : FaultClass, s.cause = c.code

/-! ## What a command leaves behind -/

/-- Slot `d` holds exactly the sequence `y`: its `LEN` and every sample below it. -/
def State.Holds (t : State) (d : SlotNo) (y : List F64) : Prop :=
  t.len[d] = y.length ∧ ∀ (i : Nat) (h : i < y.length), t.mem.read d i = y[i]

/-- Every slot outside `ds` has the same `LEN` and reads the same at every index. (Of a destination, the samples at and
above the result's length are unspecified, R35.) -/
def State.SlotsKept (s t : State) (ds : List SlotNo) : Prop :=
  ∀ e : SlotNo, e ∉ ds → t.len[e] = s.len[e] ∧ ∀ i : Nat, t.mem.read e i = s.mem.read e i

/-- No command changes these: the integer registers, `CMD` (the issue writes it), the capacities and the host's side. -/
structure State.RegsKept (s t : State) : Prop where
  k : t.k = s.k
  cmd : t.cmd = s.cmd
  capN : t.capN = s.capN
  capW : t.capW = s.capW
  ops : t.ops = s.ops
  got : t.got = s.got

/-- A command that completed from `s` in `t` (R246 steps 2, 8, 9): it wrote the slots `ds` and no other, the parameter
registers are `p`, `CORRECTED` is `corrected`, `DONE` is 1, and everything else is as it was. -/
structure State.Completed (s t : State) (ds : List SlotNo) (p : ParamRegs) (corrected : Bool) : Prop where
  slots : s.SlotsKept t ds
  regs : s.RegsKept t
  params : t.p = p
  status : t.status = { fault := false, corrected := corrected, done := true }
  cause : t.cause = s.cause
  info : t.info = s.info

/-- The state after a command raised `r` (R270): `STATUS`, `CAUSE` and `INFO`, and nothing else. -/
def State.faulted (s : State) (r : Raise) : State :=
  { s with status := { fault := true, corrected := false, done := false }, cause := r.cls.code, info := r.info }

/-- A command may run: no fault is recorded and its slots are distinct (R246 steps 1 and 4). -/
def State.accepts (s : State) (i : Instr) : Prop := s.status.fault = false ∧ i.wf = true

/-- A format-U command completes with a result that satisfies `y` in its destination; the parameter registers and the
other slots are unchanged. -/
def CompletesU (i : Instr) (s : State) (d : SlotNo) (corrected : Bool) (y : List F64 → Prop) : Prop :=
  ∃ (t : State) (r : List F64), exec i s = .next t ∧ y r ∧ t.Holds d r ∧ s.Completed t [d] s.p corrected

/-- A format-G command completes with a time base, a message and a modulated signal in its three destinations and with
parameter registers that together satisfy `y`. -/
def CompletesG (i : Instr) (s : State) (d aux1 aux2 : SlotNo)
    (y : List F64 → List F64 → List F64 → ParamRegs → Prop) : Prop :=
  ∃ (u : State) (t m x : List F64) (p : ParamRegs), exec i s = .next u ∧ y t m x p ∧ u.Holds aux2 t ∧ u.Holds aux1 m ∧
    u.Holds d x ∧ s.Completed u [d, aux1, aux2] p false

/-! ## The checks of a command -/

/-- R16: a count that does not fit: a NaN, `+inf`, or a finite value whose floor is above `cap`. -/
def overflows (v : F64) (cap : Nat) : Bool :=
  v.isNaN || v == F64.posInf || (v.isFinite && decide (v.floorInt > cap))

/-- R16: a derived count that fits: the floor, 0 below 1 (`-inf` too). -/
def derivedLength (v : F64) : Nat := if v.isFinite then v.floorInt.toNat else 0

/-- R103: a derived window that fits, clamped to 1. -/
def derivedWindow (v : F64) : Nat := max (derivedLength v) 1

/-- A failing condition and what it raises. -/
abbrev Check := Bool × Raise

/-- R264: `FS`. -/
def fsCheck (s : State) : Check := (!F64.gt s.p.fs F64.zero, ⟨.invalidParameter, 0x00⟩)
/-- R264: `DUR`. -/
def durCheck (s : State) : Check := (!F64.gt s.p.dur F64.zero, ⟨.invalidParameter, 0x01⟩)
/-- R264: a count register that is 0. -/
def zeroCheck (n : BitVec 32) (id : BitVec 64) : Check := (n == 0, ⟨.invalidParameter, id⟩)
/-- R268: a supplied window above `MAXW`. -/
def windowCheck (s : State) (n : BitVec 32) (id : BitVec 64) : Check :=
  (decide (n.toNat > s.capW), ⟨.capacityExceeded, id⟩)
/-- R268: a derived count that does not fit. -/
def countCheck (v : F64) (cap : Nat) (id : BitVec 64) : Check := (overflows v cap, ⟨.capacityExceeded, id⟩)

/-- R182: the quotients and products the derived counts are made from; the draws do not matter to a count. -/
def synthProduct (s : State) : F64 := F64.mul (0 :: s.checkKey) s.p.fs s.p.dur
/-- R213 -/
def amEnvQuotient (s : State) : F64 := F64.div (1 :: s.checkKey) s.p.fs (F64.mul (0 :: s.checkKey) F64.two s.p.fc)
/-- R215 -/
def amDcQuotient (s : State) : F64 := F64.div (2 :: s.checkKey) s.p.fs s.p.fm
/-- R223 -/
def fmEnvQuotient (s : State) : F64 :=
  F64.div (1 :: s.checkKey) s.p.fs (F64.mul (0 :: s.checkKey) (F64.ofNat s.k.envdiv.toNat) s.p.fm)

/-- R271: the checks of a command in order, as the rule's table lists them. -/
def checkTable (i : Instr) (s : State) : List Check :=
  match i with
  | .lowpass .. | .highpass .. => [fsCheck s, zeroCheck s.k.order 0x10]
  | .bandpass .. | .bandstop .. =>
    [fsCheck s, zeroCheck s.k.order 0x10, (!F64.gt s.p.high s.p.low, ⟨.degenerateFilterRange, 0x0A⟩)]
  | .mavg .. | .envdetRaw .. | .envdetHw .. | .envdetFw .. => [zeroCheck s.k.win 0x12, windowCheck s s.k.win 0x12]
  | .hwr .. | .fwr .. | .dcoff .. | .diff .. | .adiff .. => []
  | .dcrem .. => [zeroCheck s.k.dcwin 0x13, windowCheck s s.k.dcwin 0x13]
  | .integ .. => [fsCheck s]
  | .ammodSin .. | .ammodTri .. | .ammodSqr .. | .ammodIdx .. | .fmmod .. =>
    [fsCheck s, durCheck s, countCheck (synthProduct s) s.capN 0x40]
  | .amdemod _ _ dcfix =>
    [fsCheck s, zeroCheck s.k.order 0x10, countCheck (amEnvQuotient s) s.capW 0x41] ++
      (if dcfix then [] else [countCheck (amDcQuotient s) s.capW 0x42])
  | .fmdemod .. =>
    [fsCheck s, zeroCheck s.k.order 0x10, zeroCheck s.k.bpord 0x11, zeroCheck s.k.envdiv 0x14,
      zeroCheck s.k.dcmult 0x15, countCheck (fmEnvQuotient s) s.capW 0x41,
      (decide (s.k.dcmult.toNat * derivedWindow (fmEnvQuotient s) > s.capW), ⟨.capacityExceeded, 0x42⟩)]

/-- The first check of a list that fails. -/
def firstFailing (cs : List Check) : Option Raise := (cs.find? fun c => c.1).map fun c => c.2

/-- No check of the command fails. -/
def checksPass (i : Instr) (s : State) : Prop := firstFailing (checkTable i s) = none

/-! ## Rounding (00_scope.md R8), said without an algorithm -/

/-- The magnitude from which an exact result rounds to an infinity, in units of `2^(-1074)`: half a last place above
the largest finite value. -/
def overflowUnits : Nat := (2 ^ 54 - 1) * 2 ^ 2044

/-- `r` is the exact value `num / den` units of `2^(-1074)` (`den > 0`), rounded to nearest, ties to even, overflow to the
infinity of its sign. -/
def RoundsTo (num den : Int) (r : F64) : Prop :=
  if num.natAbs < overflowUnits * den.natAbs then
    r.isFinite = true ∧
    (∀ c : F64, c.isFinite = true → (r.units * den - num).natAbs ≤ (c.units * den - num).natAbs) ∧
    (∀ c : F64, c.isFinite = true → c.units ≠ r.units →
      (c.units * den - num).natAbs = (r.units * den - num).natAbs → r.frac % 2 = 0)
  else r = F64.infOf (decide (num < 0))

end Sys2Proof.Machine
end

