-- ==== Sys2Proof/Safety/Rules.lean ====
section
/-! DEFINITION. The rules of files 40 to 44 of the spec as relations between sequences, written from the rules' formulas
and not from the model's functions: what each stage's output is, sample by sample. A NaN an operation generates is free
(R12), so an operation stands in a rule as "for some draw `k`". -/

namespace Sys2Proof.Machine

/-! ## Operations with a free draw -/

/-- `v = a + b` (R8) for some draw. -/
def IsSum (a b v : F64) : Prop := ∃ k, v = F64.add k a b
/-- `v = a - b`. -/
def IsDifference (a b v : F64) : Prop := ∃ k, v = F64.sub k a b
/-- `v = a * b`. -/
def IsProduct (a b v : F64) : Prop := ∃ k, v = F64.mul k a b
/-- `v = a / b`. -/
def IsQuotient (a b v : F64) : Prop := ∃ k, v = F64.div k a b

/-- Two sequences of one length related sample by sample. -/
def Pointwise (rel : F64 → F64 → Prop) (u y : List F64) : Prop :=
  ∃ h : y.length = u.length, ∀ (i : Nat) (hi : i < u.length), rel u[i] (y[i]'(h ▸ hi))

/-! ## The estimator (40_moving_average.md) -/

/-- R102, R104: what the estimator is fed: the priming value `W` times, then the signal. -/
def feed (u : List F64) (w : Nat) (first : Bool) (j : Nat) : F64 :=
  if j < w then (if first then u.getD 0 F64.zero else F64.zero) else u.getD (j - w) F64.zero

/-- R101, R102: the value evicted at a step: a zero of the fresh ring, then the value fed `W` steps before. -/
def evicted (u : List F64) (w : Nat) (first : Bool) (j : Nat) : F64 :=
  if j < w then F64.zero else feed u w first (j - w)

/-- R101 to R104: `y` is the running-sum mean of `u` over `w` values, priming included: from `+0.0` the sum loses the
evicted value, then gains the fed one, and `y[i]` is the sum after `w + i + 1` steps divided by `w`. -/
def IsMovingAverage (w : Nat) (first : Bool) (u y : List F64) : Prop :=
  ∃ (h : y.length = u.length) (sum : Nat → F64), sum 0 = F64.zero ∧
    (∀ j, j < w + u.length → ∃ x, IsDifference (sum j) (evicted u w first j) x ∧ IsSum x (feed u w first j) (sum (j + 1))) ∧
    ∀ (i : Nat) (hi : i < u.length), IsQuotient (sum (w + i + 1)) (F64.ofNat w) (y[i]'(h ▸ hi))

/-! ## The filter bank (41_filter_bank.md) -/

/-- R121, R123: `((-TWO_PI) * cut) / fs`. -/
def IsExpArg (cut fs v : F64) : Prop := ∃ x, IsProduct F64.twoPi.neg cut x ∧ IsQuotient x fs v
/-- R121: `1.0 - EXP(((-TWO_PI) * cut) / fs)`. -/
def IsAlphaLp (cut fs a : F64) : Prop := ∃ v, IsExpArg cut fs v ∧ IsDifference F64.one (F64.exp v) a
/-- R123: `EXP(((-TWO_PI) * cut) / fs)`. -/
def IsAlphaHp (cut fs a : F64) : Prop := ∃ v, IsExpArg cut fs v ∧ a = F64.exp v

/-- R122: `y[0] = +0.0`; `y[i] = (alpha * u[i]) + (oma * y[i-1])` with `oma = 1.0 - alpha`. -/
def IsLowPass (alpha : F64) (u y : List F64) : Prop :=
  ∃ (h : y.length = u.length) (oma : F64), IsDifference F64.one alpha oma ∧
    (∀ h0 : 0 < u.length, y[0]'(h ▸ h0) = F64.zero) ∧
    ∀ (i : Nat) (hi : i + 1 < u.length), ∃ a b, IsProduct alpha u[i + 1] a ∧ IsProduct oma (y[i]'(by omega)) b ∧
      IsSum a b (y[i + 1]'(h ▸ hi))

/-- R124: `y[0] = +0.0`; `y[i] = alpha * ((y[i-1] + u[i]) - u[i-1])`. -/
def IsHighPass (alpha : F64) (u y : List F64) : Prop :=
  ∃ h : y.length = u.length,
    (∀ h0 : 0 < u.length, y[0]'(h ▸ h0) = F64.zero) ∧
    ∀ (i : Nat) (hi : i + 1 < u.length), ∃ a b, IsSum (y[i]'(by omega)) u[i + 1] a ∧ IsDifference a u[i] b ∧
      IsProduct alpha b (y[i + 1]'(h ▸ hi))

/-- R126: the stage applied `order` times in series. -/
def IsCascade (stage : List F64 → List F64 → Prop) (order : Nat) (u y : List F64) : Prop :=
  ∃ v : Nat → List F64, v 0 = u ∧ (∀ j, j < order → stage (v j) (v (j + 1))) ∧ v order = y

/-- R130: high-pass at the low cutoff, then low-pass at the high cutoff, both `order` deep. -/
def IsBandPass (fs low high : F64) (order : Nat) (u y : List F64) : Prop :=
  ∃ ah al h, IsAlphaHp low fs ah ∧ IsAlphaLp high fs al ∧ IsCascade (IsHighPass ah) order u h ∧
    IsCascade (IsLowPass al) order h y

/-! ## Utilities (42_rectify_dc_diff_integ.md) -/

/-- R150: `u[i]` if `u[i] > 0.0`, else `+0.0`. -/
def IsHalfWave (u y : List F64) : Prop :=
  Pointwise (fun a b => b = if F64.gt a F64.zero then a else F64.zero) u y

/-- R152, R14: bit 63 cleared. -/
def IsFullWave (u y : List F64) : Prop := Pointwise (fun a b => b = a &&& 0x7FFFFFFFFFFFFFFF) u y

/-- R155: the signal minus its running mean, the estimator primed with the first sample. -/
def IsDcRemoved (w : Nat) (u y : List F64) : Prop :=
  ∃ m, IsMovingAverage w true u m ∧ ∃ (hm : m.length = u.length) (h : y.length = u.length),
    ∀ (i : Nat) (hi : i < u.length), IsDifference u[i] (m[i]'(hm ▸ hi)) (y[i]'(h ▸ hi))

/-- R158: `u[i] - c`. -/
def IsOffset (c : F64) (u y : List F64) : Prop := Pointwise (fun a b => IsDifference a c b) u y

/-- R160, R161: `u[i+1] - u[i]`, one sample shorter. -/
def IsForwardDifference (u y : List F64) : Prop :=
  y.length = u.length - 1 ∧
    ∀ (i : Nat) (hi : i + 1 < u.length) (hy : i < y.length), IsDifference u[i + 1] u[i] y[i]

/-- R163: `fabs(u[i+1] - u[i])`. -/
def IsAbsDifference (u y : List F64) : Prop := ∃ v, IsForwardDifference u v ∧ IsFullWave v y

/-- R170: the running total from `+0.0` up, each divided by `fs`. -/
def IsIntegral (fs : F64) (u y : List F64) : Prop :=
  ∃ (h : y.length = u.length) (acc : Nat → F64), acc 0 = F64.zero ∧
    ∀ (i : Nat) (hi : i < u.length), IsSum (acc i) u[i] (acc (i + 1)) ∧ IsQuotient (acc (i + 1)) fs (y[i]'(h ▸ hi))

/-! ## Synthesizers (43_synthesizers.md) -/

/-- R183: `t[i] = f64(i) / fs`, `n` samples. -/
def IsTimeBase (fs : F64) (n : Nat) (t : List F64) : Prop :=
  t.length = n ∧ ∀ (i : Nat) (h : i < t.length), IsQuotient (F64.ofNat i) fs t[i]

/-- `(TWO_PI * f) * t`. -/
def IsTurn (f t v : F64) : Prop := ∃ x, IsProduct F64.twoPi f x ∧ IsProduct x t v

/-- R184: `A * SIN((TWO_PI * fm) * t[i])`. -/
def IsSineMessage (a fm : F64) (t m : List F64) : Prop :=
  Pointwise (fun ti mi => ∃ v, IsTurn fm ti v ∧ IsProduct a (F64.sin v) mi) t m

/-- R185: `q - floor(q)` with `q = fm * t`; a NaN for a `q` that is not finite. -/
def IsPhase (fm t v : F64) : Prop :=
  ∃ q, IsProduct fm t q ∧ if q.isFinite then IsDifference q q.floor v else v.isNaN = true

/-- R186: `A * TRI(PHASE(fm, t)[i])`, whatever `TRI` is. -/
def IsTriangleMessage (a fm : F64) (t m : List F64) : Prop :=
  Pointwise (fun ti mi => ∃ v, IsPhase fm ti v ∧ IsProduct a (Config.tri v) mi) t m

/-- R187: `A * SGN(SIN((TWO_PI * fm) * t[i]))`, `SGN` 1.0 at and above zero and -1.0 otherwise. -/
def IsSquareMessage (a fm : F64) (t m : List F64) : Prop :=
  Pointwise (fun ti mi => ∃ v, IsTurn fm ti v ∧
    IsProduct a (if F64.ge (F64.sin v) F64.zero then F64.one else F64.negOne) mi) t m

/-- A third sequence related to two others of its length, sample by sample. -/
def Pointwise2 (rel : F64 → F64 → F64 → Prop) (t m y : List F64) : Prop :=
  ∃ (hm : m.length = t.length) (h : y.length = t.length),
    ∀ (i : Nat) (hi : i < t.length), rel t[i] (m[i]'(hm ▸ hi)) (y[i]'(h ▸ hi))

/-- R188: `(AC + m[i]) * SIN((TWO_PI * FC) * t[i])`. -/
def IsAmOffset (ac fc : F64) (t m y : List F64) : Prop :=
  Pointwise2 (fun ti mi yi => ∃ a v, IsSum ac mi a ∧ IsTurn fc ti v ∧ IsProduct a (F64.sin v) yi) t m y

/-- R191: `(1.0 + (MU * m[i])) * COS((TWO_PI * FC) * t[i])`. -/
def IsAmIndex (mu fc : F64) (t m y : List F64) : Prop :=
  Pointwise2 (fun ti mi yi => ∃ a b v, IsProduct mu mi a ∧ IsSum F64.one a b ∧ IsTurn fc ti v ∧
    IsProduct b (F64.cos v) yi) t m y

/-- R193 to R195: `COS(((TWO_PI * FC) * t[i]) + (kf * g[i]))`, `kf = (TWO_PI * BETA) * FM` and `g` the integral of the
message. -/
def IsFmSignal (fs fc fm beta : F64) (t m y : List F64) : Prop :=
  ∃ g x kf, IsIntegral fs m g ∧ IsProduct F64.twoPi beta x ∧ IsProduct x fm kf ∧
    Pointwise2 (fun ti gi yi => ∃ a b v, IsTurn fc ti a ∧ IsProduct kf gi b ∧ IsSum a b v ∧ yi = F64.cos v) t g y

/-! ## Demodulators (44_demodulators.md) -/

/-- R211: the low-pass cascade with cutoff `CMULT * FM`. -/
def IsDemodLp (fs fm cmult : F64) (order : Nat) (u y : List F64) : Prop :=
  ∃ cut a, IsProduct cmult fm cut ∧ IsAlphaLp cut fs a ∧ IsCascade (IsLowPass a) order u y

/-- R220: `half = (BETA + 1.0) * FM`, `clow = FC - half`, `chigh = FC + half`. -/
def IsCarsonPair (fc beta fm clow chigh : F64) : Prop :=
  ∃ x half, IsSum beta F64.one x ∧ IsProduct x fm half ∧ IsDifference fc half clow ∧ IsSum fc half chigh

/-- R212: half-wave, moving average primed with zeros, low-pass, then DC removal (`DCFIX` = 0) or `- 1.0`. -/
def IsAmDemod (s : State) (dcfix : Bool) (u y : List F64) : Prop :=
  ∃ h e l, IsHalfWave u h ∧ IsMovingAverage (derivedWindow (amEnvQuotient s)) false h e ∧
    IsDemodLp s.p.fs s.p.fm s.p.cmult s.k.order.toNat e l ∧
    if dcfix then IsOffset F64.one l y else IsDcRemoved (derivedWindow (amDcQuotient s)) l y

/-- R222 to R224: band-pass over the Carson pair or a proper override, (absolute) difference, moving average, DC removal
over `DCMULT` windows, low-pass. -/
def IsFmDemod (s : State) (ovr plain prime : Bool) (u y : List F64) : Prop :=
  ∃ lo hi b d e r,
    (if ovr && F64.gt s.p.high s.p.low then lo = s.p.low ∧ hi = s.p.high else IsCarsonPair s.p.fc s.p.beta s.p.fm lo hi) ∧
    IsBandPass s.p.fs lo hi s.k.bpord.toNat u b ∧
    (if plain then IsForwardDifference b d else IsAbsDifference b d) ∧
    IsMovingAverage (derivedWindow (fmEnvQuotient s)) prime d e ∧
    IsDcRemoved (s.k.dcmult.toNat * derivedWindow (fmEnvQuotient s)) e r ∧
    IsDemodLp s.p.fs s.p.fm s.p.cmult s.k.order.toNat r y

end Sys2Proof.Machine
end

