-- ==== Sys2Proof/Certificates/Slice0/Obligations.lean ====
section
/-! DEFINITION. The statements for the provers. Each docstring names the rule of the spec it formalises, or says that it
rests on a choice of the model's and names the log entry. -/

open Sys2Proof Sys2Proof.Machine

/-! ## The command word (30_encoding.md) -/

/-- R71 to R80: decoding the word of a command gives the command back, for every command and every operand. -/
def Obligations.DecodeEncodeAllCommands : Prop := ∀ i : Instr, decode (encode i) = .ok i

/-- R80, R81: the decoder is the printed table of masks and matches: a word that agrees with a row is that row's command,
a decoded word agrees with its row, and no word agrees with two rows. -/
def Obligations.DecodeIsTheMaskMatchTable : Prop :=
  ∀ w : BitVec 32,
    (∀ i : Instr, w &&& i.mask = i.pattern → ∃ j, decode w = .ok j ∧ j.pattern = i.pattern) ∧
    (∀ j : Instr, decode w = .ok j → w &&& j.mask = j.pattern) ∧
    (∀ i j : Instr, w &&& i.mask = i.pattern → w &&& j.mask = j.pattern → i.pattern = j.pattern)

/-- R71, R81: no bit of a legal word is lost: encoding the decoded command gives the word. -/
def Obligations.EncodeOfDecodedWord : Prop := ∀ (w : BitVec 32) (i : Instr), decode w = .ok i → encode i = w

/-- R86, 95 V1 to V6: the spec's worked encodings and illegal words. -/
def Obligations.WrittenOutWordsDecode : Prop :=
  decode 0x01210000 = .ok (.lowpass 2 1) ∧ decode 0x04540000 = .ok (.bandstop 5 4) ∧
  decode 0x08300001 = .ok (.mavg 3 0 true) ∧ decode 0x0A100000 = .ok (.envdetHw 1 0 false) ∧
  decode 0x15760000 = .ok (.adiff 7 6) ∧ decode 0x20201000 = .ok (.ammodSin 2 1 0) ∧
  decode 0x24F0ED00 = .ok (.fmmod 15 14 13) ∧ decode 0x30420001 = .ok (.amdemod 4 2 true) ∧
  decode 0x31980003 = .ok (.fmdemod 9 8 true true false) ∧
  ∀ w ∈ [(0x00000000 : BitVec 32), 0x01211000, 0x20211000, 0x08300002], ∃ e, decode w = .error e

/-! ## Reset and the invariant -/

/-- R45 as the host reads it: every register's value after reset, every slot empty, the capacities in the range of R6.
(That samples cannot be read then is R54.) -/
def Obligations.ResetReadsTheTableValues : Prop :=
  (∀ r : Nat, r ≤ 0x0C → State.reset.readReg r = 0) ∧
  State.reset.readReg 0x10 = 1 ∧ State.reset.readReg 0x11 = 1 ∧ State.reset.readReg 0x12 = 1 ∧
  State.reset.readReg 0x13 = 1 ∧ State.reset.readReg 0x14 = 2 ∧ State.reset.readReg 0x15 = 3 ∧
  (∀ r : Nat, 0x20 ≤ r → r ≤ 0x23 → State.reset.readReg r = 0) ∧
  (∀ d : SlotNo, State.reset.readReg (0x30 + d.val) = 0) ∧
  (State.reset.readReg 0x26).toNat = Config.maxN ∧ (State.reset.readReg 0x27).toNat = Config.maxW ∧
  State.reset.readReg 0x28 = 16 ∧
  1 ≤ Config.maxN ∧ Config.maxN < 2 ^ 32 ∧ 1 ≤ Config.maxW ∧ Config.maxW < 2 ^ 32 ∧
  ∀ (d : SlotNo) (i : Nat), hostOp (.readSample d.val i) State.reset = .refused .readBeyondLength

/-- The invariant holds at reset. Its clauses on draws (log entry 2) and on the order in which a slot lists its samples
(log entry 8) are the model's own. -/
def Obligations.ResetMeetsTheInvariant : Prop := State.reset.Inv

/-- The invariant is kept by every step from every state that meets it: legal capacities, lengths within them, canonical
slots, `FAULT` exactly when `CAUSE` is recorded, `DONE` and `CORRECTED` off with it, `CAUSE` in {0, 1, 2, 4, 5, 6}. Its
clauses on draws (log entry 2) and on the order in which a slot lists its samples (log entry 8) are the model's own. -/
def Obligations.EveryStepKeepsTheInvariant : Prop := ∀ s t : State, s.Inv → step s = .next t → t.Inv

/-! ## The issue and the frame (45_system.md) -/

/-- R62, R240: a step makes the host's next operation, whichever it is, with that operation gone from the host's list. R244,
R246: when it writes a legal word to `CMD`, the step is that command's frame, with `CMD` set. R300: with no operation to
make, nothing changes. (That the host's operations stand in the state is log entry 7.) -/
def Obligations.StepRunsTheDecodedCommand : Prop :=
  (∀ (s : State) (op : HostOp) (rest : List HostOp), s.ops = op :: rest → step s = hostOp op { s with ops := rest }) ∧
  (∀ s : State, s.ops = [] → step s = .next s) ∧
  ∀ (s : State) (v : BitVec 64) (rest : List HostOp) (i : Instr),
    s.ops = .writeReg 0x20 v :: rest → decode (issuedWord v) = .ok i →
    step s = exec i { s with ops := rest, cmd := issuedWord v }

/-- The step after `withFetchWord` runs the table's word (log entry 7: how a command reaches the block). -/
def Obligations.FetchWordStepRunsTheTableWord : Prop :=
  ∀ (s : State) (nbits w : Nat) (i : Instr), decodeTableWord nbits w = some i →
    step (s.withFetchWord nbits w) = exec i { s with cmd := tableWord nbits w }

/-- R272: while `FAULT` is 1 an issued word is not executed, legal or not: `CMD` takes it and no other state changes; and
the host's other operations work as they do without a fault. That `exec` alone refuses a command too is the model's choice
(log entry 12). -/
def Obligations.IssueIsRefusedWhileFaultIsRecorded : Prop :=
  ∀ s : State, s.status.fault = true →
    (∀ v : BitVec 64, hostOp (.writeReg 0x20 v) s = .next { s with cmd := issuedWord v }) ∧
    (∀ i : Instr, exec i s = .next s) ∧
    (∀ (r : Nat) (v : BitVec 64), r ≠ 0x20 → r ≠ 0x24 → hostOp (.writeReg r v) s = .next (s.storeReg r v)) ∧
    (∀ v : BitVec 64, hostOp (.writeReg 0x24 v) s = .next (s.control v)) ∧
    (∀ r : Nat, hostOp (.readReg r) s = .next (s.answer (s.readReg r))) ∧
    (∀ (d : SlotNo) (i : Nat) (v : F64), i < s.capN →
      hostOp (.writeSample d.val i v) s = .next { s with mem := s.mem.write d i v }) ∧
    (∀ (d : SlotNo) (i : Nat), i < s.len[d] → hostOp (.readSample d.val i) s = .next (s.answer (s.mem.read d i)))

/-- R265, R82: a word that matches no row raises `IllegalCommand` with the word in `INFO`; the zero word is one. -/
def Obligations.IllegalWordRaisesIllegalCommand : Prop :=
  (∀ (s : State) (v : BitVec 64), s.status.fault = false →
    (∀ i : Instr, issuedWord v &&& i.mask ≠ i.pattern) →
    hostOp (.writeReg 0x20 v) s =
      .next (({ s with cmd := issuedWord v } : State).faulted ⟨.illegalCommand, (issuedWord v).setWidth 64⟩)) ∧
  ∀ i : Instr, 0 &&& i.mask ≠ i.pattern

/-- R266: a command whose slots are not distinct raises `BufferAlias` with its word in `INFO`, before any other check. That
its word is `encode i` is deduced from R71 and R81 (log entry 12). -/
def Obligations.SharedSlotsRaiseBufferAlias : Prop :=
  ∀ (i : Instr) (s : State), s.status.fault = false →
    ((∃ d r, i.src? = some r ∧ i.dests = [d] ∧ d = r) ∨
      (∃ d m t, i.src? = none ∧ i.dests = [d, m, t] ∧ (d = m ∨ d = t ∨ m = t))) →
    exec i s = .next (s.faulted ⟨.bufferAlias, (encode i).setWidth 64⟩)

/-- R271: the first check of the command's list that fails, and no other, is the fault the command reports. -/
def Obligations.FirstFailingCheckIsRaised : Prop :=
  ∀ (i : Instr) (s : State) (r : Raise), s.accepts i → firstFailing (checkTable i s) = some r →
    exec i s = .next (s.faulted r)

/-- R246: a command completes whenever no fault is recorded, its slots are distinct and its checks pass, for each of the 22
commands: `DONE` 1, `FAULT` 0, only its destinations and (for the amplitude-offset forms) `MU` written. -/
def Obligations.CommandsCompleteWhenTheirChecksPass : Prop :=
  ∀ (i : Instr) (s : State), s.accepts i → checksPass i s →
    ∃ t, exec i s = .next t ∧ t.status.fault = false ∧ t.status.done = true ∧ s.SlotsKept t i.dests ∧ s.RegsKept t ∧
      t.cause = s.cause ∧ t.info = s.info ∧ (∃ v, t.p = { s.p with mu := v }) ∧ (i.writesMu = false → t.p = s.p) ∧
      ((∀ d r o p x, i ≠ .fmdemod d r o p x) → t.status.corrected = false)

/-- R270: a command, or an illegal word, that newly records a fault changes `STATUS`, `CAUSE` and `INFO` as `raise` says
and nothing else (`CMD` was written by the issue, R244). -/
def Obligations.FaultingCommandChangesNothingElse : Prop :=
  (∀ (i : Instr) (s t : State), exec i s = .next t → s.status.fault = false → t.status.fault = true →
    ∃ r : Raise, t = s.faulted r) ∧
  ∀ (s t : State) (v : BitVec 64), hostOp (.writeReg 0x20 v) s = .next t → s.status.fault = false →
    t.status.fault = true → ∃ r : Raise, t = ({ s with cmd := issuedWord v } : State).faulted r

/-- R36, R55: whatever a command answers, the slots that are not its destinations, its source among them, keep their length
and every sample. -/
def Obligations.CommandsWriteOnlyTheirDestinations : Prop :=
  ∀ (i : Instr) (s t : State), exec i s = .next t → s.SlotsKept t i.dests ∧
    (i.wf = true → ∀ r, i.src? = some r → t.source r = s.source r)

/-- R23, R192: the only register a command writes is `MU`, and only AMMOD.SIN, AMMOD.TRI and AMMOD.SQR write it, when they
complete; `K`, `CMD`, the capacities and the host's side are unchanged. -/
def Obligations.OnlyMuIsWrittenByCommands : Prop :=
  ∀ (i : Instr) (s t : State), exec i s = .next t →
    s.RegsKept t ∧ (∃ v, t.p = { s.p with mu := v }) ∧
    (i.writesMu = false ∨ s.status.fault = true ∨ t.status.fault = true → t.p = s.p)

/-- R245, R250: every command ends, in one of three ways: refused while a fault is recorded (that `exec` tests this itself is
log entry 12), at a `raise` that changes nothing else, or completed; and never otherwise. -/
def Obligations.CommandsAlwaysEnd : Prop :=
  ∀ (i : Instr) (s : State),
    (s.status.fault = true ∧ exec i s = .next s) ∨
    (s.status.fault = false ∧ ∃ r : Raise, exec i s = .next (s.faulted r)) ∨
    (s.status.fault = false ∧
      ∃ (t : State) (p : ParamRegs) (corrected : Bool), exec i s = .next t ∧ s.Completed t i.dests p corrected)

/-- R27: `FAULT` is sticky: only `CLRF`, `SRST` and the external reset clear it. -/
def Obligations.FaultIsStickyUntilAcknowledged : Prop :=
  ∀ s t : State, step s = .next t → s.status.fault = true →
    t.status.fault = true ∨
    (∃ v rest, s.ops = .writeReg 0x24 v :: rest ∧ (v.getLsbD 0 = true ∨ v.getLsbD 1 = true)) ∨
    (∃ rest, s.ops = .extReset :: rest)

/-- R260: a fault is raised by an issued command and by nothing else. -/
def Obligations.FaultsComeOnlyFromIssuedCommands : Prop :=
  ∀ s t : State, step s = .next t → s.status.fault = false → t.status.fault = true →
    ∃ v rest, s.ops = .writeReg 0x20 v :: rest

/-- R27, R224: a step that leaves `CORRECTED` set found it set, or issued FMDEMOD with `OVR` and without `HIGH > LOW`. -/
def Obligations.CorrectedComesOnlyFromFmdemod : Prop :=
  ∀ s t : State, step s = .next t → t.status.corrected = true →
    s.status.corrected = true ∨
    ∃ v rest d r plain prime, s.ops = .writeReg 0x20 v :: rest ∧
      decode (issuedWord v) = .ok (.fmdemod d r true plain prime) ∧ F64.gt s.p.high s.p.low = false

/-- R301, R45: the capacities are constants. -/
def Obligations.CapacitiesNeverChange : Prop :=
  ∀ s t : State, step s = .next t → t.capN = s.capN ∧ t.capW = s.capW

/-- R5: a command depends on its operands alone: two states that agree on the parameter and integer registers, the
capacities, the source sequence and the draws (log entry 1) get the same results, flags and faults. -/
def Obligations.ResultsDependOnOperandsAlone : Prop :=
  ∀ (i : Instr) (s s' t t' : State), s.status.fault = false → s'.status.fault = false →
    s.p = s'.p → s.k = s'.k → s.capN = s'.capN → s.capW = s'.capW → s.draws = s'.draws →
    (∀ r, i.src? = some r → s.source r = s'.source r) →
    exec i s = .next t → exec i s' = .next t' →
    t.status = t'.status ∧ t.p = t'.p ∧
    (t.status.fault = true → t.cause = t'.cause ∧ t.info = t'.info) ∧
    (t.status.done = true → ∀ d ∈ i.dests, t.len[d] = t'.len[d] ∧
      ∀ j, j < t.len[d] → t.mem.read d j = t'.mem.read d j)

/-! ## Host operations -/

/-- R53, R54, R240: the model refuses exactly the sample operations the spec gives no meaning: a slot of 16 or more, a
write at or above `MAXN`, a read at or above `LEN`. Every other host operation takes a next state. -/
def Obligations.HostOperationsRefusedExactlyOutsideTheSpaces : Prop :=
  ∀ (op : HostOp) (s : State),
    ((∃ t, hostOp op s = .next t) ↔ op.wf s.capN (fun d => s.len.toList.getD d 0) = true) ∧
    ((∃ r, hostOp op s = .refused r) ↔ op.wf s.capN (fun d => s.len.toList.getD d 0) = false)

/-- R247, R30: a write to `CTRL` with bit 0 set and bit 1 clear, whatever bits 63:2 are, clears `FAULT`, `CAUSE` and `INFO`
and changes no other state; with no fault recorded it does nothing. With both bits clear a write does nothing. (Bit 1 is
the statement SoftwareResetIsTheExternalReset.) -/
def Obligations.ClrfAcknowledges : Prop :=
  ∀ (s : State) (v : BitVec 64), v.getLsbD 1 = false →
    (v.getLsbD 0 = true →
      (∃ t, hostOp (.writeReg 0x24 v) s = .next t ∧ t.status.fault = false ∧ t.cause = 0 ∧ t.info = 0 ∧
        t.status.done = s.status.done ∧ t.status.corrected = s.status.corrected ∧
        t.p = s.p ∧ t.len = s.len ∧ t.mem = s.mem ∧ t.draws = s.draws ∧ s.RegsKept t) ∧
      (s.Inv → s.status.fault = false → hostOp (.writeReg 0x24 v) s = .next s)) ∧
    (v.getLsbD 0 = false → hostOp (.writeReg 0x24 v) s = .next s)

/-- R248, R301: a write to `CTRL` with bit 1 set has the effect of the external reset: every register at its value of R45
and every slot empty; the capacities do not change. (That what the host has still to do and what it has got stay is log
entry 7; that the external reset is a move of the host is log entry 16.) -/
def Obligations.SoftwareResetIsTheExternalReset : Prop :=
  ∀ (s : State) (v : BitVec 64), v.getLsbD 1 = true →
    ∃ t, hostOp (.writeReg 0x24 v) s = .next t ∧ hostOp .extReset s = .next t ∧
      t.p = State.reset.p ∧ t.k = State.reset.k ∧ t.cmd = 0 ∧
      t.status = { fault := false, corrected := false, done := false } ∧ t.cause = 0 ∧ t.info = 0 ∧
      (∀ d : SlotNo, t.len[d] = 0) ∧ t.capN = s.capN ∧ t.capW = s.capW ∧ t.readReg 0x28 = s.readReg 0x28 ∧
      t.ops = s.ops ∧ t.got = s.got

/-- R22, R241: a write to a parameter register stores all 64 bits, whatever they are and whatever `FAULT` is; it reads
back the same, and no other register, slot or flag changes. -/
def Obligations.ParameterWriteReadsBack : Prop :=
  ∀ (s : State) (r : Nat) (v : BitVec 64), r ≤ 0x0C →
    ∃ t, hostOp (.writeReg r v) s = .next t ∧ t.readReg r = v ∧ (∀ q, q ≠ r → t.readReg q = s.readReg q) ∧
      t.mem = s.mem ∧ t.len = s.len ∧ t.status = s.status

/-- R24, 92 D48: a write to an integer register keeps the low 32 bits, which read back zero-extended; no other register,
slot or flag changes. -/
def Obligations.CountWriteKeepsTheLow32Bits : Prop :=
  ∀ (s : State) (r : Nat) (v : BitVec 64), 0x10 ≤ r → r ≤ 0x15 →
    ∃ t, hostOp (.writeReg r v) s = .next t ∧ (t.readReg r).toNat = v.toNat % 2 ^ 32 ∧
      (∀ q, q ≠ r → t.readReg q = s.readReg q) ∧ t.mem = s.mem ∧ t.len = s.len ∧ t.status = s.status

/-- R33, R243: `LEN[d]` takes a value up to `MAXN`; a value above it is dropped; no sample, other register or flag changes.
That all 64 bits of the value are compared is deduced by the model (log entry 13). -/
def Obligations.LengthWriteIsDroppedAboveCapacity : Prop :=
  ∀ (s : State) (d : SlotNo) (v : BitVec 64),
    (v.toNat ≤ s.capN → ∃ t, hostOp (.writeReg (0x30 + d.val) v) s = .next t ∧ t.len[d] = v.toNat ∧
      (∀ e : SlotNo, e ≠ d → t.len[e] = s.len[e]) ∧ t.mem = s.mem ∧ t.p = s.p ∧ t.status = s.status ∧
      t.cause = s.cause ∧ t.info = s.info ∧ s.RegsKept t) ∧
    (s.capN < v.toNat → hostOp (.writeReg (0x30 + d.val) v) s = .next s)

/-- R26, R31, R59: a read of a reserved number gives 0, and a write to a reserved or a read-only register is dropped. R31
lets a model refuse an access to a reserved number instead; that this one does not is its choice (log entry 9). -/
def Obligations.ReservedAndReadOnlyWritesAreDropped : Prop :=
  ∀ (s : State) (r : Nat),
    ((0x0D ≤ r ∧ r ≤ 0x0F) ∨ (0x16 ≤ r ∧ r ≤ 0x1F) ∨ r = 0x25 ∨ (0x29 ≤ r ∧ r ≤ 0x2F) ∨ 0x40 ≤ r →
      s.readReg r = 0 ∧ ∀ v, hostOp (.writeReg r v) s = .next s) ∧
    (r = 0x21 ∨ r = 0x22 ∨ r = 0x23 ∨ r = 0x26 ∨ r = 0x27 ∨ r = 0x28 → ∀ v, hostOp (.writeReg r v) s = .next s)

/-- R26 to R30, R33, R59: what the system registers read as, and a read changes nothing but what the host has got (that this
list stands in the state is log entry 7). -/
def Obligations.SystemRegistersReadBack : Prop :=
  ∀ s : State, s.Inv →
    (s.readReg 0x20).toNat = s.cmd.toNat ∧
    (∀ b : Nat, (s.readReg 0x21).getLsbD b =
      (if b = 0 then s.status.fault else if b = 1 then s.status.corrected else if b = 2 then s.status.done else false)) ∧
    (s.readReg 0x22).toNat = s.cause.toNat ∧ s.readReg 0x23 = s.info ∧ s.readReg 0x24 = 0 ∧
    (s.readReg 0x26).toNat = s.capN ∧ (s.readReg 0x27).toNat = s.capW ∧ s.readReg 0x28 = 16 ∧
    (∀ d : SlotNo, (s.readReg (0x30 + d.val)).toNat = s.len[d]) ∧
    ∀ r, hostOp (.readReg r) s = .next { s with got := s.readReg r :: s.got }

/-- R53: a sample write sets that sample, whatever `LEN` is, and changes nothing else; outside the sample space it is
refused. -/
def Obligations.SampleWriteSetsOneSample : Prop :=
  (∀ (s : State) (d : SlotNo) (i : Nat) (v : F64), i < s.capN →
    ∃ t, hostOp (.writeSample d.val i v) s = .next t ∧ t.mem.read d i = v ∧
      (∀ (e : SlotNo) (j : Nat), e ≠ d ∨ j ≠ i → t.mem.read e j = s.mem.read e j) ∧ { t with mem := s.mem } = s) ∧
  ∀ (s : State) (slot i : Nat) (v : F64), 16 ≤ slot ∨ s.capN ≤ i →
    hostOp (.writeSample slot i v) s = .refused .writeOutsideSlots

/-- R54: a sample read below `LEN` gives the 64 bits stored and has no side effect on the block; at or above `LEN` it is
refused. (A sample nothing has written holds one value, whichever it is: `Memory.read`, log entry 2. That the host's side stands in
the state is log entry 7, the refusal's name log entry 10.) -/
def Obligations.SampleReadReturnsTheStoredSample : Prop :=
  ∀ (s : State) (d : SlotNo) (i : Nat),
    (i < s.len[d] → hostOp (.readSample d.val i) s = .next { s with got := s.mem.read d i :: s.got }) ∧
    (s.len[d] ≤ i → hostOp (.readSample d.val i) s = .refused .readBeyondLength)

/-! ## Arithmetic (00_scope.md) -/

/-- R8: a sum or a difference of finite values is the exact one, rounded once to nearest, ties to even. The sign of an exact
zero is IEEE 754's, presumed by the model (log entry 11): negative only when both terms are negative zeros. -/
def Obligations.AdditionRoundsOnceToNearestEven : Prop :=
  ∀ (k : DrawKey) (a b : F64), a.isFinite = true → b.isFinite = true →
    RoundsTo (a.units + b.units) 1 (F64.add k a b) ∧ RoundsTo (a.units - b.units) 1 (F64.sub k a b) ∧
    (a.units + b.units = 0 → F64.add k a b = F64.zeroOf (a.sign && b.sign))

/-- R8: a product of finite values is the exact one, rounded once to nearest, ties to even, with the sign of
IEEE 754 (presumed, log entry 11). -/
def Obligations.MultiplicationRoundsOnceToNearestEven : Prop :=
  ∀ (k : DrawKey) (a b : F64), a.isFinite = true → b.isFinite = true →
    RoundsTo (a.units * b.units) (2 ^ 1074) (F64.mul k a b) ∧ (F64.mul k a b).sign = (a.sign != b.sign)

/-- R8: a quotient of finite values, the divisor not zero, is the exact one, rounded once to nearest, ties to even, with
the sign of IEEE 754 (presumed, log entry 11). -/
def Obligations.DivisionRoundsOnceToNearestEven : Prop :=
  ∀ (k : DrawKey) (a b : F64), a.isFinite = true → b.isFinite = true → b.isZero = false →
    RoundsTo (a.units * 2 ^ 1074 * b.units.sign) b.units.natAbs (F64.div k a b) ∧
    (F64.div k a b).sign = (a.sign != b.sign)

/-- R8, R12: an operation with a NaN operand, and every invalid operation, gives a NaN, whatever the draw. That
`inf / inf` and `0 * inf` are invalid too is IEEE 754's (presumed, log entry 11). R12, R13, R150, R187: comparisons are false
with a NaN operand; finite values compare as their exact values do, so both zeros are equal (presumed, log entry 11), and
the infinities stand at the two ends. -/
def Obligations.InvalidOperationsGiveNaN : Prop :=
  (∀ (k : DrawKey) (a b : F64),
    (a.isNaN = true ∨ b.isNaN = true →
      (F64.add k a b).isNaN = true ∧ (F64.sub k a b).isNaN = true ∧ (F64.mul k a b).isNaN = true ∧
      (F64.div k a b).isNaN = true ∧ F64.gt a b = false ∧ F64.ge a b = false) ∧
    (a.isInf = true → b.isInf = true →
      (F64.div k a b).isNaN = true ∧ (a.sign = b.sign → (F64.sub k a b).isNaN = true) ∧
      (a.sign ≠ b.sign → (F64.add k a b).isNaN = true)) ∧
    (a.isZero = true → b.isZero = true → (F64.div k a b).isNaN = true) ∧
    (a.isZero = true → b.isInf = true → (F64.mul k a b).isNaN = true ∧ (F64.mul k b a).isNaN = true)) ∧
  (∀ a b : F64, a.isFinite = true → b.isFinite = true →
    (F64.gt a b = true ↔ b.units < a.units) ∧ (F64.ge a b = true ↔ b.units ≤ a.units)) ∧
  ∀ v : F64, v.isNaN = false →
    (F64.gt 0x7FF0000000000000 v = true ↔ v ≠ 0x7FF0000000000000) ∧ F64.ge 0x7FF0000000000000 v = true ∧
    F64.gt v 0x7FF0000000000000 = false ∧ (F64.ge v 0x7FF0000000000000 = true ↔ v = 0x7FF0000000000000) ∧
    (F64.gt v 0xFFF0000000000000 = true ↔ v ≠ 0xFFF0000000000000) ∧ F64.ge v 0xFFF0000000000000 = true ∧
    F64.gt 0xFFF0000000000000 v = false ∧ (F64.ge 0xFFF0000000000000 v = true ↔ v = 0xFFF0000000000000)

/-- R8: `v/0` with `v` nonzero and finite is an infinity, and infinities go through, with the signs of IEEE 754
(presumed, log entry 11). -/
def Obligations.InfinitiesKeepTheirSigns : Prop :=
  ∀ (k : DrawKey) (a b : F64),
    (a.isFinite = true → a.isZero = false → b.isZero = true → F64.div k a b = F64.infOf (a.sign != b.sign)) ∧
    (a.isInf = true → b.isFinite = true →
      F64.add k a b = a ∧ F64.add k b a = a ∧ F64.sub k a b = a ∧ F64.div k a b = F64.infOf (a.sign != b.sign) ∧
      F64.div k b a = F64.zeroOf (a.sign != b.sign) ∧
      (b.isZero = false → F64.mul k a b = F64.infOf (a.sign != b.sign) ∧ F64.mul k b a = F64.infOf (a.sign != b.sign)))

/-- R10: what the machine assumes of `EXP`, `SIN` and `COS`: the anchors, and a NaN for a NaN. -/
def Obligations.TranscendentalAnchors : Prop :=
  F64.exp 0x0000000000000000 = 0x3FF0000000000000 ∧ F64.exp 0x8000000000000000 = 0x3FF0000000000000 ∧
  F64.sin 0x0000000000000000 = 0x0000000000000000 ∧
  F64.cos 0x0000000000000000 = 0x3FF0000000000000 ∧ F64.cos 0x8000000000000000 = 0x3FF0000000000000 ∧
  F64.exp 0xFFF0000000000000 = 0x0000000000000000 ∧ F64.exp 0x7FF0000000000000 = 0x7FF0000000000000 ∧
  (∀ v : F64, v.isNaN = true →
    (F64.exp v).isNaN = true ∧ (F64.sin v).isNaN = true ∧ (F64.cos v).isNaN = true) ∧
  ∀ v : F64, v.isInf = true → (F64.sin v).isNaN = true ∧ (F64.cos v).isNaN = true

/-- R16: a derived count raises `CapacityExceeded` for a NaN, `+inf` or a floor above the capacity; is 0 for `-inf` and
below 1; and is the floor, the greatest integer not above the value, otherwise. R15: `f64(n)` is the exact value of every
count the block can hold, `+0.0` for 0 (log entry 11). R185: `floor` of a finite value as a binary64 value is that same
integer, exact, its zero `+0.0` but for `-0.0`, where the sign is free (log entry 6). -/
def Obligations.DerivedCountIsTheFloorOrAFault : Prop :=
  (∀ (v : F64) (cap : Nat) (id : BitVec 64),
    (v.isNaN = true ∨ v = 0x7FF0000000000000 → count v cap id = .error ⟨.capacityExceeded, id⟩) ∧
    (v = 0xFFF0000000000000 → count v cap id = .ok 0) ∧
    (v.isFinite = true →
      (v.floorInt * 2 ^ 1074 ≤ v.units ∧ v.units < (v.floorInt + 1) * 2 ^ 1074) ∧
      (v.floorInt < 1 → count v cap id = .ok 0) ∧
      (1 ≤ v.floorInt → (cap : Int) < v.floorInt → count v cap id = .error ⟨.capacityExceeded, id⟩) ∧
      (1 ≤ v.floorInt → v.floorInt ≤ cap → count v cap id = .ok v.floorInt.toNat))) ∧
  (∀ n : Nat, n < 2 ^ 32 →
    (F64.ofNat n).isFinite = true ∧ (F64.ofNat n).sign = false ∧ (F64.ofNat n).units = n * 2 ^ 1074) ∧
  ∀ v : F64, v.isFinite = true →
    (F64.floor v).isFinite = true ∧ (F64.floor v).units = v.floorInt * 2 ^ 1074 ∧
    (v.floorInt = 0 → F64.floor v = F64.zeroOf (v.isZero && v.sign && Config.floorOfNegZeroIsNeg))

/-! ## The stages (files 40 to 43) -/

/-- R101, R102, R104: the estimator over a sequence is the running-sum mean of the last `W` values fed, the priming value
standing before the signal: the ring evicts exactly the value fed `W` steps before. -/
def Obligations.EstimatorIsTheRunningSumMean : Prop :=
  ∀ (k : DrawKey) (u : List F64) (w : Nat) (first : Bool), 1 ≤ w → IsMovingAverage w first u (mavgF k u w first)

/-- R122: the low-pass stage. -/
def Obligations.LowPassStageFollowsItsRecursion : Prop :=
  ∀ (k : DrawKey) (alpha : F64) (u : List F64), IsLowPass alpha u (lpStage k alpha u)

/-- R124: the high-pass stage. -/
def Obligations.HighPassStageFollowsItsRecursion : Prop :=
  ∀ (k : DrawKey) (alpha : F64) (u : List F64), IsHighPass alpha u (hpStage k alpha u)

/-- R126: index 0 of a cascade of one stage or more is `+0.0`, whatever the input, and the length is the input's. -/
def Obligations.CascadesForceIndexZero : Prop :=
  ∀ (k : DrawKey) (alpha : F64) (u : List F64) (order : Nat), 1 ≤ order →
    (cascade lpStage k alpha u order).length = u.length ∧ (cascade hpStage k alpha u order).length = u.length ∧
    (u ≠ [] → (cascade lpStage k alpha u order)[0]? = some 0x0000000000000000 ∧
      (cascade hpStage k alpha u order)[0]? = some 0x0000000000000000)

/-- R154: half-wave rectification is idempotent, full-wave is `|x[i]|` and idempotent, and neither changes the length. -/
def Obligations.RectifiersAreIdempotent : Prop :=
  ∀ u : List F64, hwrF (hwrF u) = hwrF u ∧ IsFullWave u (fwrF u) ∧ fwrF (fwrF u) = fwrF u ∧
    (hwrF u).length = u.length ∧ (fwrF u).length = u.length

/-- R170: the integrator. -/
def Obligations.IntegratorIsTheRunningTotalOverFs : Prop :=
  ∀ (k : DrawKey) (u : List F64) (fs : F64), IsIntegral fs u (integF k u fs)

/-! ## What each command computes (files 40 to 44) -/

/-- R128, R129: LOWPASS and HIGHPASS complete with the cascade of their stage. -/
def Obligations.LowpassAndHighpassResults : Prop :=
  ∀ (s : State) (d r : SlotNo),
    (s.accepts (.lowpass d r) → checksPass (.lowpass d r) s →
      CompletesU (.lowpass d r) s d false fun y =>
        ∃ a, IsAlphaLp s.p.cut s.p.fs a ∧ IsCascade (IsLowPass a) s.k.order.toNat (s.source r) y) ∧
    (s.accepts (.highpass d r) → checksPass (.highpass d r) s →
      CompletesU (.highpass d r) s d false fun y =>
        ∃ a, IsAlphaHp s.p.cut s.p.fs a ∧ IsCascade (IsHighPass a) s.k.order.toNat (s.source r) y)

/-- R131, R132: BANDPASS completes with the band-passed signal, BANDSTOP with the signal minus it. -/
def Obligations.BandpassAndBandstopResults : Prop :=
  ∀ (s : State) (d r : SlotNo),
    (s.accepts (.bandpass d r) → checksPass (.bandpass d r) s →
      CompletesU (.bandpass d r) s d false fun y =>
        IsBandPass s.p.fs s.p.low s.p.high s.k.order.toNat (s.source r) y) ∧
    (s.accepts (.bandstop d r) → checksPass (.bandstop d r) s →
      CompletesU (.bandstop d r) s d false fun y =>
        ∃ b, IsBandPass s.p.fs s.p.low s.p.high s.k.order.toNat (s.source r) b ∧
          Pointwise2 IsDifference (s.source r) b y)

/-- R105 to R108: MAVG and the three envelope detectors complete with the moving average of the raw, half-wave or full-wave
rectified source. -/
def Obligations.EstimatorCommandResults : Prop :=
  ∀ (s : State) (d r : SlotNo) (prime : Bool),
    (s.accepts (.mavg d r prime) → checksPass (.mavg d r prime) s →
      CompletesU (.mavg d r prime) s d false (IsMovingAverage s.k.win.toNat prime (s.source r))) ∧
    (s.accepts (.envdetRaw d r prime) → checksPass (.envdetRaw d r prime) s →
      CompletesU (.envdetRaw d r prime) s d false (IsMovingAverage s.k.win.toNat prime (s.source r))) ∧
    (s.accepts (.envdetHw d r prime) → checksPass (.envdetHw d r prime) s →
      CompletesU (.envdetHw d r prime) s d false fun y =>
        ∃ h, IsHalfWave (s.source r) h ∧ IsMovingAverage s.k.win.toNat prime h y) ∧
    (s.accepts (.envdetFw d r prime) → checksPass (.envdetFw d r prime) s →
      CompletesU (.envdetFw d r prime) s d false fun y =>
        ∃ g, IsFullWave (s.source r) g ∧ IsMovingAverage s.k.win.toNat prime g y)

/-- R151, R153: HWR and FWR complete, with no check of their own, with the rectified source. -/
def Obligations.RectifierCommandResults : Prop :=
  ∀ (s : State) (d r : SlotNo), s.status.fault = false → d ≠ r →
    CompletesU (.hwr d r) s d false (IsHalfWave (s.source r)) ∧
    CompletesU (.fwr d r) s d false (IsFullWave (s.source r))

/-- R156, R159: DCREM completes with the source minus its running mean, DCOFF with the source minus `CONST`. -/
def Obligations.DcRemoverCommandResults : Prop :=
  ∀ (s : State) (d r : SlotNo),
    (s.accepts (.dcrem d r) → checksPass (.dcrem d r) s →
      CompletesU (.dcrem d r) s d false (IsDcRemoved s.k.dcwin.toNat (s.source r))) ∧
    (s.status.fault = false → d ≠ r → CompletesU (.dcoff d r) s d false (IsOffset s.p.const (s.source r)))

/-- R162, R165: DIFF and ADIFF complete, with no check of their own, with the forward difference, one sample shorter, and
its absolute value. -/
def Obligations.DifferentiatorCommandResults : Prop :=
  ∀ (s : State) (d r : SlotNo), s.status.fault = false → d ≠ r →
    CompletesU (.diff d r) s d false (IsForwardDifference (s.source r)) ∧
    CompletesU (.adiff d r) s d false (IsAbsDifference (s.source r))

/-- R172: INTEG completes for `FS > 0` with the running total over `FS`. -/
def Obligations.IntegCommandResult : Prop :=
  ∀ (s : State) (d r : SlotNo), s.accepts (.integ d r) → F64.gt s.p.fs F64.zero = true →
    CompletesU (.integ d r) s d false (IsIntegral s.p.fs (s.source r))

/-- R188 to R190, R192: the amplitude-offset synthesizers complete with `N` samples of time base, message and modulated
signal, and `MU` becomes `AM / AC`. AMMOD.TRI for whatever `TRI` is (log entry 4) and whatever sign
`floor(-0.0)` has (log entry 6). -/
def Obligations.AmOffsetCommandResults : Prop :=
  ∀ (s : State) (d m t : SlotNo),
    let shape (msg : List F64 → List F64 → Prop) (tb mm y : List F64) (p : ParamRegs) : Prop :=
      IsTimeBase s.p.fs (derivedLength (synthProduct s)) tb ∧ msg tb mm ∧ IsAmOffset s.p.ac s.p.fc tb mm y ∧
        ∃ mu, IsQuotient s.p.am s.p.ac mu ∧ p = { s.p with mu := mu }
    (s.accepts (.ammodSin d m t) → checksPass (.ammodSin d m t) s →
      CompletesG (.ammodSin d m t) s d m t (shape (IsSineMessage s.p.am s.p.fm))) ∧
    (s.accepts (.ammodTri d m t) → checksPass (.ammodTri d m t) s →
      CompletesG (.ammodTri d m t) s d m t (shape (IsTriangleMessage s.p.am s.p.fm))) ∧
    (s.accepts (.ammodSqr d m t) → checksPass (.ammodSqr d m t) s →
      CompletesG (.ammodSqr d m t) s d m t (shape (IsSquareMessage s.p.am s.p.fm)))

/-- R191: AMMOD.IDX completes with the unit sine message and the index form; `MU` is not written. -/
def Obligations.AmIndexCommandResult : Prop :=
  ∀ (s : State) (d m t : SlotNo), s.accepts (.ammodIdx d m t) → checksPass (.ammodIdx d m t) s →
    CompletesG (.ammodIdx d m t) s d m t fun tb mm y p =>
      IsTimeBase s.p.fs (derivedLength (synthProduct s)) tb ∧ IsSineMessage F64.one s.p.fm tb mm ∧
        IsAmIndex s.p.mu s.p.fc tb mm y ∧ p = s.p

/-- R193 to R196: FMMOD completes with the unit sine message and the cosine of the discrete phase; `MU` is not written. -/
def Obligations.FmmodCommandResult : Prop :=
  ∀ (s : State) (d m t : SlotNo), s.accepts (.fmmod d m t) → checksPass (.fmmod d m t) s →
    CompletesG (.fmmod d m t) s d m t fun tb mm y p =>
      IsTimeBase s.p.fs (derivedLength (synthProduct s)) tb ∧ IsSineMessage F64.one s.p.fm tb mm ∧
        IsFmSignal s.p.fs s.p.fc s.p.fm s.p.beta tb mm y ∧ p = s.p

/-- R212: AMDEMOD completes with its four stages in series, in both variants. -/
def Obligations.AmdemodCommandResult : Prop :=
  ∀ (s : State) (d r : SlotNo) (dcfix : Bool), s.accepts (.amdemod d r dcfix) → checksPass (.amdemod d r dcfix) s →
    CompletesU (.amdemod d r dcfix) s d false (IsAmDemod s dcfix (s.source r))

/-- R222 to R224: FMDEMOD completes with its five stages in series, in every variant, and `CORRECTED` says whether a
degenerate override was replaced by the Carson pair. -/
def Obligations.FmdemodCommandResult : Prop :=
  ∀ (s : State) (d r : SlotNo) (ovr plain prime : Bool),
    s.accepts (.fmdemod d r ovr plain prime) → checksPass (.fmdemod d r ovr plain prime) s →
    CompletesU (.fmdemod d r ovr plain prime) s d (ovr && !F64.gt s.p.high s.p.low)
      (IsFmDemod s ovr plain prime (s.source r))

/-- R226, R222: FMDEMOD's result is one sample shorter than its source, and starts with `+0.0`. -/
def Obligations.FmdemodStartsAtZeroOneShorter : Prop :=
  ∀ (s : State) (d r : SlotNo) (ovr plain prime : Bool),
    s.accepts (.fmdemod d r ovr plain prime) → checksPass (.fmdemod d r ovr plain prime) s →
    ∃ t, exec (.fmdemod d r ovr plain prime) s = .next t ∧ t.len[d] = s.len[r] - 1 ∧
      (2 ≤ s.len[r] → t.mem.read d 0 = 0x0000000000000000)

/-- R217: AMDEMOD's first sample is `+0.0`, or `-1.0` with `DCFIX`; the length is the source's. -/
def Obligations.AmdemodFirstSample : Prop :=
  ∀ (s : State) (d r : SlotNo) (dcfix : Bool), s.Inv → s.accepts (.amdemod d r dcfix) →
    checksPass (.amdemod d r dcfix) s →
    ∃ t, exec (.amdemod d r dcfix) s = .next t ∧ t.len[d] = s.len[r] ∧
      (1 ≤ s.len[r] → t.mem.read d 0 = if dcfix then 0xBFF0000000000000 else 0x0000000000000000)
end

