-- ==== Sys2Proof/Laws/Memory.lean ====
section
/-! SUPPORT. The sample space: a read after a write, and the canonical form every operation keeps. -/

namespace Sys2Proof.Machine

/-! ## Cell lists -/

theorem lookupCell_insertCell_same (i : Nat) (v : F64) (cells : List Cell) :
    lookupCell (insertCell i v cells) i = some v := by
  induction cells with
  | nil => simp [insertCell, lookupCell]
  | cons c rest ih =>
    obtain ⟨j, u⟩ := c
    unfold insertCell
    split
    · simp [lookupCell]
    · split
      · simp [lookupCell]
      · rw [lookupCell, if_neg (by omega)]; exact ih

theorem lookupCell_insertCell_other {i j : Nat} (h : j ≠ i) (v : F64) (cells : List Cell) :
    lookupCell (insertCell i v cells) j = lookupCell cells j := by
  induction cells with
  | nil => simp [insertCell, lookupCell, h.symm]
  | cons c rest ih =>
    obtain ⟨k, u⟩ := c
    unfold insertCell
    split
    · simp [lookupCell, h.symm]
    · split
      · subst_vars; simp [lookupCell, h.symm]
      · simp [lookupCell, ih]

theorem risingFrom_mono {lo lo' : Nat} (h : lo ≤ lo') {cells : List Cell} (hr : risingFrom lo' cells = true) :
    risingFrom lo cells = true := by
  cases cells with
  | nil => rfl
  | cons c rest =>
    obtain ⟨j, u⟩ := c
    simp only [risingFrom, Bool.and_eq_true, decide_eq_true_eq] at hr ⊢
    exact ⟨by omega, hr.2⟩

theorem risingFrom_insertCell {lo i : Nat} (v : F64) (hi : lo ≤ i) {cells : List Cell}
    (hr : risingFrom lo cells = true) : risingFrom lo (insertCell i v cells) = true := by
  induction cells generalizing lo with
  | nil => simp [insertCell, risingFrom, hi]
  | cons c rest ih =>
    obtain ⟨j, u⟩ := c
    simp only [risingFrom, Bool.and_eq_true, decide_eq_true_eq] at hr
    unfold insertCell
    split
    · simp only [risingFrom, Bool.and_eq_true, decide_eq_true_eq]
      exact ⟨hi, by omega, hr.2⟩
    · split
      · subst_vars; simp only [risingFrom, Bool.and_eq_true, decide_eq_true_eq]; exact hr
      · simp only [risingFrom, Bool.and_eq_true, decide_eq_true_eq]
        exact ⟨hr.1, ih (by omega) hr.2⟩

theorem cellsBelow_insertCell {n i : Nat} (v : F64) (hi : i < n) {cells : List Cell}
    (hb : cellsBelow n cells = true) : cellsBelow n (insertCell i v cells) = true := by
  induction cells with
  | nil => simp [insertCell, cellsBelow, hi]
  | cons c rest ih =>
    obtain ⟨j, u⟩ := c
    simp only [cellsBelow, List.all_cons, Bool.and_eq_true, decide_eq_true_eq] at hb ih
    unfold insertCell
    split
    · simp only [cellsBelow, List.all_cons, Bool.and_eq_true, decide_eq_true_eq]; exact ⟨hi, hb⟩
    · split
      · simp only [cellsBelow, List.all_cons, Bool.and_eq_true, decide_eq_true_eq]; exact ⟨hi, hb.2⟩
      · simp only [cellsBelow, List.all_cons, Bool.and_eq_true, decide_eq_true_eq]; exact ⟨hb.1, ih hb.2⟩

theorem lookupCell_cellsFrom (i : Nat) (y : List F64) (j : Nat) :
    lookupCell (cellsFrom i y) (i + j) = y[j]? := by
  induction y generalizing i j with
  | nil => simp [cellsFrom, lookupCell]
  | cons v rest ih =>
    cases j with
    | zero => simp [cellsFrom, lookupCell]
    | succ j =>
      have h := ih (i + 1) j
      rw [show i + 1 + j = i + (j + 1) by omega] at h
      simp [cellsFrom, lookupCell, h]

theorem risingFrom_cellsFrom (i : Nat) (y : List F64) : risingFrom i (cellsFrom i y) = true := by
  induction y generalizing i with
  | nil => rfl
  | cons v rest ih => simp [cellsFrom, risingFrom, ih]

theorem cellsBelow_cellsFrom {n i : Nat} {y : List F64} (h : i + y.length ≤ n) :
    cellsBelow n (cellsFrom i y) = true := by
  induction y generalizing i with
  | nil => rfl
  | cons v rest ih =>
    simp only [List.length_cons] at h
    have h2 : cellsBelow n (cellsFrom (i + 1) rest) = true := ih (by omega)
    simp only [cellsBelow] at h2
    simp only [cellsFrom, cellsBelow, List.all_cons, Bool.and_eq_true, decide_eq_true_eq]
    exact ⟨by omega, h2⟩

/-! ## Reading what was written (R53, R55) -/

theorem Memory.read_write_same (m : Memory) (d : SlotNo) (i : Nat) (v : F64) : (m.write d i v).read d i = v := by
  simp [Memory.read, Memory.write, lookupCell_insertCell_same]

theorem Memory.read_write_other_index (m : Memory) (d : SlotNo) {i j : Nat} (h : j ≠ i) (v : F64) :
    (m.write d i v).read d j = m.read d j := by
  simp [Memory.read, Memory.write, lookupCell_insertCell_other h]

theorem Memory.slots_write_other (m : Memory) {d e : SlotNo} (h : e ≠ d) (i : Nat) (v : F64) :
    (m.write d i v).slots[e] = m.slots[e] := by
  have h' : d.val ≠ e.val := fun hh => h (Fin.ext hh.symm)
  simp [Memory.write, Vector.getElem_set_ne, h']

theorem Memory.slots_replace_other (m : Memory) {d e : SlotNo} (h : e ≠ d) (y : List F64) (n : Nat) :
    (m.replace d y n).slots[e] = m.slots[e] := by
  have h' : d.val ≠ e.val := fun hh => h (Fin.ext hh.symm)
  simp [Memory.replace, Vector.getElem_set_ne, h']

theorem Memory.slots_replace_same (m : Memory) (d : SlotNo) (y : List F64) (n : Nat) :
    (m.replace d y n).slots[d] = { written := cellsFrom 0 y, epoch := n } := by
  simp [Memory.replace]

theorem Memory.read_congr {m m' : Memory} {d : SlotNo} (h : m.slots[d] = m'.slots[d]) (i : Nat) :
    m.read d i = m'.read d i := by
  simp only [Memory.read, h]

theorem Memory.read_write_other_slot (m : Memory) {d e : SlotNo} (h : e ≠ d) (i j : Nat) (v : F64) :
    (m.write d i v).read e j = m.read e j :=
  Memory.read_congr (Memory.slots_write_other m h i v) j

theorem Memory.read_replace_other (m : Memory) {d e : SlotNo} (h : e ≠ d) (y : List F64) (n j : Nat) :
    (m.replace d y n).read e j = m.read e j :=
  Memory.read_congr (Memory.slots_replace_other m h y n) j

theorem Memory.read_replace_same (m : Memory) (d : SlotNo) (y : List F64) (n : Nat) {i : Nat} (h : i < y.length) :
    (m.replace d y n).read d i = y[i] := by
  have hl := lookupCell_cellsFrom 0 y i
  rw [Nat.zero_add] at hl
  simp only [Memory.read, Memory.slots_replace_same, hl, List.getElem?_eq_getElem h, Option.getD_some]

theorem Memory.samples_length (m : Memory) (d : SlotNo) (n : Nat) : (m.samples d n).length = n := by
  simp [Memory.samples]

theorem Memory.samples_getElem (m : Memory) (d : SlotNo) (n : Nat) {i : Nat} (h : i < (m.samples d n).length) :
    (m.samples d n)[i] = m.read d i := by
  simp [Memory.samples]

/-! ## The canonical form -/

theorem Memory.wf_iff (m : Memory) : m.wf = true ↔ ∀ d : SlotNo, risingFrom 0 m.slots[d].written = true := by
  unfold Memory.wf
  rw [List.all_eq_true]
  constructor
  · intro h d
    exact h _ (by simp [Vector.getElem_mem])
  · intro h t ht
    obtain ⟨i, hi, rfl⟩ := Vector.mem_iff_getElem.mp (Vector.mem_toList_iff.mp ht)
    exact h ⟨i, hi⟩

theorem Memory.wf_write {m : Memory} (h : m.wf = true) (d : SlotNo) (i : Nat) (v : F64) : (m.write d i v).wf = true := by
  rw [Memory.wf_iff] at h ⊢
  intro e
  by_cases he : e = d
  · subst he; simpa [Memory.write] using risingFrom_insertCell v (Nat.zero_le i) (h e)
  · rw [Memory.slots_write_other m he]; exact h e

theorem Memory.wf_replace {m : Memory} (h : m.wf = true) (d : SlotNo) (y : List F64) (n : Nat) :
    (m.replace d y n).wf = true := by
  rw [Memory.wf_iff] at h ⊢
  intro e
  by_cases he : e = d
  · subst he; rw [Memory.slots_replace_same]; exact risingFrom_cellsFrom 0 y
  · rw [Memory.slots_replace_other m he]; exact h e

theorem Memory.slots_unspecified (n : Nat) (d : SlotNo) :
    (Memory.unspecified n).slots[d] = { written := [], epoch := n } := by
  simp [Memory.unspecified]

theorem Memory.wf_unspecified (n : Nat) : (Memory.unspecified n).wf = true := by
  rw [Memory.wf_iff]; intro d; rw [Memory.slots_unspecified]; rfl

theorem State.reset_mem_wf : State.reset.mem.wf = true := Memory.wf_unspecified 0

end Sys2Proof.Machine
end

