-- ==== Sys2Proof/Laws/State.lean ====
section
/-! SUPPORT. What each update of the state does to each field, all by `rfl`. -/

namespace Sys2Proof.Machine

@[simp] theorem State.accept_p (s : State) : s.accept.p = s.p := rfl
@[simp] theorem State.accept_k (s : State) : s.accept.k = s.k := rfl
@[simp] theorem State.accept_cmd (s : State) : s.accept.cmd = s.cmd := rfl
@[simp] theorem State.accept_status (s : State) : s.accept.status = { s.status with corrected := false, done := false } := rfl
@[simp] theorem State.accept_cause (s : State) : s.accept.cause = s.cause := rfl
@[simp] theorem State.accept_info (s : State) : s.accept.info = s.info := rfl
@[simp] theorem State.accept_len (s : State) : s.accept.len = s.len := rfl
@[simp] theorem State.accept_mem (s : State) : s.accept.mem = s.mem := rfl
@[simp] theorem State.accept_capN (s : State) : s.accept.capN = s.capN := rfl
@[simp] theorem State.accept_capW (s : State) : s.accept.capW = s.capW := rfl
@[simp] theorem State.accept_draws (s : State) : s.accept.draws = s.draws := rfl
@[simp] theorem State.accept_ops (s : State) : s.accept.ops = s.ops := rfl
@[simp] theorem State.accept_got (s : State) : s.accept.got = s.got := rfl

@[simp] theorem State.raise_p (s : State) (r : Raise) : (s.raise r).p = s.p := rfl
@[simp] theorem State.raise_k (s : State) (r : Raise) : (s.raise r).k = s.k := rfl
@[simp] theorem State.raise_cmd (s : State) (r : Raise) : (s.raise r).cmd = s.cmd := rfl
@[simp] theorem State.raise_status (s : State) (r : Raise) : (s.raise r).status = { fault := true, corrected := false, done := false } := rfl
@[simp] theorem State.raise_cause (s : State) (r : Raise) : (s.raise r).cause = r.cls.code := rfl
@[simp] theorem State.raise_info (s : State) (r : Raise) : (s.raise r).info = r.info := rfl
@[simp] theorem State.raise_len (s : State) (r : Raise) : (s.raise r).len = s.len := rfl
@[simp] theorem State.raise_mem (s : State) (r : Raise) : (s.raise r).mem = s.mem := rfl
@[simp] theorem State.raise_capN (s : State) (r : Raise) : (s.raise r).capN = s.capN := rfl
@[simp] theorem State.raise_capW (s : State) (r : Raise) : (s.raise r).capW = s.capW := rfl
@[simp] theorem State.raise_draws (s : State) (r : Raise) : (s.raise r).draws = s.draws := rfl
@[simp] theorem State.raise_ops (s : State) (r : Raise) : (s.raise r).ops = s.ops := rfl
@[simp] theorem State.raise_got (s : State) (r : Raise) : (s.raise r).got = s.got := rfl

@[simp] theorem State.acknowledge_p (s : State) : s.acknowledge.p = s.p := rfl
@[simp] theorem State.acknowledge_k (s : State) : s.acknowledge.k = s.k := rfl
@[simp] theorem State.acknowledge_cmd (s : State) : s.acknowledge.cmd = s.cmd := rfl
@[simp] theorem State.acknowledge_status (s : State) : s.acknowledge.status = { s.status with fault := false } := rfl
@[simp] theorem State.acknowledge_cause (s : State) : s.acknowledge.cause = 0 := rfl
@[simp] theorem State.acknowledge_info (s : State) : s.acknowledge.info = 0 := rfl
@[simp] theorem State.acknowledge_len (s : State) : s.acknowledge.len = s.len := rfl
@[simp] theorem State.acknowledge_mem (s : State) : s.acknowledge.mem = s.mem := rfl
@[simp] theorem State.acknowledge_capN (s : State) : s.acknowledge.capN = s.capN := rfl
@[simp] theorem State.acknowledge_capW (s : State) : s.acknowledge.capW = s.capW := rfl
@[simp] theorem State.acknowledge_draws (s : State) : s.acknowledge.draws = s.draws := rfl
@[simp] theorem State.acknowledge_ops (s : State) : s.acknowledge.ops = s.ops := rfl
@[simp] theorem State.acknowledge_got (s : State) : s.acknowledge.got = s.got := rfl

@[simp] theorem State.setCorrected_p (s : State) (b : Bool) : (s.setCorrected b).p = s.p := rfl
@[simp] theorem State.setCorrected_k (s : State) (b : Bool) : (s.setCorrected b).k = s.k := rfl
@[simp] theorem State.setCorrected_cmd (s : State) (b : Bool) : (s.setCorrected b).cmd = s.cmd := rfl
@[simp] theorem State.setCorrected_status (s : State) (b : Bool) : (s.setCorrected b).status = { s.status with corrected := b } := rfl
@[simp] theorem State.setCorrected_cause (s : State) (b : Bool) : (s.setCorrected b).cause = s.cause := rfl
@[simp] theorem State.setCorrected_info (s : State) (b : Bool) : (s.setCorrected b).info = s.info := rfl
@[simp] theorem State.setCorrected_len (s : State) (b : Bool) : (s.setCorrected b).len = s.len := rfl
@[simp] theorem State.setCorrected_mem (s : State) (b : Bool) : (s.setCorrected b).mem = s.mem := rfl
@[simp] theorem State.setCorrected_capN (s : State) (b : Bool) : (s.setCorrected b).capN = s.capN := rfl
@[simp] theorem State.setCorrected_capW (s : State) (b : Bool) : (s.setCorrected b).capW = s.capW := rfl
@[simp] theorem State.setCorrected_draws (s : State) (b : Bool) : (s.setCorrected b).draws = s.draws := rfl
@[simp] theorem State.setCorrected_ops (s : State) (b : Bool) : (s.setCorrected b).ops = s.ops := rfl
@[simp] theorem State.setCorrected_got (s : State) (b : Bool) : (s.setCorrected b).got = s.got := rfl

@[simp] theorem State.complete_p (s : State) : s.complete.p = s.p := rfl
@[simp] theorem State.complete_k (s : State) : s.complete.k = s.k := rfl
@[simp] theorem State.complete_cmd (s : State) : s.complete.cmd = s.cmd := rfl
@[simp] theorem State.complete_status (s : State) : s.complete.status = { s.status with done := true } := rfl
@[simp] theorem State.complete_cause (s : State) : s.complete.cause = s.cause := rfl
@[simp] theorem State.complete_info (s : State) : s.complete.info = s.info := rfl
@[simp] theorem State.complete_len (s : State) : s.complete.len = s.len := rfl
@[simp] theorem State.complete_mem (s : State) : s.complete.mem = s.mem := rfl
@[simp] theorem State.complete_capN (s : State) : s.complete.capN = s.capN := rfl
@[simp] theorem State.complete_capW (s : State) : s.complete.capW = s.capW := rfl
@[simp] theorem State.complete_draws (s : State) : s.complete.draws = s.draws + 1 := rfl
@[simp] theorem State.complete_ops (s : State) : s.complete.ops = s.ops := rfl
@[simp] theorem State.complete_got (s : State) : s.complete.got = s.got := rfl

@[simp] theorem State.writeSlot_p (s : State) (d : SlotNo) (y : List F64) : (s.writeSlot d y).p = s.p := rfl
@[simp] theorem State.writeSlot_k (s : State) (d : SlotNo) (y : List F64) : (s.writeSlot d y).k = s.k := rfl
@[simp] theorem State.writeSlot_cmd (s : State) (d : SlotNo) (y : List F64) : (s.writeSlot d y).cmd = s.cmd := rfl
@[simp] theorem State.writeSlot_status (s : State) (d : SlotNo) (y : List F64) : (s.writeSlot d y).status = s.status := rfl
@[simp] theorem State.writeSlot_cause (s : State) (d : SlotNo) (y : List F64) : (s.writeSlot d y).cause = s.cause := rfl
@[simp] theorem State.writeSlot_info (s : State) (d : SlotNo) (y : List F64) : (s.writeSlot d y).info = s.info := rfl
@[simp] theorem State.writeSlot_len (s : State) (d : SlotNo) (y : List F64) : (s.writeSlot d y).len = s.len.set d y.length := rfl
@[simp] theorem State.writeSlot_mem (s : State) (d : SlotNo) (y : List F64) : (s.writeSlot d y).mem = s.mem.replace d y s.draws := rfl
@[simp] theorem State.writeSlot_capN (s : State) (d : SlotNo) (y : List F64) : (s.writeSlot d y).capN = s.capN := rfl
@[simp] theorem State.writeSlot_capW (s : State) (d : SlotNo) (y : List F64) : (s.writeSlot d y).capW = s.capW := rfl
@[simp] theorem State.writeSlot_draws (s : State) (d : SlotNo) (y : List F64) : (s.writeSlot d y).draws = s.draws := rfl
@[simp] theorem State.writeSlot_ops (s : State) (d : SlotNo) (y : List F64) : (s.writeSlot d y).ops = s.ops := rfl
@[simp] theorem State.writeSlot_got (s : State) (d : SlotNo) (y : List F64) : (s.writeSlot d y).got = s.got := rfl

@[simp] theorem State.setMu_p (s : State) (v : F64) : (s.setMu v).p = { s.p with mu := v } := rfl
@[simp] theorem State.setMu_k (s : State) (v : F64) : (s.setMu v).k = s.k := rfl
@[simp] theorem State.setMu_cmd (s : State) (v : F64) : (s.setMu v).cmd = s.cmd := rfl
@[simp] theorem State.setMu_status (s : State) (v : F64) : (s.setMu v).status = s.status := rfl
@[simp] theorem State.setMu_cause (s : State) (v : F64) : (s.setMu v).cause = s.cause := rfl
@[simp] theorem State.setMu_info (s : State) (v : F64) : (s.setMu v).info = s.info := rfl
@[simp] theorem State.setMu_len (s : State) (v : F64) : (s.setMu v).len = s.len := rfl
@[simp] theorem State.setMu_mem (s : State) (v : F64) : (s.setMu v).mem = s.mem := rfl
@[simp] theorem State.setMu_capN (s : State) (v : F64) : (s.setMu v).capN = s.capN := rfl
@[simp] theorem State.setMu_capW (s : State) (v : F64) : (s.setMu v).capW = s.capW := rfl
@[simp] theorem State.setMu_draws (s : State) (v : F64) : (s.setMu v).draws = s.draws := rfl
@[simp] theorem State.setMu_ops (s : State) (v : F64) : (s.setMu v).ops = s.ops := rfl
@[simp] theorem State.setMu_got (s : State) (v : F64) : (s.setMu v).got = s.got := rfl

@[simp] theorem State.answer_p (s : State) (v : BitVec 64) : (s.answer v).p = s.p := rfl
@[simp] theorem State.answer_k (s : State) (v : BitVec 64) : (s.answer v).k = s.k := rfl
@[simp] theorem State.answer_cmd (s : State) (v : BitVec 64) : (s.answer v).cmd = s.cmd := rfl
@[simp] theorem State.answer_status (s : State) (v : BitVec 64) : (s.answer v).status = s.status := rfl
@[simp] theorem State.answer_cause (s : State) (v : BitVec 64) : (s.answer v).cause = s.cause := rfl
@[simp] theorem State.answer_info (s : State) (v : BitVec 64) : (s.answer v).info = s.info := rfl
@[simp] theorem State.answer_len (s : State) (v : BitVec 64) : (s.answer v).len = s.len := rfl
@[simp] theorem State.answer_mem (s : State) (v : BitVec 64) : (s.answer v).mem = s.mem := rfl
@[simp] theorem State.answer_capN (s : State) (v : BitVec 64) : (s.answer v).capN = s.capN := rfl
@[simp] theorem State.answer_capW (s : State) (v : BitVec 64) : (s.answer v).capW = s.capW := rfl
@[simp] theorem State.answer_draws (s : State) (v : BitVec 64) : (s.answer v).draws = s.draws := rfl
@[simp] theorem State.answer_ops (s : State) (v : BitVec 64) : (s.answer v).ops = s.ops := rfl
@[simp] theorem State.answer_got (s : State) (v : BitVec 64) : (s.answer v).got = v :: s.got := rfl

@[simp] theorem State.issueNext_p (s : State) (w : BitVec 32) : (s.issueNext w).p = s.p := rfl
@[simp] theorem State.issueNext_k (s : State) (w : BitVec 32) : (s.issueNext w).k = s.k := rfl
@[simp] theorem State.issueNext_cmd (s : State) (w : BitVec 32) : (s.issueNext w).cmd = s.cmd := rfl
@[simp] theorem State.issueNext_status (s : State) (w : BitVec 32) : (s.issueNext w).status = s.status := rfl
@[simp] theorem State.issueNext_cause (s : State) (w : BitVec 32) : (s.issueNext w).cause = s.cause := rfl
@[simp] theorem State.issueNext_info (s : State) (w : BitVec 32) : (s.issueNext w).info = s.info := rfl
@[simp] theorem State.issueNext_len (s : State) (w : BitVec 32) : (s.issueNext w).len = s.len := rfl
@[simp] theorem State.issueNext_mem (s : State) (w : BitVec 32) : (s.issueNext w).mem = s.mem := rfl
@[simp] theorem State.issueNext_capN (s : State) (w : BitVec 32) : (s.issueNext w).capN = s.capN := rfl
@[simp] theorem State.issueNext_capW (s : State) (w : BitVec 32) : (s.issueNext w).capW = s.capW := rfl
@[simp] theorem State.issueNext_draws (s : State) (w : BitVec 32) : (s.issueNext w).draws = s.draws := rfl
@[simp] theorem State.issueNext_ops (s : State) (w : BitVec 32) : (s.issueNext w).ops = .writeReg 0x20 (w.setWidth 64) :: s.ops := rfl
@[simp] theorem State.issueNext_got (s : State) (w : BitVec 32) : (s.issueNext w).got = s.got := rfl

@[simp] theorem State.resetBlock_p (s : State) : s.resetBlock.p = State.reset.p := rfl
@[simp] theorem State.resetBlock_k (s : State) : s.resetBlock.k = State.reset.k := rfl
@[simp] theorem State.resetBlock_cmd (s : State) : s.resetBlock.cmd = 0 := rfl
@[simp] theorem State.resetBlock_status (s : State) : s.resetBlock.status = { fault := false, corrected := false, done := false } := rfl
@[simp] theorem State.resetBlock_cause (s : State) : s.resetBlock.cause = 0 := rfl
@[simp] theorem State.resetBlock_info (s : State) : s.resetBlock.info = 0 := rfl
@[simp] theorem State.resetBlock_len (s : State) : s.resetBlock.len = Vector.replicate 16 0 := rfl
@[simp] theorem State.resetBlock_mem (s : State) : s.resetBlock.mem = Memory.unspecified s.draws := rfl
@[simp] theorem State.resetBlock_capN (s : State) : s.resetBlock.capN = s.capN := rfl
@[simp] theorem State.resetBlock_capW (s : State) : s.resetBlock.capW = s.capW := rfl
@[simp] theorem State.resetBlock_draws (s : State) : s.resetBlock.draws = s.draws + 1 := rfl
@[simp] theorem State.resetBlock_ops (s : State) : s.resetBlock.ops = s.ops := rfl
@[simp] theorem State.resetBlock_got (s : State) : s.resetBlock.got = s.got := rfl

end Sys2Proof.Machine
end

