-- ==== Sys2Proof/Laws/Frame.lean ====
section
/-! SUPPORT. The command frame (45_system.md R246): what it does in each of its four cases, and that these are all. -/

namespace Sys2Proof.Machine

variable {α : Type} {i : Instr} {checks : State → Except Raise α} {effect : α → State → State} {s t : State}

/-- R246 step 1, R272. -/
theorem frame_refused (hf : s.status.fault = true) : frame i checks effect s = .next s := by simp [frame, hf]

/-- R246 step 4, R266. -/
theorem frame_alias (hf : s.status.fault = false) (hw : i.wf = false) :
    frame i checks effect s = .next (s.accept.raise { cls := .bufferAlias, info := (encode i).setWidth 64 }) := by
  simp [frame, hf, hw]

/-- R246 step 6. -/
theorem frame_check_fails (hf : s.status.fault = false) (hw : i.wf = true) {r : Raise}
    (hc : checks s.accept = .error r) : frame i checks effect s = .next (s.accept.raise r) := by
  simp [frame, hf, hw, hc]

/-- R246 steps 7 to 9. -/
theorem frame_completes (hf : s.status.fault = false) (hw : i.wf = true) {x : α} (hc : checks s.accept = .ok x) :
    frame i checks effect s = .next (effect x s.accept).complete := by
  simp [frame, hf, hw, hc]

/-- Everything the frame can answer. -/
theorem frame_cases (h : frame i checks effect s = .next t) :
    (s.status.fault = true ∧ t = s) ∨
    (s.status.fault = false ∧ i.wf = false ∧
      t = s.accept.raise { cls := .bufferAlias, info := (encode i).setWidth 64 }) ∨
    (s.status.fault = false ∧ i.wf = true ∧ ∃ r, checks s.accept = .error r ∧ t = s.accept.raise r) ∨
    (s.status.fault = false ∧ i.wf = true ∧ ∃ x, checks s.accept = .ok x ∧ t = (effect x s.accept).complete) := by
  cases hf : s.status.fault with
  | true => rw [frame_refused hf] at h; cases h; exact .inl ⟨rfl, rfl⟩
  | false =>
    cases hw : i.wf with
    | false => rw [frame_alias hf hw] at h; cases h; exact .inr (.inl ⟨rfl, rfl, rfl⟩)
    | true =>
      cases hc : checks s.accept with
      | error r => rw [frame_check_fails hf hw hc] at h; cases h; exact .inr (.inr (.inl ⟨rfl, rfl, r, rfl, rfl⟩))
      | ok x => rw [frame_completes hf hw hc] at h; cases h; exact .inr (.inr (.inr ⟨rfl, rfl, x, rfl, rfl⟩))

/-! ## Checks -/

theorem require_ok_iff {ok : Bool} {c : FaultClass} {n : BitVec 64} : require ok c n = .ok () ↔ ok = true := by
  cases ok <;> simp [require]

theorem require_true (c : FaultClass) (n : BitVec 64) : require true c n = .ok () := rfl

theorem require_false (c : FaultClass) (n : BitVec 64) : require false c n = .error { cls := c, info := n } := rfl

/-- A check before the rest: the rest runs exactly when the check holds. -/
theorem require_bind {β : Type} (ok : Bool) (c : FaultClass) (n : BitVec 64) (rest : Except Raise β) :
    (require ok c n >>= fun _ => rest) = if ok then rest else .error { cls := c, info := n } := by
  cases ok <;> rfl

/-- A count that fits is at most the capacity (R16). -/
theorem count_le {v : F64} {cap n : Nat} {id : BitVec 64} (h : count v cap id = .ok n) : n ≤ cap := by
  unfold count at h
  split at h
  · cases h
  · split at h
    · cases h; omega
    · split at h
      · cases h; omega
      · split at h
        · cases h
        · cases h; omega

end Sys2Proof.Machine
end

