-- ==== Sys2Proof/Laws/Checks.lean ====
section
/-! SUPPORT. The checks a command makes are the list of 60_exceptions.md R271 (`checkTable`), and every command is the frame
of R246 around checks that agree with that list: `exec_frame`. -/

namespace Sys2Proof.Machine

/-- The checks raise what the first failing check of the list raises, and pass when none fails. -/
def ChecksAgree {α : Type} (c : Except Raise α) (cs : List Check) : Prop :=
  match firstFailing cs with
  | some r => c = .error r
  | none => ∃ x, c = .ok x

variable {α : Type}

@[simp] theorem firstFailing_nil : firstFailing [] = none := rfl

theorem firstFailing_cons (c : Bool) (r : Raise) (cs : List Check) :
    firstFailing ((c, r) :: cs) = if c then some r else firstFailing cs := by
  cases c <;> simp [firstFailing]

theorem checksAgree_ok (x : α) : ChecksAgree (.ok x) [] := ⟨x, rfl⟩

theorem checksAgree_require (ok : Bool) (c : FaultClass) (n : BitVec 64) {rest : Except Raise α} {cs : List Check}
    (h : ChecksAgree rest cs) : ChecksAgree (require ok c n >>= fun _ => rest) ((!ok, ⟨c, n⟩) :: cs) := by
  rw [require_bind]
  unfold ChecksAgree at h ⊢
  rw [firstFailing_cons]
  cases ok
  · simp
  · simpa using h

theorem checksAgree_require_last (ok : Bool) (c : FaultClass) (n : BitVec 64) :
    ChecksAgree (require ok c n) [(!ok, ⟨c, n⟩)] := by
  cases ok
  · rfl
  · exact ⟨_, rfl⟩

theorem checksAgree_append {c : Except Raise Unit} {cs : List Check} (h : ChecksAgree c cs) {rest : Except Raise α}
    {ds : List Check} (h2 : ChecksAgree rest ds) : ChecksAgree (c >>= fun _ => rest) (cs ++ ds) := by
  unfold ChecksAgree firstFailing at *
  rw [List.find?_append]
  cases hc : cs.find? (fun c => c.1) with
  | some x => rw [hc] at h; simp only [Option.map] at h; simp [h]; rfl
  | none => rw [hc] at h; simp only [Option.map] at h; obtain ⟨⟨⟩, rfl⟩ := h; exact h2

/-! ## Derived counts (R16) -/

/-- An infinity is one of the two images. -/
theorem f64_inf_cases {v : F64} (he : v.expField = 2047) (hf : v.frac = 0) : v = F64.posInf ∨ v = F64.negInf := by
  unfold F64.expField at he
  unfold F64.frac at hf
  have hv := v.isLt
  have hn : v.toNat = 0x7FF0000000000000 ∨ v.toNat = 0xFFF0000000000000 := by omega
  exact hn.imp (fun h => BitVec.eq_of_toNat_eq h) fun h => BitVec.eq_of_toNat_eq h

/-- A value that is no NaN and neither infinity is finite. -/
theorem f64_isFinite_of {v : F64} (hn : v.isNaN = false) (hp : v ≠ F64.posInf) (hm : v ≠ F64.negInf) :
    v.isFinite = true := by
  by_cases he : v.expField = 2047
  · by_cases hf : v.frac = 0
    · rcases f64_inf_cases he hf with h | h
      · exact absurd h hp
      · exact absurd h hm
    · simp [F64.isNaN, he, hf] at hn
  · simp [F64.isFinite, he]

theorem count_overflows {v : F64} {cap : Nat} (h : overflows v cap = true) (id : BitVec 64) :
    count v cap id = .error ⟨.capacityExceeded, id⟩ := by
  unfold overflows at h
  unfold count
  by_cases h1 : (v.isNaN || v == F64.posInf) = true
  · rw [if_pos h1]
  · rw [if_neg h1]
    simp only [h1, Bool.false_or, Bool.and_eq_true, decide_eq_true_eq] at h
    have h2 : ¬(v == F64.negInf) = true := by
      intro hc
      rw [eq_of_beq hc] at h
      exact absurd h.1 (by decide)
    rw [if_neg h2, if_neg (by omega), if_pos h.2]

theorem count_fits {v : F64} {cap : Nat} (h : overflows v cap = false) (id : BitVec 64) :
    count v cap id = .ok (derivedLength v) := by
  unfold overflows at h
  simp only [Bool.or_eq_false_iff, Bool.and_eq_false_iff] at h
  obtain ⟨⟨hn, hp⟩, hc⟩ := h
  unfold count derivedLength
  rw [if_neg (by simp [hn, hp])]
  by_cases hm : v = F64.negInf
  · subst hm
    simp [show F64.isFinite F64.negInf = false by decide]
  · have hf : v.isFinite = true := f64_isFinite_of hn (by simpa using hp) hm
    have hle : ¬v.floorInt > cap := by simpa [hf] using hc
    rw [if_neg (by simpa using hm), if_pos hf]
    split
    · congr 1; omega
    · rfl

theorem checksAgree_count {v : F64} {cap : Nat} {id : BitVec 64} {f : Nat → Except Raise α} {cs : List Check}
    (h : ChecksAgree (f (derivedLength v)) cs) : ChecksAgree (count v cap id >>= f) (countCheck v cap id :: cs) := by
  unfold countCheck
  cases ho : overflows v cap
  · rw [count_fits ho]
    unfold ChecksAgree at *
    rw [firstFailing_cons]
    exact h
  · rw [count_overflows ho]
    unfold ChecksAgree
    rw [firstFailing_cons]
    rfl

theorem checksAgree_count_last (v : F64) (cap : Nat) (id : BitVec 64) :
    ChecksAgree (count v cap id) [countCheck v cap id] := by
  have h := checksAgree_count (v := v) (cap := cap) (id := id) (f := fun n => .ok n) (checksAgree_ok _)
  have e : (count v cap id >>= fun n => Except.ok n) = count v cap id := by cases count v cap id <;> rfl
  rwa [e] at h

theorem clampWindow_bind (s : State) (v : F64) (id : BitVec 64) (f : Nat → Except Raise α) :
    (clampWindow s v id >>= f) = (count v s.capW id >>= fun n => f (max n 1)) := by
  unfold clampWindow
  cases count v s.capW id <;> rfl

/-! ## The lists of R271 -/

theorem zero_test (n : BitVec 32) : (n == 0) = !(n != 0) := by simp [bne]

theorem over_test (a b : Nat) : decide (a > b) = !decide (a ≤ b) := by
  by_cases h : a ≤ b <;> simp [h]
  omega

theorem checkFilter_agrees (s : State) : ChecksAgree (checkFilter s) [fsCheck s, zeroCheck s.k.order 0x10] := by
  unfold checkFilter checkFs checkCount fsCheck zeroCheck
  rw [zero_test]
  exact checksAgree_require _ _ _ (checksAgree_require_last ..)

theorem checkBandFilter_agrees (s : State) :
    ChecksAgree (checkBandFilter s)
      [fsCheck s, zeroCheck s.k.order 0x10, (!F64.gt s.p.high s.p.low, ⟨.degenerateFilterRange, 0x0A⟩)] :=
  checksAgree_append (checkFilter_agrees s) (checksAgree_require_last ..)

theorem checkWindow_agrees (s : State) (n : BitVec 32) (id : BitVec 64) :
    ChecksAgree (checkWindow s n id) [zeroCheck n id, windowCheck s n id] := by
  unfold checkWindow checkCount zeroCheck windowCheck
  rw [zero_test, over_test]
  exact checksAgree_require _ _ _ (checksAgree_require_last ..)

theorem checkSynth_agrees (s : State) :
    ChecksAgree (checkSynth s) [fsCheck s, durCheck s, countCheck (synthProduct s) s.capN 0x40] :=
  checksAgree_require _ _ _ (checksAgree_require _ _ _ (checksAgree_count_last ..))

theorem checkAmdemod_agrees (s : State) (dcfix : Bool) :
    ChecksAgree (checkAmdemod dcfix s)
      ([fsCheck s, zeroCheck s.k.order 0x10, countCheck (amEnvQuotient s) s.capW 0x41] ++
        (if dcfix then [] else [countCheck (amDcQuotient s) s.capW 0x42])) := by
  unfold checkAmdemod checkFs checkCount fsCheck zeroCheck amEnvWindow amDcWindow amEnvQuotient amDcQuotient
  rw [zero_test]
  refine checksAgree_require _ _ _ (checksAgree_require _ _ _ ?_)
  rw [clampWindow_bind]
  apply checksAgree_count
  cases dcfix
  · simp only [Bool.false_eq_true, if_false]
    rw [clampWindow_bind]
    exact checksAgree_count (checksAgree_ok _)
  · exact checksAgree_ok _

theorem checkFmdemod_agrees (s : State) :
    ChecksAgree (checkFmdemod s)
      [fsCheck s, zeroCheck s.k.order 0x10, zeroCheck s.k.bpord 0x11, zeroCheck s.k.envdiv 0x14,
        zeroCheck s.k.dcmult 0x15, countCheck (fmEnvQuotient s) s.capW 0x41,
        (decide (s.k.dcmult.toNat * derivedWindow (fmEnvQuotient s) > s.capW), ⟨.capacityExceeded, 0x42⟩)] := by
  unfold checkFmdemod checkFs checkCount fsCheck zeroCheck fmEnvWindow fmDcWindow fmEnvQuotient
  simp only [zero_test, over_test]
  refine checksAgree_require _ _ _ (checksAgree_require _ _ _ (checksAgree_require _ _ _ (checksAgree_require _ _ _
    (checksAgree_require _ _ _ ?_))))
  rw [clampWindow_bind]
  apply checksAgree_count
  rw [bind_assoc]
  exact checksAgree_require _ _ _ (checksAgree_ok _)

/-- The checks do not look at what step 2 of the frame clears. -/
theorem checkTable_accept (i : Instr) (s : State) : checkTable i s.accept = checkTable i s := by cases i <;> rfl

/-- R246: every command is the frame around checks that agree with the list of R271. -/
theorem exec_frame (i : Instr) (s : State) :
    ∃ (α : Type) (checks : State → Except Raise α) (effect : α → State → State),
      exec i s = frame i checks effect s ∧ ∀ a, ChecksAgree (checks a) (checkTable i a) := by
  cases i with
  | lowpass | highpass =>
    exact ⟨_, checkFilter, _, by simp only [exec, execLowpass, execHighpass]; rfl, checkFilter_agrees⟩
  | bandpass | bandstop =>
    exact ⟨_, checkBandFilter, _, by simp only [exec, execBandpass, execBandstop]; rfl, checkBandFilter_agrees⟩
  | mavg | envdetRaw | envdetHw | envdetFw =>
    exact ⟨_, checkWin, _, by simp only [exec, execMavg, execEnvdetRaw, execEnvdetHw, execEnvdetFw]; rfl,
      fun a => checkWindow_agrees a _ _⟩
  | dcrem => exact ⟨_, checkDcwin, _, by simp only [exec, execDcrem]; rfl, fun a => checkWindow_agrees a _ _⟩
  | integ => exact ⟨_, checkFs, _, by simp only [exec, execInteg]; rfl, fun a => checksAgree_require_last ..⟩
  | hwr | fwr | dcoff | diff | adiff =>
    exact ⟨_, noChecks, _, by simp only [exec, execHwr, execFwr, execDcoff, execDiff, execAdiff]; rfl,
      fun _ => checksAgree_ok ()⟩
  | ammodSin | ammodTri | ammodSqr | ammodIdx | fmmod =>
    exact ⟨_, checkSynth, _,
      by simp only [exec, execAmmodSin, execAmmodTri, execAmmodSqr, execAmmodIdx, execFmmod]; rfl, checkSynth_agrees⟩
  | amdemod _ _ dcfix =>
    exact ⟨_, checkAmdemod dcfix, _, by simp only [exec, execAmdemod]; rfl, fun a => checkAmdemod_agrees a dcfix⟩
  | fmdemod => exact ⟨_, checkFmdemod, _, by simp only [exec, execFmdemod]; rfl, checkFmdemod_agrees⟩

/-- A command whose checks pass, as its frame runs it. -/
theorem checks_ok {checks : State → Except Raise α} {i : Instr} {s : State}
    (ha : ∀ a, ChecksAgree (checks a) (checkTable i a)) (h : checksPass i s) : ∃ x, checks s.accept = .ok x := by
  have hs := ha s.accept
  unfold ChecksAgree at hs
  unfold checksPass at h
  rw [checkTable_accept, h] at hs
  exact hs

end Sys2Proof.Machine
end

