-- ==== Sys2Proof/Laws/Decode.lean ====
section
/-! SUPPORT. The command word as six fields: each field comes back, and a mask acts field by field. -/

namespace Sys2Proof

theorem toNat_append_add {n m : Nat} (a : BitVec n) (b : BitVec m) : (a ++ b).toNat = a.toNat * 2 ^ m + b.toNat := by
  rw [BitVec.toNat_append, ← Nat.shiftLeft_add_eq_or_of_lt b.isLt, Nat.shiftLeft_eq]

theorem wordOf_toNat (f : Fields) :
    (wordOf f).toNat =
      f.opc.toNat * 2 ^ 24 + f.dst.toNat * 2 ^ 20 + f.src.toNat * 2 ^ 16 + f.aux1.toNat * 2 ^ 12 +
        f.aux2.toNat * 2 ^ 8 + f.opt.toNat := by
  unfold wordOf
  rw [toNat_append_add, toNat_append_add, toNat_append_add, toNat_append_add, toNat_append_add]
  omega

theorem extract_toNat (w : BitVec 32) (lo n : Nat) : (w.extractLsb' lo n).toNat = w.toNat / 2 ^ lo % 2 ^ n := by
  rw [BitVec.extractLsb'_toNat, Nat.shiftRight_eq_div_pow]

/-- R71: the fields of a word built from fields are those fields. -/
theorem fieldsOf_wordOf (f : Fields) : fieldsOf (wordOf f) = f := by
  have h := wordOf_toNat f
  have h1 := f.opc.isLt
  have h2 := f.dst.isLt
  have h3 := f.src.isLt
  have h4 := f.aux1.isLt
  have h5 := f.aux2.isLt
  have h6 := f.opt.isLt
  cases f
  simp only [fieldsOf, Fields.mk.injEq]
  refine ⟨?_, ?_, ?_, ?_, ?_, ?_⟩ <;> apply BitVec.eq_of_toNat_eq <;> rw [extract_toNat, h] <;> simp only at * <;> omega

/-- R71: the fields hold every bit of the word. -/
theorem wordOf_fieldsOf (w : BitVec 32) : wordOf (fieldsOf w) = w := by
  apply BitVec.eq_of_toNat_eq
  have h := w.isLt
  simp only [wordOf_toNat, fieldsOf, extract_toNat]
  omega

/-- A mask acts on a word field by field. -/
theorem wordOf_and (f g : Fields) :
    wordOf f &&& wordOf g =
      wordOf ⟨f.opc &&& g.opc, f.dst &&& g.dst, f.src &&& g.src, f.aux1 &&& g.aux1, f.aux2 &&& g.aux2,
        f.opt &&& g.opt⟩ := by
  change (f.opc ++ f.dst ++ f.src ++ f.aux1 ++ f.aux2 ++ f.opt : BitVec (8 + 4 + 4 + 4 + 4 + 8)) &&&
    (g.opc ++ g.dst ++ g.src ++ g.aux1 ++ g.aux2 ++ g.opt : BitVec (8 + 4 + 4 + 4 + 4 + 8)) = _
  rw [BitVec.and_append, BitVec.and_append, BitVec.and_append, BitVec.and_append, BitVec.and_append]
  rfl

theorem wordOf_injective {f g : Fields} (h : wordOf f = wordOf g) : f = g := by
  rw [← fieldsOf_wordOf f, ← fieldsOf_wordOf g, h]

@[simp] theorem slotOf_fieldOfSlot (d : SlotNo) : slotOf (fieldOfSlot d) = d := by
  apply Fin.ext
  simp only [slotOf, fieldOfSlot, BitVec.toNat_ofNat]
  omega

@[simp] theorem fieldOfSlot_slotOf (v : BitVec 4) : fieldOfSlot (slotOf v) = v := by
  apply BitVec.eq_of_toNat_eq
  simp only [slotOf, fieldOfSlot, BitVec.toNat_ofNat]
  have := v.isLt
  omega

/-- R72: a word of format U under the mask of its row keeps the opcode and the bits of `OPT` the mask compares. -/
theorem encodeU_and (opc : BitVec 8) (d r : SlotNo) (opt keep : BitVec 8) :
    encodeU opc d r opt &&& wordOf ⟨0xFF, 0, 0, 0xF, 0xF, keep⟩ = wordOf ⟨opc, 0, 0, 0, 0, opt &&& keep⟩ := by
  have h : opc &&& 0xFF#8 = opc := BitVec.and_allOnes
  simp [encodeU, wordOf_and, h]

/-- R73: a word of format G under the mask of its row keeps the opcode. -/
theorem encodeG_and (opc : BitVec 8) (d m t : SlotNo) :
    encodeG opc d m t &&& wordOf ⟨0xFF, 0, 0xF, 0, 0, 0xFF⟩ = wordOf ⟨opc, 0, 0, 0, 0, 0⟩ := by
  have h : opc &&& 0xFF#8 = opc := BitVec.and_allOnes
  simp [encodeG, wordOf_and, h]

end Sys2Proof
end

