-- ==== Sys2Proof/Laws/Sequences.lean ====
section
/-! SUPPORT. The sequence functions: lengths, samples by index, and the estimator's window. -/

namespace Sys2Proof.Machine

/-! ## Maps that know the index -/

@[simp] theorem mapFrom_length {α β : Type} (f : Nat → α → β) (i : Nat) (u : List α) :
    (mapFrom f i u).length = u.length := by
  induction u generalizing i with
  | nil => rfl
  | cons a rest ih => simp [mapFrom, ih]

theorem mapFrom_getElem {α β : Type} (f : Nat → α → β) (i : Nat) (u : List α) {j : Nat} (h : j < u.length) :
    (mapFrom f i u)[j]'(by simpa using h) = f (i + j) u[j] := by
  induction u generalizing i j with
  | nil => simp at h
  | cons a rest ih =>
    cases j with
    | zero => rfl
    | succ j =>
      simp only [mapFrom, List.getElem_cons_succ]
      rw [ih (i + 1) (by simpa using h)]
      congr 1
      omega

@[simp] theorem zipFrom_length {α β γ : Type} (f : Nat → α → β → γ) (i : Nat) (u : List α) (v : List β) :
    (zipFrom f i u v).length = min u.length v.length := by
  induction u generalizing i v with
  | nil => simp [zipFrom]
  | cons a rest ih =>
    cases v with
    | nil => simp [zipFrom]
    | cons b bs => simp [zipFrom, ih]

theorem zipFrom_getElem {α β γ : Type} (f : Nat → α → β → γ) (i : Nat) (u : List α) (v : List β) {j : Nat}
    (hu : j < u.length) (hv : j < v.length) :
    (zipFrom f i u v)[j]'(by simp only [zipFrom_length]; omega) = f (i + j) u[j] v[j] := by
  induction u generalizing i v j with
  | nil => simp at hu
  | cons a rest ih =>
    cases v with
    | nil => simp at hv
    | cons b bs =>
      cases j with
      | zero => rfl
      | succ j =>
        simp only [zipFrom, List.getElem_cons_succ]
        rw [ih (i + 1) bs (by simpa using hu) (by simpa using hv)]
        congr 1
        omega

/-! ## Lengths (R34) -/

@[simp] theorem maeRun_length (k : DrawKey) (e : Estimator) (i : Nat) (u : List F64) :
    (maeRun k e i u).length = u.length := by
  induction u generalizing e i with
  | nil => rfl
  | cons v rest ih => simp [maeRun, ih]

@[simp] theorem mavgF_length (k : DrawKey) (u : List F64) (w : Nat) (first : Bool) :
    (mavgF k u w first).length = u.length := by
  cases u with
  | nil => rfl
  | cons v rest => simp [mavgF]

@[simp] theorem lpFrom_length (k : DrawKey) (alpha oma : F64) (i : Nat) (yprev : F64) (u : List F64) :
    (lpFrom k alpha oma i yprev u).length = u.length := by
  induction u generalizing i yprev with
  | nil => rfl
  | cons v rest ih => simp [lpFrom, ih]

@[simp] theorem lpStage_length (k : DrawKey) (alpha : F64) (u : List F64) : (lpStage k alpha u).length = u.length := by
  cases u <;> simp [lpStage]

@[simp] theorem hpFrom_length (k : DrawKey) (alpha : F64) (i : Nat) (yprev xprev : F64) (u : List F64) :
    (hpFrom k alpha i yprev xprev u).length = u.length := by
  induction u generalizing i yprev xprev with
  | nil => rfl
  | cons v rest ih => simp [hpFrom, ih]

@[simp] theorem hpStage_length (k : DrawKey) (alpha : F64) (u : List F64) : (hpStage k alpha u).length = u.length := by
  cases u <;> simp [hpStage]

theorem cascade_length {stage : DrawKey → F64 → List F64 → List F64}
    (hs : ∀ k alpha u, (stage k alpha u).length = u.length) (k : DrawKey) (alpha : F64) (u : List F64) (n : Nat) :
    (cascade stage k alpha u n).length = u.length := by
  induction n with
  | zero => rfl
  | succ n ih => simp [cascade, hs, ih]

@[simp] theorem cascade_lp_length (k : DrawKey) (alpha : F64) (u : List F64) (n : Nat) :
    (cascade lpStage k alpha u n).length = u.length := cascade_length lpStage_length k alpha u n

@[simp] theorem cascade_hp_length (k : DrawKey) (alpha : F64) (u : List F64) (n : Nat) :
    (cascade hpStage k alpha u n).length = u.length := cascade_length hpStage_length k alpha u n

@[simp] theorem bpF_length (k : DrawKey) (u : List F64) (fs low high : F64) (n : Nat) :
    (bpF k u fs low high n).length = u.length := by simp [bpF]

@[simp] theorem bsF_length (k : DrawKey) (u : List F64) (fs low high : F64) (n : Nat) :
    (bsF k u fs low high n).length = u.length := by simp [bsF]

@[simp] theorem hwrF_length (u : List F64) : (hwrF u).length = u.length := by simp [hwrF]

@[simp] theorem fwrF_length (u : List F64) : (fwrF u).length = u.length := by simp [fwrF]

@[simp] theorem dcremF_length (k : DrawKey) (u : List F64) (w : Nat) : (dcremF k u w).length = u.length := by
  simp [dcremF]

@[simp] theorem dcoffF_length (k : DrawKey) (u : List F64) (c : F64) : (dcoffF k u c).length = u.length := by
  simp [dcoffF]

@[simp] theorem diffF_length (k : DrawKey) (u : List F64) : (diffF k u).length = u.length - 1 := by
  simp [diffF]

@[simp] theorem adiffF_length (k : DrawKey) (u : List F64) : (adiffF k u).length = u.length - 1 := by
  simp [adiffF]

@[simp] theorem integFrom_length (k : DrawKey) (fs : F64) (i : Nat) (acc : F64) (u : List F64) :
    (integFrom k fs i acc u).length = u.length := by
  induction u generalizing i acc with
  | nil => rfl
  | cons v rest ih => simp [integFrom, ih]

@[simp] theorem integF_length (k : DrawKey) (u : List F64) (fs : F64) : (integF k u fs).length = u.length := by
  simp [integF]

@[simp] theorem timeBase_length (k : DrawKey) (fs : F64) (n : Nat) : (timeBase k fs n).length = n := by
  simp [timeBase]

@[simp] theorem msgSin_length (k : DrawKey) (a fm : F64) (t : List F64) : (msgSin k a fm t).length = t.length := by
  simp [msgSin]

@[simp] theorem msgTri_length (k : DrawKey) (a fm : F64) (t : List F64) : (msgTri k a fm t).length = t.length := by
  simp [msgTri]

@[simp] theorem msgSqr_length (k : DrawKey) (a fm : F64) (t : List F64) : (msgSqr k a fm t).length = t.length := by
  simp [msgSqr]

@[simp] theorem amOffset_length (k : DrawKey) (ac fc : F64) (t m : List F64) :
    (amOffset k ac fc t m).length = min t.length m.length := by simp [amOffset]

@[simp] theorem amIndex_length (k : DrawKey) (mu fc : F64) (t m : List F64) :
    (amIndex k mu fc t m).length = min t.length m.length := by simp [amIndex]

@[simp] theorem fmSignal_length (k : DrawKey) (fc kf : F64) (t g : List F64) :
    (fmSignal k fc kf t g).length = min t.length g.length := by simp [fmSignal]

@[simp] theorem demodLp_length (k : DrawKey) (u : List F64) (fs fm cmult : F64) (n : Nat) :
    (demodLp k u fs fm cmult n).length = u.length := by simp [demodLp]

@[simp] theorem amDemodF_length (k : DrawKey) (x : List F64) (fs fm cmult : F64) (order wenv : Nat) (wdc : Option Nat) :
    (amDemodF k x fs fm cmult order wenv wdc).length = x.length := by
  cases wdc <;> simp [amDemodF]

@[simp] theorem fmDemodF_length (k : DrawKey) (x : List F64) (fs fm cmult lo hi : F64) (order bpord wenv wdc : Nat)
    (plain prime : Bool) :
    (fmDemodF k x fs fm cmult lo hi order bpord wenv wdc plain prime).length = x.length - 1 := by
  cases plain <;> simp [fmDemodF]

/-! ## The estimator keeps its shape (R41) -/

@[simp] theorem maeStep_w (k : DrawKey) (e : Estimator) (v : F64) : (maeStep k e v).1.w = e.w := rfl

@[simp] theorem maeStep_ring_length (k : DrawKey) (e : Estimator) (v : F64) :
    (maeStep k e v).1.ring.length = e.ring.length := by simp [maeStep]

theorem maeStep_idx_lt {k : DrawKey} {e : Estimator} {v : F64} (h : 0 < e.w) : (maeStep k e v).1.idx < e.w :=
  Nat.mod_lt _ h

@[simp] theorem maePrime_w (k : DrawKey) (e : Estimator) (p : F64) (n : Nat) : (maePrime k e p n).w = e.w := by
  induction n with
  | zero => rfl
  | succ n ih => simp [maePrime, ih]

@[simp] theorem maePrime_ring_length (k : DrawKey) (e : Estimator) (p : F64) (n : Nat) :
    (maePrime k e p n).ring.length = e.ring.length := by
  induction n with
  | zero => rfl
  | succ n ih => simp [maePrime, ih]

end Sys2Proof.Machine
end

