-- ==== Sys2Proof/Laws/Estimator.lean ====
section
/-! SUPPORT. What the estimator's ring holds after `j` steps (40_moving_average.md R100 to R102): zeros until the window is
full, then the last `W` values fed. -/

namespace Sys2Proof.Machine

/-- After `j` steps of an estimator of window `w` fed with `f`: the place `t` steps ahead of the oldest holds a zero of the
fresh ring, or the value fed `w` steps before it comes round. -/
structure Estimator.Follows (w : Nat) (f : Nat → F64) (j : Nat) (e : Estimator) : Prop where
  window : e.w = w
  length : e.ring.length = w
  index : e.idx = j % w
  ring : ∀ t, t < w → e.ring.getD ((j + t) % w) F64.zero = if j + t < w then F64.zero else f (j + t - w)

theorem follows_new (w : Nat) (f : Nat → F64) : Estimator.Follows w f 0 (maeNew w) where
  window := rfl
  length := by simp [maeNew]
  index := by simp [maeNew]
  ring t ht := by
    simp only [Nat.zero_add, ht, if_true, Nat.mod_eq_of_lt ht]
    simp [maeNew, List.getD, ht]

theorem follows_step {w : Nat} {f : Nat → F64} {j : Nat} {e : Estimator} (hw : 0 < w) (h : Estimator.Follows w f j e)
    (k : DrawKey) : Estimator.Follows w f (j + 1) (maeStep k e (f j)).1 where
  window := h.window
  length := by simp [h.length]
  index := by simp [maeStep, h.window, h.index, Nat.add_mod]
  ring t ht := by
    have hl : j % w < w := Nat.mod_lt _ hw
    show (e.ring.set e.idx (f j)).getD _ _ = _
    rw [h.index]
    by_cases hc : t + 1 = w
    · have hm : (j + 1 + t) % w = j % w := by
        rw [show j + 1 + t = j + w by omega]
        simp
      rw [hm, if_neg (by omega), show j + 1 + t - w = j by omega]
      simp [List.getD, h.length, hl]
    · have hne : j % w ≠ (j + 1 + t) % w := by
        intro he
        have hd := (Nat.modEq_iff_dvd' (show j ≤ j + 1 + t by omega)).mp he
        rw [show j + 1 + t - j = t + 1 by omega] at hd
        exact absurd (Nat.le_of_dvd (by omega) hd) (by omega)
      have h2 := h.ring (t + 1) (by omega)
      rw [show j + (t + 1) = j + 1 + t by omega] at h2
      simp only [List.getD, List.getElem?_set, if_neg hne] at h2 ⊢
      exact h2

/-- The value the next step evicts. -/
theorem follows_evicted {w : Nat} {f : Nat → F64} {j : Nat} {e : Estimator} (hw : 0 < w) (h : Estimator.Follows w f j e) :
    e.ring.getD e.idx F64.zero = if j < w then F64.zero else f (j - w) := by
  rw [h.index]
  simpa using h.ring 0 hw

theorem maeStep_sum (k : DrawKey) (e : Estimator) (v : F64) :
    (maeStep k e v).1.sum = F64.add (1 :: k) (F64.sub (0 :: k) e.sum (e.ring.getD e.idx F64.zero)) v := rfl

theorem maeStep_value (k : DrawKey) (e : Estimator) (v : F64) :
    (maeStep k e v).2 = F64.div (2 :: k) (maeStep k e v).1.sum (F64.ofNat e.w) := rfl

end Sys2Proof.Machine
end

