-- ==== Sys2Proof/Laws/Exec.lean ====
section
/-! SUPPORT. Everything one command can do, said once for all 22: `exec_cases`. -/

namespace Sys2Proof.Machine

/-- What the effect of a command that passed its checks does to the accepted state `a`: format U writes one slot with a
result no longer than its source, and only FMDEMOD with `OVR` sets `CORRECTED`; format G writes three slots with
results no longer than `MAXN`, and only the amplitude-offset forms write `MU`. -/
def Effect (i : Instr) (a u : State) : Prop :=
  (∃ (d r : SlotNo) (y : List F64) (c : Bool), i.dests = [d] ∧ i.src? = some r ∧ y.length ≤ a.len[r] ∧
    u = (a.writeSlot d y).setCorrected c ∧
    (c = true → i.writesMu = false ∧ ∃ plain prime, i = .fmdemod d r true plain prime)) ∨
  (∃ (d m t : SlotNo) (x y z : List F64) (n : Nat), i.dests = [d, m, t] ∧ n ≤ a.capN ∧ x.length = n ∧ y.length = n ∧
    z.length = n ∧
    ((i.writesMu = false ∧ u = a.writeBundle d m t x y z) ∨
      (i.writesMu = true ∧ ∃ v, u = (a.writeBundle d m t x y z).setMu v)))

/-- The cases of one command's frame, for an effect whose shape is known. -/
theorem frame_effect_cases {α : Type} {i : Instr} {checks : State → Except Raise α} {effect : α → State → State}
    {s t : State} (hshape : ∀ x, checks s.accept = .ok x → Effect i s.accept (effect x s.accept))
    (h : frame i checks effect s = .next t) :
    (s.status.fault = true ∧ t = s) ∨
    (s.status.fault = false ∧ ∃ r, t = s.accept.raise r) ∨
    (s.status.fault = false ∧ i.wf = true ∧ ∃ u, t = u.complete ∧ Effect i s.accept u) := by
  rcases frame_cases h with ⟨hf, rfl⟩ | ⟨hf, -, rfl⟩ | ⟨hf, -, r, -, rfl⟩ | ⟨hf, hw, x, hc, rfl⟩
  · exact .inl ⟨hf, rfl⟩
  · exact .inr (.inl ⟨hf, _, rfl⟩)
  · exact .inr (.inl ⟨hf, r, rfl⟩)
  · exact .inr (.inr ⟨hf, hw, _, rfl, hshape x hc⟩)

theorem State.source_length (s : State) (r : SlotNo) : (s.source r).length = s.len[r] := Memory.samples_length ..

/-- The shape of a format-U effect that leaves `CORRECTED` alone. -/
theorem effect_u {i : Instr} {s : State} {d r : SlotNo} (hd : i.dests = [d]) (hr : i.src? = some r) {y : List F64}
    (hy : y.length ≤ (s.accept.source r).length) : Effect i s.accept (s.accept.writeSlot d y) :=
  .inl ⟨d, r, y, false, hd, hr, by rwa [State.source_length] at hy, rfl, by simp⟩

theorem checkSynth_le {s : State} {n : Nat} (h : checkSynth s = .ok n) : n ≤ s.capN := by
  unfold checkSynth checkFs checkDur at h
  rw [require_bind] at h
  split at h
  · rw [require_bind] at h
    split at h
    · exact count_le h
    · cases h
  · cases h

@[simp] theorem State.timeBase_length (a : State) (n : Nat) : (a.timeBase n).length = n :=
  Sys2Proof.Machine.timeBase_length ..

@[simp] theorem State.unitSine_length (a : State) (n : Nat) : (a.unitSine n).length = n := by simp [State.unitSine]

@[simp] theorem State.fmModulated_length (a : State) (n : Nat) : (a.fmModulated n).length = n := by
  simp [State.fmModulated]

/-- The shape of an amplitude-offset effect. -/
theorem effect_am {i : Instr} {a : State} {d m t : SlotNo} (hd : i.dests = [d, m, t]) (hm : i.writesMu = true) {n : Nat}
    (hn : n ≤ a.capN) {msg : List F64} (hl : msg.length = n) : Effect i a (a.writeAmOffset d m t n msg) :=
  .inr ⟨d, m, t, _, _, _, n, hd, hn, State.timeBase_length a n, hl, by simp [hl], .inr ⟨hm, _, rfl⟩⟩

/-- The shape of the other synthesizers' effect. -/
theorem effect_g {i : Instr} {a : State} {d m t : SlotNo} (hd : i.dests = [d, m, t]) (hm : i.writesMu = false) {n : Nat}
    (hn : n ≤ a.capN) {x y z : List F64} (hx : x.length = n) (hy : y.length = n) (hz : z.length = n) :
    Effect i a (a.writeBundle d m t x y z) :=
  .inr ⟨d, m, t, x, y, z, n, hd, hn, hx, hy, hz, .inl ⟨hm, rfl⟩⟩

/-- Everything a command can answer: refused while a fault is recorded, a fault raised, or its effect and `DONE`. -/
theorem exec_cases {i : Instr} {s t : State} (h : exec i s = .next t) :
    (s.status.fault = true ∧ t = s) ∨
    (s.status.fault = false ∧ ∃ r, t = s.accept.raise r) ∨
    (s.status.fault = false ∧ i.wf = true ∧ ∃ u, t = u.complete ∧ Effect i s.accept u) := by
  cases i with
  | lowpass d r | highpass d r | bandpass d r | bandstop d r
  | mavg d r _ | envdetRaw d r _ | envdetHw d r _ | envdetFw d r _
  | hwr d r | fwr d r | dcrem d r | dcoff d r | diff d r | adiff d r | integ d r =>
    simp only [exec, execLowpass, execHighpass, execBandpass, execBandstop, execMavg, execEnvdetRaw, execEnvdetHw,
      execEnvdetFw, execHwr, execFwr, execDcrem, execDcoff, execDiff, execAdiff, execInteg] at h
    refine frame_effect_cases (fun _ _ => effect_u rfl rfl ?_) h
    simp
  | ammodSin d m t | ammodTri d m t | ammodSqr d m t =>
    simp only [exec, execAmmodSin, execAmmodTri, execAmmodSqr] at h
    refine frame_effect_cases (fun n hn => effect_am rfl rfl (checkSynth_le hn) ?_) h
    simp
  | ammodIdx d m t | fmmod d m t =>
    simp only [exec, execAmmodIdx, execFmmod] at h
    refine frame_effect_cases (fun n hn => effect_g rfl rfl (checkSynth_le hn) ?_ ?_ ?_) h <;> simp
  | amdemod d r dcfix =>
    simp only [exec, execAmdemod] at h
    refine frame_effect_cases (fun _ _ => effect_u rfl rfl ?_) h
    simp [State.amDemodulated]
  | fmdemod d r ovr plain prime =>
    simp only [exec, execFmdemod] at h
    refine frame_effect_cases (fun w _ => .inl ⟨d, r, _, _, rfl, rfl, ?_, rfl, fun hc => ⟨rfl, plain, prime, ?_⟩⟩) h
    · simp [State.fmDemodulated, State.source_length]
    · cases ovr
      · simp [State.overrideCorrected] at hc
      · rfl

/-- R245, R250: a command always ends, and never stops the machine. -/
theorem frame_total {α : Type} (i : Instr) (checks : State → Except Raise α) (effect : α → State → State) (s : State) :
    ∃ t, frame i checks effect s = .next t := by
  unfold frame
  split
  · exact ⟨_, rfl⟩
  · split
    · exact ⟨_, rfl⟩
    · split <;> exact ⟨_, rfl⟩

/-! ## Reading a result back -/

theorem State.holds_writeSlot (s : State) (d : SlotNo) (y : List F64) : (s.writeSlot d y).Holds d y := by
  refine ⟨?_, fun i h => ?_⟩
  · simp only [State.writeSlot_len, Fin.getElem_fin, Vector.getElem_set_self]
  · rw [State.writeSlot_mem, Memory.read_replace_same _ _ _ _ h]

theorem State.slotsKept_writeSlot (s : State) (d : SlotNo) (y : List F64) : s.SlotsKept (s.writeSlot d y) [d] := by
  intro e he
  have hne : e ≠ d := by simpa using he
  have hv : d.val ≠ e.val := fun h => hne (Fin.ext h.symm)
  refine ⟨?_, fun i => ?_⟩
  · simp only [State.writeSlot_len, Fin.getElem_fin]
    rw [Vector.getElem_set_ne _ _ hv]
  · rw [State.writeSlot_mem, Memory.read_replace_other _ hne]

theorem State.SlotsKept.trans {a b c : State} {ds es : List SlotNo} (h : a.SlotsKept b ds) (g : b.SlotsKept c es) :
    a.SlotsKept c (es ++ ds) := by
  intro e he
  rw [List.mem_append, not_or] at he
  exact ⟨(g e he.1).1.trans (h e he.2).1, fun i => ((g e he.1).2 i).trans ((h e he.2).2 i)⟩

theorem State.Holds.of_kept {a b : State} {d : SlotNo} {y : List F64} {ds : List SlotNo} (h : a.Holds d y)
    (g : a.SlotsKept b ds) (hd : d ∉ ds) : b.Holds d y :=
  ⟨(g d hd).1.trans h.1, fun i hi => ((g d hd).2 i).trans (h.2 i hi)⟩

end Sys2Proof.Machine
end

