-- ==== Sys2Proof/Laws/Float.lean ====
section
/-! SUPPORT. The images binary64 operations build (00_scope.md R7, R12): sign, exponent field and fraction of an image built
from a sign and bits 62:0, what the NaNs, zeros and infinities are, when rounding changes nothing, and that bits 62:0 order
values by magnitude. -/

namespace Sys2Proof

variable (neg : Bool) {mag : Nat}

theorem F64.ofBits_toNat (h : mag < 2 ^ 63) :
    (F64.ofBits neg mag).toNat = (if neg then 2 ^ 63 else 0) + mag := by
  unfold F64.ofBits
  rw [BitVec.toNat_ofNat]
  cases neg <;> simp <;> omega

theorem F64.ofBits_expField (h : mag < 2 ^ 63) : (F64.ofBits neg mag).expField = mag / 2 ^ 52 := by
  unfold F64.expField
  rw [F64.ofBits_toNat neg h]
  cases neg <;> simp <;> omega

theorem F64.ofBits_frac (h : mag < 2 ^ 63) : (F64.ofBits neg mag).frac = mag % 2 ^ 52 := by
  unfold F64.frac
  rw [F64.ofBits_toNat neg h]
  cases neg <;> simp
  omega

theorem F64.ofBits_sign (h : mag < 2 ^ 63) : (F64.ofBits neg mag).sign = neg := by
  unfold F64.sign
  rw [BitVec.getLsbD, F64.ofBits_toNat neg h, Nat.testBit_eq_decide_div_mod_eq]
  cases neg <;> simp <;> omega

theorem F64.frac_lt (v : F64) : v.frac < 2 ^ 52 := Nat.mod_lt _ (by decide)

/-- R12: whatever the draw, a drawn NaN is a NaN. -/
@[simp] theorem F64.nanOf_isNaN (d : F64) : (F64.nanOf d).isNaN = true := by
  have hd := F64.frac_lt d
  have hm : (2047 * 2 ^ 52 + if d.frac = 0 then 1 else d.frac) < 2 ^ 63 := by split <;> omega
  unfold F64.nanOf F64.isNaN
  rw [F64.ofBits_expField _ hm, F64.ofBits_frac _ hm]
  split <;> simp
  omega

@[simp] theorem F64.nan_isNaN (k : DrawKey) : (F64.nan k).isNaN = true := F64.nanOf_isNaN _

/-- R12: every NaN is drawn by some bits, its own. -/
theorem F64.nanOf_self {v : F64} (h : v.isNaN = true) : F64.nanOf v = v := by
  simp only [F64.isNaN, Bool.and_eq_true, decide_eq_true_eq] at h
  apply BitVec.eq_of_toNat_eq
  have hf := F64.frac_lt v
  unfold F64.nanOf
  rw [if_neg h.2, F64.ofBits_toNat _ (by omega)]
  have hs : v.sign = decide (v.toNat / 2 ^ 63 % 2 = 1) := by
    unfold F64.sign
    rw [BitVec.getLsbD, Nat.testBit_eq_decide_div_mod_eq]
  have hv := v.isLt
  have he := h.1
  unfold F64.expField at he
  unfold F64.frac
  rw [hs]
  by_cases hb : v.toNat / 2 ^ 63 % 2 = 1 <;> simp only [hb, decide_true, decide_false, if_true, if_false, Bool.false_eq_true] <;> omega

@[simp] theorem F64.zeroOf_isZero : (F64.zeroOf neg).isZero = true := by cases neg <;> decide
@[simp] theorem F64.infOf_isInf : (F64.infOf neg).isInf = true := by cases neg <;> decide
@[simp] theorem F64.zeroOf_sign : (F64.zeroOf neg).sign = neg := by cases neg <;> decide
@[simp] theorem F64.infOf_sign : (F64.infOf neg).sign = neg := by cases neg <;> decide

/-! ## Values in units, and rounding that is exact (R8, R15) -/

/-- The value of an image with a normal exponent field `q + 1` and significand `r`. -/
theorem F64.ofBits_normal (neg : Bool) {q r : Nat} (hq : q < 2046) (h1 : 2 ^ 52 ≤ r) (h2 : r < 2 ^ 53) :
    (F64.ofBits neg (q * 2 ^ 52 + r)).isFinite = true ∧ (F64.ofBits neg (q * 2 ^ 52 + r)).sign = neg ∧
      (F64.ofBits neg (q * 2 ^ 52 + r)).units = if neg then -((r * 2 ^ q : Nat) : Int) else (r * 2 ^ q : Nat) := by
  have hm : q * 2 ^ 52 + r < 2 ^ 63 := by omega
  have he := F64.ofBits_expField neg hm
  have hf := F64.ofBits_frac neg hm
  have he' : (q * 2 ^ 52 + r) / 2 ^ 52 = q + 1 := by omega
  have hf' : (q * 2 ^ 52 + r) % 2 ^ 52 = r - 2 ^ 52 := by omega
  rw [he'] at he
  rw [hf'] at hf
  have hs := F64.ofBits_sign neg hm
  have hg : (F64.ofBits neg (q * 2 ^ 52 + r)).sig = r := by
    unfold F64.sig
    rw [he, hf, if_neg (by omega)]
    omega
  have hc : (F64.ofBits neg (q * 2 ^ 52 + r)).scale = q + 1 := by
    unfold F64.scale
    rw [he, if_neg (by omega)]
  refine ⟨?_, hs, ?_⟩
  · unfold F64.isFinite
    rw [he]
    exact decide_eq_true (by omega)
  · unfold F64.units
    simp only [hg, hc, hs, Nat.add_sub_cancel]

/-- R8: the shift of the rounding drops nothing when what it drops is zero. -/
theorem roundShift_of_dvd {m sh : Nat} (h : 2 ^ sh ∣ m) : roundShift m sh = m / 2 ^ sh := by
  have h0 : m % 2 ^ sh = 0 := Nat.mod_eq_zero_of_dvd h
  have hp := Nat.two_pow_pos sh
  unfold roundShift
  rw [h0, if_neg (by omega)]

/-- R8: rounding changes nothing when the exact value `± m * 2^e` units is a normal binary64 number: no bit of `m` stands
below the last place, and the exponent is in range. -/
theorem F64.roundScaled_exact (neg : Bool) {m e : Nat} (hm : m ≠ 0) (he : 52 ≤ e) (hd : 2 ^ (Nat.log2 m - 52) ∣ m)
    (hb : e + Nat.log2 m < 2098) :
    (F64.roundScaled neg m e 0).isFinite = true ∧ (F64.roundScaled neg m e 0).sign = neg ∧
      (F64.roundScaled neg m e 0).units = if neg then -((m * 2 ^ e : Nat) : Int) else (m * 2 ^ e : Nat) := by
  have hlo : 2 ^ Nat.log2 m ≤ m := Nat.log2_self_le hm
  have hhi : m < 2 ^ (Nat.log2 m + 1) := Nat.lt_log2_self
  generalize hL : Nat.log2 m = L at *
  obtain ⟨r, hr, h1, h2, hv⟩ : ∃ r, (if e + L - 52 ≤ e then m * 2 ^ (e - (e + L - 52)) else roundShift m (e + L - 52 - e)) = r ∧
      2 ^ 52 ≤ r ∧ r < 2 ^ 53 ∧ r * 2 ^ (e + L - 52) = m * 2 ^ e := by
    refine ⟨_, rfl, ?_⟩
    split
    · rw [show e - (e + L - 52) = 52 - L by omega]
      have hp : 2 ^ L * 2 ^ (52 - L) = 2 ^ 52 := by rw [← pow_add]; congr 1; omega
      have hp' : 2 ^ (L + 1) * 2 ^ (52 - L) = 2 ^ 53 := by rw [← pow_add]; congr 1; omega
      refine ⟨hp ▸ Nat.mul_le_mul_right _ hlo, hp' ▸ Nat.mul_lt_mul_of_pos_right hhi (Nat.two_pow_pos _), ?_⟩
      rw [mul_assoc, ← pow_add]
      congr 2
      omega
    · rw [show e + L - 52 - e = L - 52 by omega, roundShift_of_dvd hd]
      obtain ⟨c, hc⟩ := hd
      have hpos := Nat.two_pow_pos (L - 52)
      have hp : 2 ^ L = 2 ^ (L - 52) * 2 ^ 52 := by rw [← pow_add]; congr 1; omega
      have hp' : 2 ^ (L + 1) = 2 ^ (L - 52) * 2 ^ 53 := by rw [← pow_add]; congr 1; omega
      rw [hp, hc] at hlo
      rw [hp', hc] at hhi
      rw [hc, Nat.mul_div_cancel_left _ hpos]
      refine ⟨Nat.le_of_mul_le_mul_left hlo hpos, Nat.lt_of_mul_lt_mul_left hhi, ?_⟩
      rw [show e + L - 52 = (L - 52) + e by omega, pow_add]
      ring
  have hx : F64.roundScaled neg m e 0 = F64.ofBits neg ((e + L - 52) * 2 ^ 52 + r) := by
    unfold F64.roundScaled
    simp only [hL, Nat.max_zero, Nat.sub_zero, hr, if_neg hm]
    rw [if_pos (by omega)]
  rw [hx, ← hv]
  exact F64.ofBits_normal neg (by omega) h1 h2

theorem F64.magBits_eq (v : F64) : v.magBits = v.expField * 2 ^ 52 + v.frac := by
  have hv := v.isLt
  unfold F64.magBits F64.expField F64.frac
  omega

/-- The magnitude of a value in units rises with bits 62:0 of its image. -/
theorem F64.magnitude_lt {a b : F64} (h : a.magBits < b.magBits) :
    a.sig * 2 ^ (a.scale - 1) < b.sig * 2 ^ (b.scale - 1) := by
  have ha := F64.frac_lt a
  have hb := F64.frac_lt b
  rw [F64.magBits_eq, F64.magBits_eq] at h
  unfold F64.sig F64.scale
  generalize a.expField = ea, a.frac = fa, b.expField = eb, b.frac = fb at *
  rcases Nat.lt_or_ge ea eb with he | he
  · rw [if_neg (show eb ≠ 0 by omega), if_neg (show eb ≠ 0 by omega)]
    refine Nat.lt_of_lt_of_le ?_ (Nat.mul_le_mul_right _ (show 2 ^ 52 ≤ fb + 2 ^ 52 by omega))
    by_cases h0 : ea = 0
    · rw [if_pos h0, if_pos h0]
      have := Nat.two_pow_pos (eb - 1)
      omega
    · rw [if_neg h0, if_neg h0]
      refine Nat.lt_of_lt_of_le (Nat.mul_lt_mul_of_pos_right (show fa + 2 ^ 52 < 2 ^ 53 by omega) (Nat.two_pow_pos _)) ?_
      rw [← pow_add, ← pow_add]
      exact Nat.pow_le_pow_right (by omega) (by omega)
  · have hee : ea = eb := by omega
    subst hee
    refine Nat.mul_lt_mul_of_pos_right ?_ (Nat.two_pow_pos _)
    split <;> omega

/-- Equal bits 62:0 are equal magnitudes. -/
theorem F64.magnitude_eq {a b : F64} (h : a.magBits = b.magBits) :
    a.sig * 2 ^ (a.scale - 1) = b.sig * 2 ^ (b.scale - 1) := by
  have ha := F64.frac_lt a
  have hb := F64.frac_lt b
  rw [F64.magBits_eq, F64.magBits_eq] at h
  have he : a.expField = b.expField := by omega
  have hf : a.frac = b.frac := by omega
  unfold F64.sig F64.scale
  rw [he, hf]

end Sys2Proof
end

