-- ==== Sys2Proof/Laws/PerInstr.lean ====
section
/-! SUPPORT. The family MatchesRow (30_encoding.md R80): the word of a command agrees with the `match` of its row on every
bit of the row's `mask`. -/

namespace Sys2Proof.Laws.MatchesRow

def Statement (i : Instr) : Prop := encode i &&& i.mask = i.pattern

theorem lowpass (d r : SlotNo) : Statement (.lowpass d r) := encodeU_and 0x01 d r 0 0xFF
theorem highpass (d r : SlotNo) : Statement (.highpass d r) := encodeU_and 0x02 d r 0 0xFF
theorem bandpass (d r : SlotNo) : Statement (.bandpass d r) := encodeU_and 0x03 d r 0 0xFF
theorem bandstop (d r : SlotNo) : Statement (.bandstop d r) := encodeU_and 0x04 d r 0 0xFF
theorem mavg (d r : SlotNo) (p : Bool) : Statement (.mavg d r p) :=
  (encodeU_and 0x08 d r (optBit p 0) 0xFE).trans (by cases p <;> rfl)
theorem envdetRaw (d r : SlotNo) (p : Bool) : Statement (.envdetRaw d r p) :=
  (encodeU_and 0x09 d r (optBit p 0) 0xFE).trans (by cases p <;> rfl)
theorem envdetHw (d r : SlotNo) (p : Bool) : Statement (.envdetHw d r p) :=
  (encodeU_and 0x0A d r (optBit p 0) 0xFE).trans (by cases p <;> rfl)
theorem envdetFw (d r : SlotNo) (p : Bool) : Statement (.envdetFw d r p) :=
  (encodeU_and 0x0B d r (optBit p 0) 0xFE).trans (by cases p <;> rfl)
theorem hwr (d r : SlotNo) : Statement (.hwr d r) := encodeU_and 0x10 d r 0 0xFF
theorem fwr (d r : SlotNo) : Statement (.fwr d r) := encodeU_and 0x11 d r 0 0xFF
theorem dcrem (d r : SlotNo) : Statement (.dcrem d r) := encodeU_and 0x12 d r 0 0xFF
theorem dcoff (d r : SlotNo) : Statement (.dcoff d r) := encodeU_and 0x13 d r 0 0xFF
theorem diff (d r : SlotNo) : Statement (.diff d r) := encodeU_and 0x14 d r 0 0xFF
theorem adiff (d r : SlotNo) : Statement (.adiff d r) := encodeU_and 0x15 d r 0 0xFF
theorem integ (d r : SlotNo) : Statement (.integ d r) := encodeU_and 0x16 d r 0 0xFF
theorem ammodSin (d m t : SlotNo) : Statement (.ammodSin d m t) := encodeG_and 0x20 d m t
theorem ammodTri (d m t : SlotNo) : Statement (.ammodTri d m t) := encodeG_and 0x21 d m t
theorem ammodSqr (d m t : SlotNo) : Statement (.ammodSqr d m t) := encodeG_and 0x22 d m t
theorem ammodIdx (d m t : SlotNo) : Statement (.ammodIdx d m t) := encodeG_and 0x23 d m t
theorem fmmod (d m t : SlotNo) : Statement (.fmmod d m t) := encodeG_and 0x24 d m t
theorem amdemod (d r : SlotNo) (x : Bool) : Statement (.amdemod d r x) :=
  (encodeU_and 0x30 d r (optBit x 0) 0xFE).trans (by cases x <;> rfl)
theorem fmdemod (d r : SlotNo) (o p x : Bool) : Statement (.fmdemod d r o p x) :=
  (encodeU_and 0x31 d r (optBit o 0 ||| optBit p 1 ||| optBit x 2) 0xF8).trans (by cases o <;> cases p <;> cases x <;> rfl)

end Sys2Proof.Laws.MatchesRow
end

