-- ==== Sys2Proof/Laws/Step.lean ====
section
/-! SUPPORT. Everything one step can do, said once: `step_cases`, `hostOp_cases`, `issue_cases`. -/

namespace Sys2Proof.Machine

variable {s t : State}

/-! ## The updates of host operations, field by field -/

/-- R33: what a write to `LEN` can do. -/
theorem State.writeLen_cases (s : State) (d : SlotNo) (n : Nat) :
    (n ≤ s.capN ∧ s.writeLen d n = { s with len := s.len.set d n }) ∨ (s.capN < n ∧ s.writeLen d n = s) := by
  unfold State.writeLen
  split
  · exact .inl ⟨‹_›, rfl⟩
  · exact .inr ⟨by omega, rfl⟩

/-- R52: what a storing register write can do. -/
theorem State.storeReg_cases (s : State) (r : Nat) (v : BitVec 64) :
    (∃ (d : SlotNo) (n : Nat), n ≤ s.capN ∧ s.storeReg r v = { s with len := s.len.set d n }) ∨
    (∃ p k, s.storeReg r v = { s with p := p, k := k }) := by
  unfold State.storeReg
  split
  · rcases s.writeLen_cases ‹_› v.toNat with ⟨h, e⟩ | ⟨-, e⟩
    · exact .inl ⟨_, _, h, e⟩
    · exact .inr ⟨s.p, s.k, e⟩
  · exact .inr ⟨_, _, rfl⟩

/-- R30: what a write to `CTRL` can do. -/
theorem State.control_cases (s : State) (v : BitVec 64) :
    (v.getLsbD 1 = true ∧ s.control v = s.resetBlock) ∨
    (v.getLsbD 1 = false ∧ v.getLsbD 0 = true ∧ s.control v = s.acknowledge) ∨
    (v.getLsbD 1 = false ∧ v.getLsbD 0 = false ∧ s.control v = s) := by
  unfold State.control
  cases v.getLsbD 1 <;> cases v.getLsbD 0 <;> simp

/-! ## The issue and the host operations -/

/-- R244, R246: everything an issue can answer. -/
theorem issue_cases {w : BitVec 32} (h : issue w s = .next t) :
    (s.status.fault = true ∧ t = { s with cmd := w }) ∨
    (s.status.fault = false ∧ (∃ e, decode w = .error e) ∧
      t = ({ s with cmd := w } : State).accept.raise { cls := .illegalCommand, info := w.setWidth 64 }) ∨
    (s.status.fault = false ∧ ∃ i, decode w = .ok i ∧ exec i { s with cmd := w } = .next t) := by
  unfold issue at h
  split at h
  · cases h; exact .inl ⟨‹_›, rfl⟩
  · rename_i hf
    rw [Bool.not_eq_true] at hf
    split at h
    · cases h; exact .inr (.inl ⟨hf, ⟨_, ‹_›⟩, rfl⟩)
    · exact .inr (.inr ⟨hf, _, ‹_›, h⟩)

/-- Everything a host operation can answer. -/
theorem hostOp_cases {op : HostOp} (h : hostOp op s = .next t) :
    (∃ v, t = s.answer v) ∨
    (∃ v, op = .writeReg 0x20 v ∧ issue (issuedWord v) s = .next t) ∨
    (∃ v, op = .writeReg 0x24 v ∧ t = s.control v) ∨
    (∃ r v, op = .writeReg r v ∧ r ≠ 0x20 ∧ r ≠ 0x24 ∧ t = s.storeReg r v) ∨
    (∃ (d : SlotNo) (i : Nat) (v : F64), i < s.capN ∧ t = { s with mem := s.mem.write d i v }) ∨
    (op = .extReset ∧ t = s.resetBlock) := by
  cases op with
  | readReg r => cases h; exact .inl ⟨_, rfl⟩
  | writeReg r v =>
    simp only [hostOp, writeReg] at h
    split at h
    · subst_vars; exact .inr (.inl ⟨v, rfl, h⟩)
    · split at h
      · subst_vars; cases h; exact .inr (.inr (.inl ⟨v, rfl, rfl⟩))
      · cases h; exact .inr (.inr (.inr (.inl ⟨r, v, rfl, ‹_›, ‹_›, rfl⟩)))
  | readSample d i =>
    simp only [hostOp, readSample] at h
    split at h
    · split at h
      · cases h; exact .inl ⟨_, rfl⟩
      · cases h
    · cases h
  | writeSample d i v =>
    simp only [hostOp, writeSample] at h
    split at h
    · split at h
      · cases h; exact .inr (.inr (.inr (.inr (.inl ⟨_, i, v, ‹_›, rfl⟩))))
      · cases h
    · cases h
  | extReset => cases h; exact .inr (.inr (.inr (.inr (.inr ⟨rfl, rfl⟩))))

/-- Everything a step can answer: nothing to do, or the host's next operation. -/
theorem step_cases (h : step s = .next t) :
    (s.ops = [] ∧ t = s) ∨ (∃ op rest, s.ops = op :: rest ∧ hostOp op { s with ops := rest } = .next t) := by
  unfold step hostTurn at h
  split at h
  · cases h; exact .inl ⟨‹_›, rfl⟩
  · exact .inr ⟨_, _, ‹_›, h⟩

/-- A step with an operation to make is that operation. -/
theorem step_cons {op : HostOp} {rest : List HostOp} (h : s.ops = op :: rest) :
    step s = hostOp op { s with ops := rest } := by
  unfold step hostTurn
  rw [h]

end Sys2Proof.Machine
end

