-- ==== Sys2Proof/Laws/Registers.lean ====
section
/-! SUPPORT. The register map: which numbers name a register of which kind, and read after write (10_state.md R21 to R31). -/

namespace Sys2Proof.Machine

theorem ParamRegs.read_eq_none (p : ParamRegs) {r : Nat} (h : 0x0C < r) : p.read r = none := by
  unfold ParamRegs.read
  split <;> first | omega | rfl

theorem CountRegs.read_eq_none (k : CountRegs) {r : Nat} (h : r < 0x10 ∨ 0x15 < r) : k.read r = none := by
  unfold CountRegs.read
  split <;> first | omega | rfl

theorem ParamRegs.write_eq_self (p : ParamRegs) {r : Nat} (v : F64) (h : 0x0C < r) : p.write r v = p := by
  unfold ParamRegs.write
  split <;> first | omega | rfl

theorem CountRegs.write_eq_self (k : CountRegs) {r : Nat} (n : BitVec 32) (h : r < 0x10 ∨ 0x15 < r) : k.write r n = k := by
  unfold CountRegs.write
  split <;> first | omega | rfl

theorem lenSlot_eq_none {r : Nat} (h : r < 0x30 ∨ 0x40 ≤ r) : lenSlot r = none := by
  unfold lenSlot
  rw [dif_neg]
  omega

@[simp] theorem lenSlot_len (d : SlotNo) : lenSlot (0x30 + d.val) = some d := by
  unfold lenSlot
  rw [dif_pos (by omega)]
  simp

theorem State.readSystem_eq_none (s : State) {r : Nat} (h : r < 0x20 ∨ r = 0x25 ∨ 0x28 < r) : s.readSystem r = none := by
  unfold State.readSystem
  split <;> first | omega | rfl

theorem ParamRegs.read_write (p : ParamRegs) {r : Nat} (q : Nat) (v : F64) (h : r ≤ 0x0C) :
    (p.write r v).read q = if q = r then some v else p.read q := by
  by_cases hq : 0x0C < q
  · rw [ParamRegs.read_eq_none _ hq, ParamRegs.read_eq_none _ hq, if_neg (by omega)]
  · have : q ≤ 0x0C := by omega
    interval_cases r <;> interval_cases q <;> rfl

theorem CountRegs.read_write (k : CountRegs) {r : Nat} (q : Nat) (n : BitVec 32) (h : 0x10 ≤ r) (h' : r ≤ 0x15) :
    (k.write r n).read q = if q = r then some n else k.read q := by
  by_cases hq : q < 0x10 ∨ 0x15 < q
  · rw [CountRegs.read_eq_none _ hq, CountRegs.read_eq_none _ hq, if_neg (by omega)]
  · have : 0x10 ≤ q := by omega
    have : q ≤ 0x15 := by omega
    interval_cases r <;> interval_cases q <;> rfl

/-- A write to a parameter register is a write to it alone. -/
theorem State.storeReg_param (s : State) {r : Nat} (v : BitVec 64) (h : r ≤ 0x0C) :
    s.storeReg r v = { s with p := s.p.write r v } := by
  unfold State.storeReg
  rw [lenSlot_eq_none (by omega)]
  simp only [CountRegs.write_eq_self _ _ (show r < 0x10 ∨ 0x15 < r by omega)]

/-- A write to an integer register is a write of the low half to it alone. -/
theorem State.storeReg_count (s : State) {r : Nat} (v : BitVec 64) (h : 0x10 ≤ r) (h' : r ≤ 0x15) :
    s.storeReg r v = { s with k := s.k.write r (v.setWidth 32) } := by
  unfold State.storeReg
  rw [lenSlot_eq_none (by omega)]
  simp only [ParamRegs.write_eq_self _ _ (show 0x0C < r by omega)]

end Sys2Proof.Machine
end

