-- ==== Sys2Proof/Machine/Program.lean ====
section
/-! DEFINITION. The host's statements (30_encoding.md R84, R85) as syntax trees, each as the host operations it stands for,
and when a run succeeded (45_system.md R250). The letters of the syntax are left out (log entry 19). -/

namespace Sys2Proof.Machine

/-- R21: the parameter registers by name. -/
inductive ParamName where
  | fs | dur | fc | fm | am | ac | mu | beta | cut | low | high | const | cmult
  deriving DecidableEq, Repr

/-- R24: the integer registers by name. -/
inductive CountName where
  | order | bpord | win | dcwin | envdiv | dcmult
  deriving DecidableEq, Repr

/-- R26: the system registers by name. -/
inductive SystemName where
  | cmd | status | cause | info | ctrl | capn | capw | capb
  | len (slot : SlotNo)
  deriving DecidableEq, Repr

/-- A register a statement can name. -/
inductive RegName where
  | param (r : ParamName)
  | count (r : CountName)
  | system (r : SystemName)
  deriving DecidableEq, Repr

/-- R21: the number of a parameter register. -/
def ParamName.number : ParamName → Nat
  | .fs => 0x00
  | .dur => 0x01
  | .fc => 0x02
  | .fm => 0x03
  | .am => 0x04
  | .ac => 0x05
  | .mu => 0x06
  | .beta => 0x07
  | .cut => 0x08
  | .low => 0x09
  | .high => 0x0A
  | .const => 0x0B
  | .cmult => 0x0C

/-- R24: the number of an integer register. -/
def CountName.number : CountName → Nat
  | .order => 0x10
  | .bpord => 0x11
  | .win => 0x12
  | .dcwin => 0x13
  | .envdiv => 0x14
  | .dcmult => 0x15

/-- R26: the number of a system register. -/
def SystemName.number : SystemName → Nat
  | .cmd => 0x20
  | .status => 0x21
  | .cause => 0x22
  | .info => 0x23
  | .ctrl => 0x24
  | .capn => 0x26
  | .capw => 0x27
  | .capb => 0x28
  | .len d => 0x30 + d.val

/-- R85: the number of a register. -/
def RegName.number : RegName → Nat
  | .param r => r.number
  | .count r => r.number
  | .system r => r.number

/-- R84, R85: one statement of a host program. -/
inductive HostStatement where
  /-- R84: a command statement -/
  | command (i : Instr)
  /-- `WRP name, value` -/
  | wrp (r : ParamName) (v : F64)
  /-- `WRK name, n` -/
  | wrk (r : CountName) (n : BitVec 64)
  /-- `SETLEN bS, n` -/
  | setlen (d : SlotNo) (n : BitVec 64)
  /-- `WRS bS, i, value` -/
  | wrs (d : SlotNo) (i : Nat) (v : F64)
  /-- `RDS bS, i` -/
  | rds (d : SlotNo) (i : Nat)
  /-- `RDR name` -/
  | rdr (r : RegName)
  /-- `CLRF` -/
  | clrf
  /-- `SRST` -/
  | srst
  /-- `LOAD bS, [v0, ..., v(n-1)]`, a pseudo-statement -/
  | load (d : SlotNo) (vs : List F64)
  /-- `EXPECT bS = [v0, ...]`, a pseudo-statement: its reads, one for each listed value (log entry 19); `State.meets`
  compares -/
  | expect (d : SlotNo) (vs : List F64)
  deriving DecidableEq, Repr

/-- R85: the writes `WRS bS, i, v` of a list, from index `i` up. -/
def loadFrom (d : SlotNo) (i : Nat) : List F64 → List HostOp
  | [] => []
  | v :: rest => .writeSample d.val i v :: loadFrom d (i + 1) rest

/-- R84, R85: the host operations of a statement, in order. DESIGN CHOICE (log entry 19): R85 does not say whether the `i` of
`EXPECT` run over the list or below `LEN`; here they run over the list, so a list longer than `LEN` ends in a refused
read. -/
def HostStatement.ops : HostStatement → List HostOp
  | .command i => [.writeReg 0x20 ((encode i).setWidth 64)]
  | .wrp r v => [.writeReg r.number v]
  | .wrk r n => [.writeReg r.number n]
  | .setlen d n => [.writeReg (0x30 + d.val) n]
  | .wrs d i v => [.writeSample d.val i v]
  | .rds d i => [.readSample d.val i]
  | .rdr r => [.readReg r.number]
  | .clrf => [.writeReg 0x24 1]
  | .srst => [.writeReg 0x24 2]
  | .load d vs => loadFrom d 0 vs ++ [.writeReg (0x30 + d.val) (BitVec.ofNat 64 vs.length)]
  | .expect d vs => .readReg (0x30 + d.val) :: (List.range vs.length).map fun i => .readSample d.val i

/-- R85: what `EXPECT` compares: the slot holds exactly the listed samples. -/
def State.meets (s : State) (d : SlotNo) (vs : List F64) : Bool := decide (s.source d = vs)

/-- R250: the host has this program still to run. -/
def State.withProgram (s : State) (program : List HostStatement) : State :=
  { s with ops := program.flatMap HostStatement.ops }

/-- R250: a program has ended when every host operation of it has. -/
def State.ended (s : State) : Bool := s.ops.isEmpty

/-- R250, R315: the run succeeded for its last command exactly when `FAULT` = 0 and `DONE` = 1. -/
def State.succeeded (s : State) : Bool := !s.status.fault && s.status.done

end Sys2Proof.Machine
end

