-- ==== Sys2Proof/Tests/Slice0.lean ====
section
/-! SUPPORT. The model's own tests: the checks of WellFormed, words written out from the spec's encodings, the spec's exact
vectors (95_test_vectors.md), and for every statement with hypotheses a concrete witness that meets them. -/

namespace Sys2Proof.Tests

-- One theorem at a time: many kernel evaluations at once need more threads than a small machine has memory for.
set_option Elab.async false

open Sys2Proof Sys2Proof.Machine

/-! ## WellFormed refuses what it should -/

/-- R75: format U, `DST` = `SRC`. -/
theorem test_wf_refuses_shared_source : Instr.wf (.fwr 3 3) = false := by decide +kernel
/-- R75: format G, `DST` = `AUX1`. -/
theorem test_wf_refuses_dst_aux1 : Instr.wf (.ammodSin 1 1 2) = false := by decide +kernel
/-- R75: format G, `DST` = `AUX2`. -/
theorem test_wf_refuses_dst_aux2 : Instr.wf (.fmmod 1 2 1) = false := by decide +kernel
/-- R75: format G, `AUX1` = `AUX2`. -/
theorem test_wf_refuses_aux1_aux2 : Instr.wf (.ammodIdx 1 2 2) = false := by decide +kernel
theorem test_wf_accepts_distinct : Instr.wf (.lowpass 2 1) = true ∧ Instr.wf (.fmmod 15 14 13) = true := by decide +kernel
/-- R54: a read at `LEN`, and a slot of 16. -/
theorem test_wf_refuses_read : HostOp.wf 8 (fun _ => 3) (.readSample 2 3) = false ∧
    HostOp.wf 8 (fun _ => 3) (.readSample 16 0) = false ∧ HostOp.wf 8 (fun _ => 3) (.readSample 15 2) = true := by
  decide +kernel
/-- R53: a write at `MAXN`, and a slot of 16. -/
theorem test_wf_refuses_write : HostOp.wf 8 (fun _ => 0) (.writeSample 2 8 0) = false ∧
    HostOp.wf 8 (fun _ => 0) (.writeSample 16 0 0) = false ∧ HostOp.wf 8 (fun _ => 0) (.writeSample 15 7 0) = true := by
  decide +kernel

/-! ## Words written out from R71 and R80: OPC, DST, SRC, AUX1, AUX2, OPT -/

theorem test_decode_lowpass : decode 0b00000001001000010000000000000000 = .ok (.lowpass 2 1) := rfl
theorem test_decode_highpass : decode 0b00000010100101100000000000000000 = .ok (.highpass 9 6) := rfl
theorem test_decode_bandpass : decode 0b00000011000100000000000000000000 = .ok (.bandpass 1 0) := rfl
theorem test_decode_bandstop : decode 0b00000100010101000000000000000000 = .ok (.bandstop 5 4) := rfl
theorem test_decode_mavg : decode 0b00001000001100000000000000000001 = .ok (.mavg 3 0 true) := rfl
theorem test_decode_envdetRaw : decode 0b00001001101001010000000000000001 = .ok (.envdetRaw 10 5 true) := rfl
theorem test_decode_envdetHw : decode 0b00001010000100000000000000000000 = .ok (.envdetHw 1 0 false) := rfl
theorem test_decode_envdetFw : decode 0b00001011000011110000000000000001 = .ok (.envdetFw 0 15 true) := rfl
theorem test_decode_hwr : decode 0b00010000001000000000000000000000 = .ok (.hwr 2 0) := rfl
theorem test_decode_fwr : decode 0b00010001001100100000000000000000 = .ok (.fwr 3 2) := rfl
theorem test_decode_dcrem : decode 0b00010010011100000000000000000000 = .ok (.dcrem 7 0) := rfl
theorem test_decode_dcoff : decode 0b00010011110000110000000000000000 = .ok (.dcoff 12 3) := rfl
theorem test_decode_diff : decode 0b00010100010000000000000000000000 = .ok (.diff 4 0) := rfl
theorem test_decode_adiff : decode 0b00010101011101100000000000000000 = .ok (.adiff 7 6) := rfl
theorem test_decode_integ : decode 0b00010110011000000000000000000000 = .ok (.integ 6 0) := rfl
theorem test_decode_amdemod : decode 0b00110000010000100000000000000001 = .ok (.amdemod 4 2 true) := rfl
theorem test_decode_fmdemod : decode 0b00110001100110000000000000000011 = .ok (.fmdemod 9 8 true true false) := rfl
/-- R79: `PRIME` of FMDEMOD is bit 2. -/
theorem test_decode_fmdemod_prime : decode 0b00110001100110000000000000000100 = .ok (.fmdemod 9 8 false false true) := rfl
theorem test_decode_ammodSin : decode 0b00100000001000000001000000000000 = .ok (.ammodSin 2 1 0) := rfl
theorem test_decode_ammodTri : decode 0b00100001010100000100001100000000 = .ok (.ammodTri 5 4 3) := rfl
theorem test_decode_ammodSqr : decode 0b00100010100100001000011100000000 = .ok (.ammodSqr 9 8 7) := rfl
theorem test_decode_ammodIdx : decode 0b00100011011000000101010000000000 = .ok (.ammodIdx 6 5 4) := rfl
theorem test_decode_fmmod : decode 0b00100100111100001110110100000000 = .ok (.fmmod 15 14 13) := rfl
/-- 95 V4 and the illegal words listed under V6, each with its reason (R82). -/
theorem test_decode_illegal :
    decode 0x00000000 = .error .reservedOpcode ∧ decode 0x05000000 = .error .reservedOpcode ∧
    decode 0x17210000 = .error .reservedOpcode ∧ decode 0xFFFFFFFF = .error .reservedOpcode ∧
    decode 0x01211000 = .error .auxNotZero ∧ decode 0x20211000 = .error .srcNotZero ∧
    decode 0x20201001 = .error .optNotZero ∧ decode 0x31980008 = .error .optNotZero ∧
    decode 0x08300002 = .error .optNotZero := ⟨rfl, rfl, rfl, rfl, rfl, rfl, rfl, rfl, rfl⟩
theorem test_encode_words : encode (.bandstop 5 4) = 0x04540000 ∧ encode (.fmdemod 9 8 true true false) = 0x31980003 ∧
    encode (.ammodSin 2 1 0) = 0x20201000 := by decide +kernel
theorem test_decodeTableWord : decodeTableWord 32 0x08300001 = some (.mavg 3 0 true) ∧
    decodeTableWord 32 0x08300002 = none := by decide +kernel

/-! ## One command on a small state -/

/-- A block with room for 16 samples and windows of 16, holding `x` in slot 0. -/
def loaded (x : List F64) : State :=
  { State.reset with
    capN := 16, capW := 16, draws := 2
    len := State.reset.len.set 0 x.length, mem := State.reset.mem.replace 0 x 1 }

/-- The registers of `loaded` before a test sets some of them. -/
def pr : ParamRegs := State.reset.p
/-- See `pr`. -/
def kr : CountRegs := State.reset.k

/-- The command on `loaded x` with the given registers. -/
def run (i : Instr) (x : List F64) (p : ParamRegs) (k : CountRegs) : Host.Outcome State Fault Refusal :=
  exec i { loaded x with p := p, k := k }

/-- The sequence in slot `d` after a next state. -/
def slotAfter (d : SlotNo) : Host.Outcome State Fault Refusal → Option (List F64)
  | .next t => some (t.source d)
  | _ => none

/-- The lengths of three slots after a next state. -/
def lensAfter (a b c : SlotNo) : Host.Outcome State Fault Refusal → Option (Nat × Nat × Nat)
  | .next t => some (t.len[a], t.len[b], t.len[c])
  | _ => none

/-- `STATUS`, `CAUSE` and `INFO` after a next state. -/
def reportAfter : Host.Outcome State Fault Refusal → Option (BitVec 64 × BitVec 8 × BitVec 64)
  | .next t => some (t.status.word, t.cause, t.info)
  | _ => none

/-- `MU` after a next state. -/
def muAfter : Host.Outcome State Fault Refusal → Option F64
  | .next t => some t.p.mu
  | _ => none

/-- 95 P1, V26: `CUT` = 0 gives `ALPHA_LP` = 0. -/
theorem test_lowpass :
    slotAfter 1 (run (.lowpass 1 0)
        [0x4008000000000000, 0x401C000000000000, 0x4000000000000000, 0x4000000000000000]
        { pr with fs := 0x4020000000000000 }
        { kr with order := 2 }) =
      some [0x0000000000000000, 0x0000000000000000, 0x0000000000000000, 0x0000000000000000] := by decide +kernel
/-- 95 P1: `CUT` = 0 gives `ALPHA_HP` = 1, `ORDER` = 2. -/
theorem test_highpass :
    slotAfter 1 (run (.highpass 1 0)
        [0x4008000000000000, 0x401C000000000000, 0x4000000000000000, 0x4000000000000000]
        { pr with fs := 0x4020000000000000 }
        { kr with order := 2 }) =
      some [0x0000000000000000, 0x4010000000000000, 0xBFF0000000000000, 0xBFF0000000000000] := by decide +kernel
/-- R130 by hand: `LOW` = 0 and `HIGH` = +inf give the coefficients 1 and 1 (R10). -/
theorem test_bandpass :
    slotAfter 1 (run (.bandpass 1 0)
        [0x4008000000000000, 0x401C000000000000, 0x4000000000000000, 0x4000000000000000]
        { pr with fs := 0x4020000000000000, high := 0x7FF0000000000000 }
        kr) =
      some [0x0000000000000000, 0x4010000000000000, 0xBFF0000000000000, 0xBFF0000000000000] := by decide +kernel
/-- R132 by hand: the source minus the band-passed signal above. -/
theorem test_bandstop :
    slotAfter 1 (run (.bandstop 1 0)
        [0x4008000000000000, 0x401C000000000000, 0x4000000000000000, 0x4000000000000000]
        { pr with fs := 0x4020000000000000, high := 0x7FF0000000000000 }
        kr) =
      some [0x4008000000000000, 0x4008000000000000, 0x4008000000000000, 0x4008000000000000] := by decide +kernel
/-- 95 V7. -/
theorem test_mavg :
    slotAfter 1 (run (.mavg 1 0 false)
        [0x4008000000000000, 0x4018000000000000, 0x4022000000000000, 0x4028000000000000, 0x0000000000000000,
         0xC008000000000000]
        pr
        { kr with win := 3 }) =
      some [0x3FF0000000000000, 0x4008000000000000, 0x4018000000000000, 0x4022000000000000, 0x401C000000000000,
        0x4008000000000000] := by decide +kernel
/-- 95 V8. -/
theorem test_mavg_prime :
    slotAfter 1 (run (.mavg 1 0 true)
        [0x4008000000000000, 0x4018000000000000, 0x4022000000000000, 0x4028000000000000, 0x0000000000000000,
         0xC008000000000000]
        pr
        { kr with win := 3 }) =
      some [0x4008000000000000, 0x4010000000000000, 0x4018000000000000, 0x4022000000000000, 0x401C000000000000,
        0x4008000000000000] := by decide +kernel
/-- 95 V9 (R106). -/
theorem test_envdetRaw :
    slotAfter 1 (run (.envdetRaw 1 0 false)
        [0x3FF0000000000000, 0x4008000000000000, 0x4014000000000000, 0x401C000000000000]
        pr
        { kr with win := 2 }) =
      some [0x3FE0000000000000, 0x4000000000000000, 0x4010000000000000, 0x4018000000000000] := by decide +kernel
/-- 95 V15a. -/
theorem test_envdetHw :
    slotAfter 1 (run (.envdetHw 1 0 false)
        [0x0000000000000000, 0x4010000000000000, 0x0000000000000000, 0xC010000000000000, 0x0000000000000000,
         0x4020000000000000, 0x0000000000000000, 0xC020000000000000]
        pr
        { kr with win := 2 }) =
      some [0x0000000000000000, 0x4000000000000000, 0x4000000000000000, 0x0000000000000000, 0x0000000000000000,
        0x4010000000000000, 0x4010000000000000, 0x0000000000000000] := by decide +kernel
/-- 95 V15b. -/
theorem test_envdetFw :
    slotAfter 1 (run (.envdetFw 1 0 false)
        [0x0000000000000000, 0x4010000000000000, 0x0000000000000000, 0xC010000000000000, 0x0000000000000000,
         0x4020000000000000, 0x0000000000000000, 0xC020000000000000]
        pr
        { kr with win := 2 }) =
      some [0x0000000000000000, 0x4000000000000000, 0x4000000000000000, 0x4000000000000000, 0x4000000000000000,
        0x4010000000000000, 0x4010000000000000, 0x4010000000000000] := by decide +kernel
/-- 95 V15c. -/
theorem test_envdetFw_prime :
    slotAfter 1 (run (.envdetFw 1 0 true)
        [0xC010000000000000, 0x0000000000000000, 0x4010000000000000, 0x0000000000000000]
        pr
        { kr with win := 2 }) =
      some [0x4010000000000000, 0x4000000000000000, 0x4000000000000000, 0x4000000000000000] := by decide +kernel
/-- 95 V27, V27a: both zeros, the infinities, a NaN and a subnormal. -/
theorem test_hwr :
    slotAfter 1 (exec (.hwr 1 0) (loaded [0x3FF8000000000000, 0xC000000000000000, 0x8000000000000000, 0x7FF0000000000000,
      0xFFF0000000000000, 0x7FF8000000000001, 0x0000000000000001])) =
      some [0x3FF8000000000000, 0, 0, 0x7FF0000000000000, 0, 0, 0x0000000000000001] := by decide +kernel
/-- 95 V28; R14: a NaN keeps its payload. -/
theorem test_fwr :
    slotAfter 1 (exec (.fwr 1 0) (loaded [0x3FF8000000000000, 0xC000000000000000, 0x8000000000000000,
      0xFFF0000000000000, 0xFFF8000000000001])) =
      some [0x3FF8000000000000, 0x4000000000000000, 0, 0x7FF0000000000000, 0x7FF8000000000001] := by decide +kernel
/-- 95 V31. -/
theorem test_dcrem :
    slotAfter 1 (run (.dcrem 1 0)
        [0x4014000000000000, 0x4014000000000000, 0x4020000000000000, 0x4000000000000000]
        pr
        { kr with dcwin := 3 }) =
      some [0x0000000000000000, 0x0000000000000000, 0x4000000000000000, 0xC008000000000000] := by decide +kernel
/-- 95 V32. -/
theorem test_dcoff :
    slotAfter 1 (run (.dcoff 1 0)
        [0x4000000000000000, 0x4010000000000000]
        { pr with const := 0x3FF0000000000000 }
        kr) =
      some [0x3FF0000000000000, 0x4008000000000000] := by decide +kernel
/-- 95 V33. -/
theorem test_diff :
    slotAfter 1 (run (.diff 1 0)
        [0x3FF0000000000000, 0x4010000000000000, 0x4000000000000000, 0x4000000000000000]
        pr
        kr) =
      some [0x4008000000000000, 0xC000000000000000, 0x0000000000000000] := by decide +kernel
/-- 95 V34. -/
theorem test_adiff :
    slotAfter 1 (run (.adiff 1 0)
        [0x3FF0000000000000, 0x4010000000000000, 0x4000000000000000, 0x4000000000000000]
        pr
        kr) =
      some [0x4008000000000000, 0x4000000000000000, 0x0000000000000000] := by decide +kernel
/-- 95 V34a: the difference of an empty source is empty. -/
theorem test_diff_empty : slotAfter 1 (exec (.diff 1 0) (loaded [])) = some [] := by decide +kernel
/-- 95 V36: the running total is rounded before the division. -/
theorem test_integ :
    slotAfter 1 (run (.integ 1 0)
        [0x3FB999999999999A, 0x3FC999999999999A, 0x3FD3333333333333]
        { pr with fs := 0x4024000000000000 }
        kr) =
      some [0x3F847AE147AE147B, 0x3F9EB851EB851EBA, 0x3FAEB851EB851EBA] := by decide +kernel
/-- The registers of R188's example with `FC` = 0 and `FM` = 0. -/
def synth : ParamRegs :=
  { pr with fs := 0x4010000000000000, dur := 0x3FF0000000000000, am := 0x3FE0000000000000, ac := 0x3FF0000000000000 }
/-- R197: `FM` = 0 and `FC` = 0 give a zero message and signal; R183: the time base; R192: `MU`. -/
theorem test_ammodSin :
    slotAfter 2 (run (.ammodSin 0 1 2) [] synth kr) =
      some [0x0000000000000000, 0x3FD0000000000000, 0x3FE0000000000000, 0x3FE8000000000000] ∧
    muAfter (run (.ammodSin 0 1 2) [] synth kr) = some 0x3FE0000000000000 := by decide +kernel
/-- R189, R192: whatever `TRI` is, the time base, the three lengths and `MU`. -/
theorem test_ammodTri :
    slotAfter 2 (run (.ammodTri 0 1 2) [] synth kr) =
      some [0x0000000000000000, 0x3FD0000000000000, 0x3FE0000000000000, 0x3FE8000000000000] ∧
    lensAfter 0 1 2 (run (.ammodTri 0 1 2) [] synth kr) = some (4, 4, 4) ∧
    muAfter (run (.ammodTri 0 1 2) [] synth kr) = some 0x3FE0000000000000 := by decide +kernel
/-- R197: `FM` = 0 gives the message `+A` (R187: `SGN(+0.0)` is 1), `FC` = 0 a zero signal. -/
theorem test_ammodSqr :
    slotAfter 1 (run (.ammodSqr 0 1 2) [] synth kr) =
      some [0x3FE0000000000000, 0x3FE0000000000000, 0x3FE0000000000000, 0x3FE0000000000000] ∧
    slotAfter 0 (run (.ammodSqr 0 1 2) [] synth kr) = some [0, 0, 0, 0] := by decide +kernel
/-- R191 with `FM` = 0 and `FC` = 0: the message is 0, the carrier 1; `MU` is not written. -/
theorem test_ammodIdx :
    slotAfter 0 (run (.ammodIdx 0 1 2) [] synth kr) =
      some [0x3FF0000000000000, 0x3FF0000000000000, 0x3FF0000000000000, 0x3FF0000000000000] ∧
    muAfter (run (.ammodIdx 0 1 2) [] synth kr) = some 0 := by decide +kernel
/-- R193 to R196 with `FM` = 0 and `FC` = 0: the phase is 0 and the signal 1. -/
theorem test_fmmod :
    slotAfter 0 (run (.fmmod 0 1 2) [] synth kr) =
      some [0x3FF0000000000000, 0x3FF0000000000000, 0x3FF0000000000000, 0x3FF0000000000000] ∧
    slotAfter 1 (run (.fmmod 0 1 2) [] synth kr) = some [0, 0, 0, 0] := by decide +kernel
/-- 95 V44 (a): `CMULT` = 0 makes the low-pass all zeros. -/
theorem test_amdemod :
    slotAfter 1 (run (.amdemod 1 0 false)
        [0x0000000000000000, 0x4010000000000000, 0x0000000000000000, 0xC010000000000000, 0x0000000000000000,
         0x4020000000000000, 0x0000000000000000, 0xC020000000000000]
        { pr with fs := 0x4020000000000000, fc := 0x4000000000000000, fm := 0x4000000000000000 }
        kr) =
      some [0x0000000000000000, 0x0000000000000000, 0x0000000000000000, 0x0000000000000000, 0x0000000000000000,
        0x0000000000000000, 0x0000000000000000, 0x0000000000000000] := by decide +kernel
/-- 95 V44 (a) with `DCFIX`. -/
theorem test_amdemod_dcfix :
    slotAfter 1 (run (.amdemod 1 0 true)
        [0x0000000000000000, 0x4010000000000000, 0x0000000000000000, 0xC010000000000000, 0x0000000000000000,
         0x4020000000000000, 0x0000000000000000, 0xC020000000000000]
        { pr with fs := 0x4020000000000000, fc := 0x4000000000000000, fm := 0x4000000000000000 }
        kr) =
      some [0xBFF0000000000000, 0xBFF0000000000000, 0xBFF0000000000000, 0xBFF0000000000000, 0xBFF0000000000000,
        0xBFF0000000000000, 0xBFF0000000000000, 0xBFF0000000000000] := by decide +kernel
/-- R222 by hand: override `(0, +inf)` and `CMULT` = +inf give the coefficients 1 (R10), the windows are 1 and 2; stages
`[0, 4, -1, -1]`, `[4, 5, 0]`, `[4, 5, 0]`, `[0, 0.5, -2.5]`. -/
theorem test_fmdemod :
    slotAfter 1 (run (.fmdemod 1 0 true false false)
        [0x4008000000000000, 0x401C000000000000, 0x4000000000000000, 0x4000000000000000]
        { pr with fs := 0x4020000000000000, fm := 0x4000000000000000, high := 0x7FF0000000000000, cmult := 0x7FF0000000000000 }
        { kr with envdiv := 4, dcmult := 2 }) =
      some [0x0000000000000000, 0x3FE0000000000000, 0xC004000000000000] := by decide +kernel
/-- Registers with `LOW` = `HIGH`. -/
def degenerate : ParamRegs :=
  { pr with fs := 0x4020000000000000, fm := 0x4000000000000000, low := 0x4014000000000000, high := 0x4014000000000000 }
/-- R224: a degenerate override completes, one sample shorter, with `DONE` and `CORRECTED`. -/
theorem test_fmdemod_corrected :
    reportAfter (run (.fmdemod 1 0 true false false) [0, 0, 0, 0] degenerate kr) = some (6, 0, 0) ∧
    lensAfter 1 0 2 (run (.fmdemod 1 0 true false false) [0, 0, 0, 0] degenerate kr) = some (3, 4, 0) := by
  decide +kernel

/-! ## Faults and the frame (95 V50 to V58c) -/

/-- V50: the host's check too: from reset, with nothing placed but the word, the step runs it. -/
theorem test_v50 : reportAfter (step (State.reset.withFetchWord 32 0x01100000)) = some (1, 1, 0) := by decide +kernel
/-- V51: refused, `CMD` takes the word and nothing else changes. -/
theorem test_v51 :
    issue 0x10200000 { loaded [] with status := ⟨true, false, false⟩, cause := 1 } =
      .next { loaded [] with status := ⟨true, false, false⟩, cause := 1, cmd := 0x10200000 } := rfl
/-- V52. -/
theorem test_v52 :
    reportAfter (hostOp (.writeReg 0x24 1) { loaded [] with status := ⟨true, false, false⟩, cause := 1 }) =
      some (0, 0, 0) := by decide +kernel
/-- V53. -/
theorem test_v53 :
    reportAfter (hostOp (.writeReg 0x20 0) { loaded [] with status := ⟨false, false, true⟩ }) =
      some (1, 4, 0) := by decide +kernel
/-- V54. -/
theorem test_v54 :
    reportAfter (hostOp (.writeReg 0x20 0x10100000) { loaded [] with status := ⟨false, true, true⟩ }) =
      some (4, 0, 0) := by decide +kernel
/-- V55. -/
theorem test_v55 : reportAfter (hostOp (.writeReg 0x20 0x11330000) (loaded [])) =
    some (1, 5, 0x11330000) := by decide +kernel
/-- V56 to V58: the first failing check only. -/
theorem test_v56_v58 :
    reportAfter (run (.bandpass 1 0) [] pr { kr with order := 0 }) = some (1, 1, 0x00) ∧
    reportAfter (run (.bandpass 1 0) [] { pr with fs := 0x4020000000000000 } { kr with order := 0 }) =
      some (1, 1, 0x10) ∧
    reportAfter (run (.bandpass 1 0) [] { pr with fs := 0x4020000000000000 } kr) = some (1, 2, 0x0A) := by
  decide +kernel
/-- V58b, V58c: the upper half of a write to `WIN` is ignored; a length above `MAXN` is dropped. -/
theorem test_v58b_v58c :
    (match hostOp (.writeReg 0x12 0x0000000500000003) (loaded []) with | .next t => t.readReg 0x12 | _ => 0) = 3 ∧
    lensAfter 4 4 4 (hostOp (.writeReg 0x34 17) { loaded [] with len := (loaded []).len.set 4 2 }) = some (2, 2, 2) := by
  decide +kernel
/-- V59 to V62, with `MAXW` = 1000 and `MAXN` = 10000. -/
theorem test_count :
    (count 0x4039FFBE76C8B439 1000 0x41).toOption = some 25 ∧ (count 0x408F440000000000 1000 0x41).toOption = some 1000 ∧
    (count 0x408F480000000000 1000 0x41).toOption = none ∧ (count 0x3FE999999999999A 10000 0x40).toOption = some 0 ∧
    (count 0xC00C000000000000 1000 0x41).toOption = some 0 ∧ (count 0x403CFFFFFFFFFFFF 10000 0x40).toOption = some 28 ∧
    (count 0xFFF0000000000000 1000 0x41).toOption = some 0 := by decide +kernel
/-- R186: the default triangle at 0, 0.25, 0.5 and 0.75 (V39 divided by `AM`). -/
theorem test_triDefault :
    [0x0000000000000000, 0x3FD0000000000000, 0x3FE0000000000000, 0x3FE8000000000000].map (triDefault []) =
      [0xBFF0000000000000, 0x0000000000000000, 0x3FF0000000000000, 0x0000000000000000] := by decide +kernel
/-- R54, R53: outside the sample space the model refuses. -/
theorem test_refusals :
    hostOp (.readSample 0 2) (loaded [0, 0]) = .refused .readBeyondLength ∧
    hostOp (.readSample 16 0) (loaded [0, 0]) = .refused .readOutsideSlots ∧
    hostOp (.writeSample 3 16 0) (loaded [0, 0]) = .refused .writeOutsideSlots := ⟨rfl, rfl, rfl⟩


/-! ## Statements as host operations (95 P1, P2, the operations printed beside the statements) -/

theorem test_statements_p1 :
    [HostStatement.wrp .fs 0x4020000000000000, .wrp .cut 0, .wrk .order 2,
      .load 0 [0x4008000000000000, 0x401C000000000000, 0x4000000000000000, 0x4000000000000000], .command (.highpass 1 0),
      .command (.mavg 3 0 true)].flatMap HostStatement.ops =
    [.writeReg 0x00 0x4020000000000000, .writeReg 0x08 0, .writeReg 0x10 2, .writeSample 0 0 0x4008000000000000,
      .writeSample 0 1 0x401C000000000000, .writeSample 0 2 0x4000000000000000, .writeSample 0 3 0x4000000000000000,
      .writeReg 0x30 4, .writeReg 0x20 0x02100000, .writeReg 0x20 0x08300001] := by decide +kernel
theorem test_statements_p2 :
    [HostStatement.wrp .high 0x408F400000000000, .clrf, .srst, .setlen 15 7, .wrs 2 3 1, .rds 2 3,
      .rdr (.system .capw), .expect 4 [1, 2]].flatMap HostStatement.ops =
    [.writeReg 0x0A 0x408F400000000000, .writeReg 0x24 1, .writeReg 0x24 2, .writeReg 0x3F 7, .writeSample 2 3 1,
      .readSample 2 3, .readReg 0x27, .readReg 0x34, .readSample 4 0, .readSample 4 1] := by decide +kernel
/-- R250: a program's last operation, a refused one, a completed one. -/
theorem test_program_end :
    (match step ((loaded [0x3FF0000000000000]).withProgram [.command (.hwr 1 0)]) with
      | .next t => t.ended && t.succeeded && t.meets 1 [0x3FF0000000000000] | _ => false) = true ∧
    (match step (State.reset.withProgram [.command (.integ 1 0)]) with
      | .next t => t.ended && !t.succeeded | _ => false) = true := by decide +kernel

/-! ## Witnesses: for every statement with hypotheses, a state and operands that meet them all -/

/-- A block in which every command passes its checks. -/
def ready : State :=
  { loaded [0x4008000000000000, 0x401C000000000000, 0x4000000000000000, 0x4000000000000000] with
    p := { fs := 0x4020000000000000, dur := 0x3FF0000000000000, fc := 0x4000000000000000, fm := 0x4000000000000000
           am := 0x3FE0000000000000, ac := 0x3FF0000000000000, mu := 0x3FE0000000000000, beta := 0x3FF0000000000000
           cut := 0x3FF0000000000000, low := 0x3FF0000000000000, high := 0x4008000000000000
           const := 0x3FF0000000000000, cmult := 0x3FF0000000000000 }
    k := { order := 1, bpord := 1, win := 2, dcwin := 2, envdiv := 2, dcmult := 3 } }

/-- A block with a fault recorded. -/
def stuck : State := { ready with status := ⟨true, false, false⟩, cause := 1 }

/-- The 22 commands, the options of the demodulators and estimators at both values. -/
def commands : List Instr :=
  [.lowpass 1 0, .highpass 1 0, .bandpass 1 0, .bandstop 1 0, .mavg 1 0 false, .mavg 1 0 true, .envdetRaw 1 0 false,
    .envdetRaw 1 0 true, .envdetHw 1 0 false, .envdetHw 1 0 true, .envdetFw 1 0 false, .envdetFw 1 0 true] ++
  [.hwr 1 0, .fwr 1 0, .dcrem 1 0, .dcoff 1 0, .diff 1 0, .adiff 1 0, .integ 1 0, .ammodSin 0 1 2, .ammodTri 0 1 2,
    .ammodSqr 0 1 2, .ammodIdx 0 1 2, .fmmod 0 1 2, .amdemod 1 0 false, .amdemod 1 0 true] ++
  [.fmdemod 1 0 false false false, .fmdemod 1 0 true false false, .fmdemod 1 0 false true true, .fmdemod 15 0 true true true]

/-- The hypotheses of CommandsCompleteWhenTheirChecksPass and of every statement of a command's result. -/
theorem witness_CommandsCompleteWhenTheirChecksPass : ∀ i ∈ commands, ready.accepts i ∧ checksPass i ready := by
  unfold State.accepts checksPass
  decide +kernel

theorem witness_LowpassAndHighpassResults : ready.accepts (.lowpass 1 0) ∧ checksPass (.lowpass 1 0) ready ∧
    ready.accepts (.highpass 1 0) ∧ checksPass (.highpass 1 0) ready := by
  unfold State.accepts checksPass
  decide +kernel

theorem witness_BandpassAndBandstopResults : ready.accepts (.bandpass 1 0) ∧ checksPass (.bandpass 1 0) ready ∧
    ready.accepts (.bandstop 1 0) ∧ checksPass (.bandstop 1 0) ready := by
  unfold State.accepts checksPass
  decide +kernel

theorem witness_EstimatorCommandResults :
    ∀ i ∈ [Instr.mavg 1 0 true, .envdetRaw 1 0 true, .envdetHw 1 0 true, .envdetFw 1 0 true],
    ready.accepts i ∧ checksPass i ready := by
  unfold State.accepts checksPass
  decide +kernel

theorem witness_RectifierCommandResults : ready.status.fault = false ∧ (1 : SlotNo) ≠ 0 := by decide

theorem witness_DcRemoverCommandResults : ready.accepts (.dcrem 1 0) ∧ checksPass (.dcrem 1 0) ready ∧
    ready.status.fault = false ∧ (1 : SlotNo) ≠ 0 := by
  unfold State.accepts checksPass
  decide +kernel

theorem witness_DifferentiatorCommandResults : ready.status.fault = false ∧ (15 : SlotNo) ≠ 0 := by decide

theorem witness_IntegCommandResult : ready.accepts (.integ 1 0) ∧ F64.gt ready.p.fs F64.zero = true := by
  unfold State.accepts
  decide +kernel

theorem witness_AmOffsetCommandResults : ∀ i ∈ [Instr.ammodSin 0 1 2, .ammodTri 0 1 2, .ammodSqr 0 1 2],
    ready.accepts i ∧ checksPass i ready := by
  unfold State.accepts checksPass
  decide +kernel

theorem witness_AmIndexCommandResult : ready.accepts (.ammodIdx 0 1 2) ∧ checksPass (.ammodIdx 0 1 2) ready := by
  unfold State.accepts checksPass
  decide +kernel

theorem witness_FmmodCommandResult : ready.accepts (.fmmod 0 1 2) ∧ checksPass (.fmmod 0 1 2) ready := by
  unfold State.accepts checksPass
  decide +kernel

theorem witness_AmdemodCommandResult : ∀ b, ready.accepts (.amdemod 1 0 b) ∧ checksPass (.amdemod 1 0 b) ready := by
  unfold State.accepts checksPass
  decide +kernel

theorem witness_FmdemodCommandResult : ∀ o p x,
    ready.accepts (.fmdemod 1 0 o p x) ∧ checksPass (.fmdemod 1 0 o p x) ready := by
  unfold State.accepts checksPass
  decide +kernel

theorem witness_DecodeIsTheMaskMatchTable :
    (0x01210000 : BitVec 32) &&& (Instr.lowpass 2 1).mask = (Instr.lowpass 2 1).pattern ∧
    (0x01210000 : BitVec 32) &&& (Instr.lowpass 0 0).mask = (Instr.lowpass 0 0).pattern ∧
    decode 0x01210000 = .ok (.lowpass 2 1) := ⟨rfl, rfl, rfl⟩

theorem witness_EncodeOfDecodedWord : decode 0x31980007 = .ok (.fmdemod 9 8 true true true) := rfl

/-- The invariant has members that list samples. -/
theorem ready_inv : ready.Inv where
  capN_pos := by decide
  capN_lt := by decide
  capW_pos := by decide
  capW_lt := by decide
  len_le := by decide
  mem_wf := by decide
  mem_below := by decide
  epoch_lt := by decide
  fault_iff := by decide
  fault_not_done := by decide
  corrected_done := by decide
  no_cause_no_info := by decide
  cause_code := .inl rfl

/-- `ready` with the host about to issue `HWR b1, b0`. -/
def readyToIssue : State := ready.issueNext 0x10100000

theorem witness_EveryStepKeepsTheInvariant : readyToIssue.Inv ∧ ∃ t, step readyToIssue = .next t :=
  ⟨{ ready_inv with }, ⟨_, rfl⟩⟩

/-- A state with an operation to make that issues nothing, one with none, and one that issues a legal word. -/
theorem witness_StepRunsTheDecodedCommand :
    ({ ready with ops := [.readSample 0 0, .extReset] } : State).ops = .readSample 0 0 :: [.extReset] ∧ ready.ops = [] ∧
    readyToIssue.ops = .writeReg 0x20 0x10100000 :: [] ∧ decode (issuedWord 0x10100000) = .ok (.hwr 1 0) :=
  ⟨rfl, rfl, rfl, rfl⟩

theorem witness_FetchWordStepRunsTheTableWord : decodeTableWord 32 0x31980003 = some (.fmdemod 9 8 true true false) := rfl

theorem witness_IssueIsRefusedWhileFaultIsRecorded : stuck.status.fault = true ∧ 0x3F ≠ 0x20 ∧ 0x3F ≠ 0x24 ∧
    15 < stuck.capN ∧ 3 < stuck.len[(0 : SlotNo)] := by decide

theorem witness_IllegalWordRaisesIllegalCommand : ready.status.fault = false ∧
    ∀ i : Instr, issuedWord 0xFFFFFFFF01211000 &&& i.mask ≠ i.pattern :=
  ⟨rfl, fun i => by cases i <;> (simp only [Instr.mask, Instr.pattern]; decide)⟩

/-- Format U, and each pair of format G. -/
theorem witness_SharedSlotsRaiseBufferAlias : ready.status.fault = false ∧
    ((Instr.hwr 3 3).src? = some 3 ∧ (Instr.hwr 3 3).dests = [3]) ∧
    ((Instr.fmmod 1 1 2).src? = none ∧ (Instr.fmmod 1 1 2).dests = [1, 1, 2]) ∧
    ((Instr.fmmod 1 2 1).src? = none ∧ (Instr.fmmod 1 2 1).dests = [1, 2, 1]) ∧
    ((Instr.fmmod 2 1 1).src? = none ∧ (Instr.fmmod 2 1 1).dests = [2, 1, 1]) := by decide

/-- One command for each class the checks raise. -/
theorem witness_FirstFailingCheckIsRaised :
    (State.reset.accepts (.lowpass 1 0) ∧
      firstFailing (checkTable (.lowpass 1 0) State.reset) = some ⟨.invalidParameter, 0x00⟩) ∧
    (let s := { ready with p := { ready.p with high := ready.p.low } }
     s.accepts (.bandpass 1 0) ∧ firstFailing (checkTable (.bandpass 1 0) s) = some ⟨.degenerateFilterRange, 0x0A⟩) ∧
    (let s := { ready with k := { ready.k with dcmult := 9 } }
     s.accepts (.fmdemod 1 0 false false false) ∧
      firstFailing (checkTable (.fmdemod 1 0 false false false) s) = some ⟨.capacityExceeded, 0x42⟩) := by
  unfold State.accepts
  decide +kernel

/-- MAVG with `WIN` = 0, and an illegal word. -/
theorem witness_FaultingCommandChangesNothingElse :
    (let s := { ready with k := { ready.k with win := 0 } }
     ∃ t, exec (.mavg 1 0 false) s = .next t ∧ s.status.fault = false ∧ t.status.fault = true) ∧
    ∃ t, hostOp (.writeReg 0x20 0x08300002) ready = .next t ∧ ready.status.fault = false ∧ t.status.fault = true :=
  ⟨⟨_, rfl, rfl, rfl⟩, ⟨_, rfl, rfl, rfl⟩⟩

theorem witness_CommandsWriteOnlyTheirDestinations :
    (∃ t, exec (.hwr 1 0) ready = .next t) ∧ (Instr.hwr 1 0).wf = true ∧ (Instr.hwr 1 0).src? = some 0 :=
  ⟨⟨_, rfl⟩, rfl, rfl⟩

/-- A command that does not write `MU`, a refused one, and one that faults. -/
theorem witness_OnlyMuIsWrittenByCommands :
    ((∃ t, exec (.hwr 1 0) ready = .next t) ∧ (Instr.hwr 1 0).writesMu = false) ∧
    ((∃ t, exec (.ammodSin 0 1 2) stuck = .next t) ∧ stuck.status.fault = true) ∧
    ∃ t, exec (.ammodSin 0 0 2) ready = .next t ∧ t.status.fault = true :=
  ⟨⟨⟨_, rfl⟩, rfl⟩, ⟨⟨_, rfl⟩, rfl⟩, ⟨_, rfl, rfl⟩⟩

/-- A state for each way a command ends: refused, faulting, completing. -/
theorem witness_CommandsAlwaysEnd :
    exec (.hwr 1 0) stuck = .next stuck ∧
    (∃ t, exec (.hwr 1 1) ready = .next t ∧ t.status.fault = true) ∧
    ∃ t, exec (.hwr 1 0) ready = .next t ∧ t.status.done = true := ⟨rfl, ⟨_, rfl, rfl⟩, ⟨_, rfl, rfl⟩⟩

theorem witness_FaultIsStickyUntilAcknowledged :
    (∃ t, step { stuck with ops := [.readReg 0x21] } = .next t ∧ t.status.fault = true) ∧
    (∃ t, step { stuck with ops := [.writeReg 0x24 1] } = .next t ∧ t.status.fault = false) ∧
    ∃ t, step { stuck with ops := [.extReset] } = .next t ∧ t.status.fault = false :=
  ⟨⟨_, rfl, rfl⟩, ⟨_, rfl, rfl⟩, ⟨_, rfl, rfl⟩⟩

theorem witness_FaultsComeOnlyFromIssuedCommands :
    ∃ t, step (ready.issueNext 0x11330000) = .next t ∧ (ready.issueNext 0x11330000).status.fault = false ∧
      t.status.fault = true := ⟨_, rfl, rfl, rfl⟩

/-- FMDEMOD with `OVR` and `HIGH` = `LOW`, and a read that finds `CORRECTED` set. -/
theorem witness_CorrectedComesOnlyFromFmdemod :
    (let s := { ready with p := { ready.p with high := ready.p.low }, ops := [.writeReg 0x20 0x31100001] }
     reportAfter (step s) = some (6, 0, 0)) ∧
    reportAfter (step { ready with status := ⟨false, true, true⟩, ops := [.readReg 0x21] }) = some (6, 0, 0) := by
  decide +kernel

theorem witness_CapacitiesNeverChange : ∃ t, step { ready with ops := [.writeReg 0x24 2] } = .next t := ⟨_, rfl⟩

/-- Two states that differ in `CMD`, the faults last cleared and a slot the command does not read. -/
theorem witness_ResultsDependOnOperandsAlone :
    let s' := { ready with cmd := 7, len := ready.len.set 5 2 }
    ready.status.fault = false ∧ s'.status.fault = false ∧ ready.p = s'.p ∧ ready.k = s'.k ∧ ready.capN = s'.capN ∧
    ready.capW = s'.capW ∧ ready.draws = s'.draws ∧ (∀ r, (Instr.hwr 1 0).src? = some r → ready.source r = s'.source r) ∧
    (∃ t, exec (.hwr 1 0) ready = .next t ∧ t.status.done = true) ∧ ∃ t, exec (.hwr 1 0) s' = .next t :=
  ⟨rfl, rfl, rfl, rfl, rfl, rfl, rfl, fun r h => by cases h; rfl, ⟨_, rfl, rfl⟩, ⟨_, rfl⟩⟩

/-- The same with a command that faults in both. -/
theorem witness_ResultsDependOnOperandsAlone_fault :
    let s' := { ready with cmd := 7, len := ready.len.set 5 2 }
    (∃ t, exec (.hwr 1 1) ready = .next t ∧ t.status.fault = true) ∧ ∃ t, exec (.hwr 1 1) s' = .next t :=
  ⟨⟨_, rfl, rfl⟩, ⟨_, rfl⟩⟩

/-- Bits 1 and 0 of `CTRL` with the bits above them all 0 and all 1. -/
theorem witness_ClrfAcknowledges :
    [(1 : BitVec 64), 0xFFFFFFFFFFFFFFFD].all (fun v => !v.getLsbD 1 && v.getLsbD 0) ∧
    [(0 : BitVec 64), 0xFFFFFFFFFFFFFFFC].all (fun v => !v.getLsbD 1 && !v.getLsbD 0) ∧
    ready.Inv ∧ ready.status.fault = false := ⟨by decide, by decide, ready_inv, rfl⟩

theorem witness_SoftwareResetIsTheExternalReset : (2 : BitVec 64).getLsbD 1 = true ∧ (3 : BitVec 64).getLsbD 1 = true := by
  decide

theorem witness_ParameterWriteReadsBack : 0x00 ≤ 0x0C ∧ 0x0C ≤ 0x0C ∧ 0x0B ≠ 0x0C := by decide

theorem witness_CountWriteKeepsTheLow32Bits : 0x10 ≤ 0x10 ∧ 0x10 ≤ 0x15 ∧ 0x15 ≤ 0x15 ∧ 0x16 ≠ 0x15 := by decide

/-- `MAXN` itself, and one above. -/
theorem witness_LengthWriteIsDroppedAboveCapacity :
    (16 : BitVec 64).toNat ≤ ready.capN ∧ ready.capN < (17 : BitVec 64).toNat ∧
    (15 : SlotNo) ≠ 0 := by decide

/-- The ends of every reserved range, and the number after `LEN[15]`. -/
theorem witness_ReservedAndReadOnlyWritesAreDropped :
    ∀ r ∈ [0x0D, 0x0F, 0x16, 0x1F, 0x25, 0x29, 0x2F, 0x40, 2 ^ 64],
      ((0x0D ≤ r ∧ r ≤ 0x0F) ∨ (0x16 ≤ r ∧ r ≤ 0x1F) ∨ r = 0x25 ∨ (0x29 ≤ r ∧ r ≤ 0x2F) ∨ 0x40 ≤ r) ∧
      ¬(r = 0x21 ∨ r = 0x22 ∨ r = 0x23 ∨ r = 0x26 ∨ r = 0x27 ∨ r = 0x28) := by decide +kernel

theorem witness_SystemRegistersReadBack : ready.Inv := ready_inv

theorem witness_SampleWriteSetsOneSample : 15 < ready.capN ∧ 0 < ready.capN ∧ ((3 : SlotNo) ≠ 2 ∨ 15 ≠ 15) ∧
    ((2 : SlotNo) ≠ 2 ∨ 14 ≠ 15) ∧ (16 ≤ 16 ∨ ready.capN ≤ 0) ∧ (16 ≤ 15 ∨ ready.capN ≤ 16) := by decide

theorem witness_SampleReadReturnsTheStoredSample : 3 < ready.len[(0 : SlotNo)] ∧ 0 < ready.len[(0 : SlotNo)] ∧
    ready.len[(0 : SlotNo)] ≤ 4 := by decide

/-- The largest finite value, the least subnormal, and both zeros, whose sum is an exact zero. -/
theorem witness_AdditionRoundsOnceToNearestEven :
    F64.isFinite 0x7FEFFFFFFFFFFFFF = true ∧ F64.isFinite 0x8000000000000001 = true ∧
    F64.units 0x8000000000000000 + F64.units 0x0000000000000000 = 0 := by decide +kernel

theorem witness_MultiplicationRoundsOnceToNearestEven :
    F64.isFinite 0x7FEFFFFFFFFFFFFF = true ∧ F64.isFinite 0x8000000000000001 = true := by decide +kernel

theorem witness_DivisionRoundsOnceToNearestEven :
    F64.isFinite 0x7FEFFFFFFFFFFFFF = true ∧ F64.isFinite 0x8000000000000001 = true ∧
    F64.isZero 0x8000000000000001 = false := by decide +kernel

/-- A NaN operand; two infinities, of equal and of different sign; two zeros; a zero and an infinity. -/
theorem witness_InvalidOperationsGiveNaN :
    F64.isNaN 0x7FF0000000000001 = true ∧ F64.isInf 0x7FF0000000000000 = true ∧ F64.isInf 0xFFF0000000000000 = true ∧
    F64.sign 0x7FF0000000000000 ≠ F64.sign 0xFFF0000000000000 ∧ F64.isZero 0x8000000000000000 = true := by decide +kernel

/-- Both zeros and both largest finite values; the values that are no NaN at their ends. -/
theorem witness_InvalidOperationsGiveNaN_comparisons :
    [(0 : F64), 0x8000000000000000, 0x7FEFFFFFFFFFFFFF, 0xFFEFFFFFFFFFFFFF].all F64.isFinite ∧
    [(0x7FEFFFFFFFFFFFFF : F64), 0x7FF0000000000000, 0xFFEFFFFFFFFFFFFF, 0xFFF0000000000000].all (!F64.isNaN ·) := by
  decide +kernel

theorem witness_InfinitiesKeepTheirSigns :
    (F64.isFinite 0x0000000000000001 = true ∧ F64.isZero 0x0000000000000001 = false ∧
      F64.isZero 0x8000000000000000 = true) ∧
    (F64.isInf 0xFFF0000000000000 = true ∧ F64.isFinite 0x0000000000000001 = true) := by decide +kernel

theorem witness_TranscendentalAnchors :
    F64.isNaN 0x7FF8000000000000 = true ∧ F64.isInf 0x7FF0000000000000 = true ∧ F64.isInf 0xFFF0000000000000 = true := by
  decide +kernel

/-- Below 1, at 1, at the capacity and one above it, with the capacity 16. -/
theorem witness_DerivedCountIsTheFloorOrAFault :
    F64.isNaN 0xFFF8000000000000 = true ∧
    (F64.isFinite 0x3FEFFFFFFFFFFFFF = true ∧ F64.floorInt 0x3FEFFFFFFFFFFFFF < 1) ∧
    (F64.isFinite 0x3FF0000000000000 = true ∧ 1 ≤ F64.floorInt 0x3FF0000000000000 ∧
      F64.floorInt 0x3FF0000000000000 ≤ (16 : Nat)) ∧
    (F64.isFinite 0x4030FFFFFFFFFFFF = true ∧ F64.floorInt 0x4030FFFFFFFFFFFF ≤ (16 : Nat)) ∧
    (F64.isFinite 0x4031000000000000 = true ∧ 1 ≤ F64.floorInt 0x4031000000000000 ∧
      ((16 : Nat) : Int) < F64.floorInt 0x4031000000000000) := by decide +kernel

/-- The least and the greatest count of `f64(n)`; floors of both zeros, just below 1 and just below 0. -/
theorem witness_DerivedCountIsTheFloorOrAFault_conversions :
    (0 < 2 ^ 32 ∧ 4294967295 < 2 ^ 32) ∧
    [(0 : F64), 0x8000000000000000, 0x3FEFFFFFFFFFFFFF].all (fun v => v.isFinite && v.floorInt == 0) ∧
    F64.isFinite 0x8000000000000001 = true ∧ F64.floorInt 0x8000000000000001 = -1 := by decide +kernel

theorem witness_EstimatorIsTheRunningSumMean : 1 ≤ 1 := by decide

theorem witness_CascadesForceIndexZero : 1 ≤ 1 ∧ [F64.one] ≠ [] := by decide

theorem witness_FmdemodStartsAtZeroOneShorter : ready.accepts (.fmdemod 1 0 false false false) ∧
    checksPass (.fmdemod 1 0 false false false) ready ∧ 2 ≤ ready.len[(0 : SlotNo)] := by
  unfold State.accepts checksPass
  decide +kernel

theorem witness_AmdemodFirstSample : ready.Inv ∧ ready.accepts (.amdemod 1 0 true) ∧
    checksPass (.amdemod 1 0 true) ready ∧ 1 ≤ ready.len[(0 : SlotNo)] := by
  refine ⟨ready_inv, ?_⟩
  unfold State.accepts checksPass
  decide +kernel


end Sys2Proof.Tests
end

section
/-! PROOFS. The invariant is kept by every step (statement EveryStepKeepsTheInvariant): the invariant in two halves, the sample
space and the fault registers; each update of the state keeps each half; a step is one of those updates. -/

namespace Sys2Proof.Machine

/-! ## The two halves of the invariant -/

/-- The clauses of the invariant on the capacities and the sample space, for draws below `lim`. -/
structure State.SpaceOk (s : State) (lim : Nat) : Prop where
  capN_pos : 1 ≤ s.capN
  capN_lt : s.capN < 2 ^ 32
  capW_pos : 1 ≤ s.capW
  capW_lt : s.capW < 2 ^ 32
  len_le : ∀ d : SlotNo, s.len[d] ≤ s.capN
  mem_wf : s.mem.wf = true
  mem_below : ∀ d : SlotNo, cellsBelow s.capN s.mem.slots[d].written = true
  epoch_lt : ∀ d : SlotNo, s.mem.slots[d].epoch < lim

/-- The clauses of the invariant on `STATUS`, `CAUSE` and `INFO`. -/
structure State.FlagsOk (s : State) : Prop where
  fault_iff : s.status.fault = true ↔ s.cause ≠ 0
  fault_not_done : s.status.fault = true → s.status.done = false
  corrected_done : s.status.corrected = true → s.status.done = true
  no_cause_no_info : s.cause = 0 → s.info = 0
  cause_code : s.cause = 0 ∨ ∃ c : FaultClass, s.cause = c.code

theorem State.Inv.spaceOk {s : State} (h : s.Inv) : s.SpaceOk s.draws := { h with }

theorem State.Inv.flagsOk {s : State} (h : s.Inv) : s.FlagsOk := { h with }

theorem State.inv_of_halves {s : State} (h : s.SpaceOk s.draws) (g : s.FlagsOk) : s.Inv := { h, g with }

/-! ## Updates of the sample space -/

theorem len_set_le {len : Vector Nat 16} {cap n : Nat} (h : ∀ e : SlotNo, len[e] ≤ cap) (hn : n ≤ cap) (d e : SlotNo) :
    (len.set d n)[e] ≤ cap := by
  simp only [Fin.getElem_fin, Vector.getElem_set]
  split
  · exact hn
  · exact h e

theorem State.SpaceOk.mono {s : State} {lim lim' : Nat} (h : s.SpaceOk lim) (hl : lim ≤ lim') : s.SpaceOk lim' :=
  { h with epoch_lt := fun d => Nat.lt_of_lt_of_le (h.epoch_lt d) hl }

/-- R33: a write to `LEN` within the capacity. -/
theorem State.SpaceOk.setLen {s : State} {lim n : Nat} (h : s.SpaceOk lim) (d : SlotNo) (hn : n ≤ s.capN) :
    ({ s with len := s.len.set d n } : State).SpaceOk lim :=
  { h with len_le := len_set_le h.len_le hn d }

/-- R53: a sample written by the host. -/
theorem State.SpaceOk.writeSample {s : State} {lim i : Nat} (h : s.SpaceOk lim) (d : SlotNo) (v : F64) (hi : i < s.capN) :
    ({ s with mem := s.mem.write d i v } : State).SpaceOk lim where
  __ := h
  mem_wf := Memory.wf_write h.mem_wf d i v
  mem_below e := by
    by_cases he : e = d
    · subst he; simpa [Memory.write] using cellsBelow_insertCell v hi (h.mem_below e)
    · rw [Memory.slots_write_other s.mem he]; exact h.mem_below e
  epoch_lt e := by
    by_cases he : e = d
    · subst he; simpa [Memory.write] using h.epoch_lt e
    · rw [Memory.slots_write_other s.mem he]; exact h.epoch_lt e

/-- R246 step 8: a result within the capacity, whose draw is below the limit. -/
theorem State.SpaceOk.writeSlot {s : State} {lim : Nat} (h : s.SpaceOk lim) (d : SlotNo) {y : List F64}
    (hy : y.length ≤ s.capN) (hd : s.draws < lim) : (s.writeSlot d y).SpaceOk lim where
  __ := h
  len_le := len_set_le h.len_le hy d
  mem_wf := Memory.wf_replace h.mem_wf d y s.draws
  mem_below e := by
    rw [State.writeSlot_mem]
    by_cases he : e = d
    · subst he
      rw [Memory.slots_replace_same]
      exact cellsBelow_cellsFrom (by rw [Nat.zero_add]; exact hy)
    · rw [Memory.slots_replace_other s.mem he]; exact h.mem_below e
  epoch_lt e := by
    rw [State.writeSlot_mem]
    by_cases he : e = d
    · subst he; rw [Memory.slots_replace_same]; exact hd
    · rw [Memory.slots_replace_other s.mem he]; exact h.epoch_lt e

/-- R300: a reset of the block. -/
theorem State.SpaceOk.resetBlock {s : State} {lim : Nat} (h : s.SpaceOk lim) :
    s.resetBlock.SpaceOk (s.draws + 1) where
  capN_pos := h.capN_pos
  capN_lt := h.capN_lt
  capW_pos := h.capW_pos
  capW_lt := h.capW_lt
  len_le d := by simp
  mem_wf := Memory.wf_unspecified s.draws
  mem_below d := by rw [State.resetBlock_mem, Memory.slots_unspecified]; rfl
  epoch_lt d := by rw [State.resetBlock_mem, Memory.slots_unspecified]; exact Nat.lt_succ_self _

/-- R246 steps 7, 8: what the effect of a command leaves in the sample space. -/
theorem Effect.spaceOk {i : Instr} {a u : State} (h : Effect i a u) (ha : a.SpaceOk (a.draws + 1)) :
    u.SpaceOk (a.draws + 1) ∧ u.draws = a.draws := by
  rcases h with ⟨d, r, y, c, -, -, hy, rfl, -⟩ | ⟨d, m, t, x, y, z, n, -, hn, hx, hy, hz, h⟩
  · exact ⟨{ ha.writeSlot d (hy.trans (ha.len_le r)) (Nat.lt_succ_self _) with }, rfl⟩
  · have hb : (a.writeBundle d m t x y z).SpaceOk (a.draws + 1) :=
      ((ha.writeSlot t (by omega) (Nat.lt_succ_self _)).writeSlot m (by rw [State.writeSlot_capN]; omega)
        (Nat.lt_succ_self _)).writeSlot d (by rw [State.writeSlot_capN, State.writeSlot_capN]; omega) (Nat.lt_succ_self _)
    rcases h with ⟨-, rfl⟩ | ⟨-, v, rfl⟩
    · exact ⟨hb, rfl⟩
    · exact ⟨{ hb with }, rfl⟩

/-! ## Updates of the fault registers -/

/-- R270: whatever is raised, the fault registers tell one story. -/
theorem State.flagsOk_raise (s : State) (r : Raise) : (s.raise r).FlagsOk where
  fault_iff := by cases hr : r.cls <;> simp [hr, FaultClass.code]
  fault_not_done _ := rfl
  corrected_done h := by cases h
  no_cause_no_info h := by cases hr : r.cls <;> simp [hr, FaultClass.code] at h
  cause_code := .inr ⟨r.cls, rfl⟩

theorem State.flagsOk_resetBlock (s : State) : s.resetBlock.FlagsOk where
  fault_iff := by simp
  fault_not_done _ := rfl
  corrected_done h := by cases h
  no_cause_no_info _ := rfl
  cause_code := .inl rfl

/-- R274: `CLRF`. -/
theorem State.FlagsOk.acknowledge {s : State} (h : s.FlagsOk) : s.acknowledge.FlagsOk where
  fault_iff := by simp
  fault_not_done h := by cases h
  corrected_done := h.corrected_done
  no_cause_no_info _ := rfl
  cause_code := .inl rfl

/-- The effect of a command leaves `FAULT`, `CAUSE` and `INFO` as they were. -/
theorem Effect.flags_kept {i : Instr} {a u : State} (h : Effect i a u) :
    u.status.fault = a.status.fault ∧ u.cause = a.cause ∧ u.info = a.info := by
  rcases h with ⟨d, r, y, c, -, -, -, rfl, -⟩ | ⟨d, m, t, x, y, z, n, -, -, -, -, -, ⟨-, rfl⟩ | ⟨-, v, rfl⟩⟩ <;>
    exact ⟨rfl, rfl, rfl⟩

/-- R246 step 9: `DONE` without a fault. -/
theorem State.FlagsOk.complete {s u : State} (h : s.FlagsOk) (hs : s.status.fault = false)
    (hf : u.status.fault = s.status.fault) (hc : u.cause = s.cause) (hi : u.info = s.info) : u.complete.FlagsOk where
  fault_iff := by
    rw [State.complete_status, State.complete_cause, hf, hc]
    exact h.fault_iff
  fault_not_done hx := by rw [State.complete_status, hf, hs] at hx; cases hx
  corrected_done _ := rfl
  no_cause_no_info := by
    rw [State.complete_cause, State.complete_info, hc, hi]
    exact h.no_cause_no_info
  cause_code := by
    rw [State.complete_cause, hc]
    exact h.cause_code

/-! ## Commands, host operations, steps -/

/-- R270: a state of the invariant that raises a fault stays in it. -/
theorem State.Inv.raise_accept {s : State} (h : s.Inv) (r : Raise) : (s.accept.raise r).Inv :=
  State.inv_of_halves { h.spaceOk with } (State.flagsOk_raise _ r)

/-- The invariant says nothing on `CMD`, the registers the host writes freely, or the host's side. -/
theorem State.Inv.setFree {s : State} (h : s.Inv) (p : ParamRegs) (k : CountRegs) (cmd : BitVec 32) (ops : List HostOp)
    (got : List (BitVec 64)) : ({ s with p := p, k := k, cmd := cmd, ops := ops, got := got } : State).Inv := { h with }

theorem State.Inv.exec {i : Instr} {s t : State} (h : s.Inv) (he : exec i s = .next t) : t.Inv := by
  rcases exec_cases he with ⟨-, rfl⟩ | ⟨-, r, rfl⟩ | ⟨hs, -, u, rfl, hu⟩
  · exact h
  · exact h.raise_accept r
  · have hspace : s.accept.SpaceOk (s.draws + 1) := { h.spaceOk.mono (Nat.le_succ _) with }
    obtain ⟨hu1, hu2⟩ := hu.spaceOk hspace
    obtain ⟨hf, hc, hi⟩ := hu.flags_kept
    refine State.inv_of_halves ?_ (h.flagsOk.complete hs hf hc hi)
    rw [State.complete_draws, hu2]
    exact { hu1 with }

theorem State.Inv.issue {w : BitVec 32} {s t : State} (h : s.Inv) (he : issue w s = .next t) : t.Inv := by
  have hw : ({ s with cmd := w } : State).Inv := h.setFree s.p s.k w s.ops s.got
  rcases issue_cases he with ⟨-, rfl⟩ | ⟨-, -, rfl⟩ | ⟨-, i, -, hi⟩
  · exact hw
  · exact hw.raise_accept _
  · exact hw.exec hi

theorem State.Inv.resetBlock {s : State} (h : s.Inv) : s.resetBlock.Inv :=
  State.inv_of_halves h.spaceOk.resetBlock s.flagsOk_resetBlock

theorem State.Inv.control {s : State} (h : s.Inv) (v : BitVec 64) : (s.control v).Inv := by
  rcases s.control_cases v with ⟨-, e⟩ | ⟨-, -, e⟩ | ⟨-, -, e⟩ <;> rw [e]
  · exact h.resetBlock
  · exact State.inv_of_halves { h.spaceOk with } h.flagsOk.acknowledge
  · exact h

theorem State.Inv.storeReg {s : State} (h : s.Inv) (r : Nat) (v : BitVec 64) : (s.storeReg r v).Inv := by
  rcases s.storeReg_cases r v with ⟨d, n, hn, e⟩ | ⟨p, k, e⟩ <;> rw [e]
  · exact State.inv_of_halves (h.spaceOk.setLen d hn) { h.flagsOk with }
  · exact h.setFree p k s.cmd s.ops s.got

theorem State.Inv.hostOp {op : HostOp} {s t : State} (h : s.Inv) (he : hostOp op s = .next t) : t.Inv := by
  rcases hostOp_cases he with ⟨v, rfl⟩ | ⟨v, -, hi⟩ | ⟨v, -, rfl⟩ | ⟨r, v, -, -, -, rfl⟩ | ⟨d, i, v, hi, rfl⟩ | ⟨-, rfl⟩
  · exact h.setFree s.p s.k s.cmd s.ops (v :: s.got)
  · exact h.issue hi
  · exact h.control v
  · exact h.storeReg r v
  · exact State.inv_of_halves (h.spaceOk.writeSample d v hi) { h.flagsOk with }
  · exact h.resetBlock

theorem State.Inv.step {s t : State} (h : s.Inv) (hs : step s = .next t) : t.Inv := by
  rcases step_cases hs with ⟨-, rfl⟩ | ⟨op, rest, -, ho⟩
  · exact h
  · exact (h.setFree s.p s.k s.cmd rest s.got).hostOp ho

/-- Settles O7: a step is one host operation, and every operation keeps the sample space within its capacities and the
fault registers telling one story. -/
theorem everyStepKeepsTheInvariant : Obligations.EveryStepKeepsTheInvariant := fun _ _ h hs => h.step hs

end Sys2Proof.Machine
end

section
/-! PROOFS. A command depends on its operands alone (statement ResultsDependOnOperandsAlone): two states that agree on what a
command reads pass or fail its checks alike, and its effects on them agree in every destination. -/

namespace Sys2Proof.Machine

/-- R5: two states agree on everything command `i` reads: the registers, the capacities, the draws and its source. -/
structure SameOperands (i : Instr) (s s' : State) : Prop where
  p : s.p = s'.p
  k : s.k = s'.k
  capN : s.capN = s'.capN
  capW : s.capW = s'.capW
  draws : s.draws = s'.draws
  source : ∀ r, i.src? = some r → s.source r = s'.source r

/-- Two states agree in slot `d`, up to its length. -/
def SameSlot (t t' : State) (d : SlotNo) : Prop :=
  t.len[d] = t'.len[d] ∧ ∀ j, j < t.len[d] → t.mem.read d j = t'.mem.read d j

/-- The effects of one command agree: flags, parameter registers and destinations. -/
structure SameEffect (i : Instr) (u u' : State) : Prop where
  status : u.status = u'.status
  p : u.p = u'.p
  dests : ∀ d ∈ i.dests, SameSlot u u' d

/-- The answers of one command agree: flags, parameter registers, the fault, or else the destinations. -/
structure SameAnswer (i : Instr) (t t' : State) : Prop where
  status : t.status = t'.status
  p : t.p = t'.p
  fault : t.status.fault = true → t.cause = t'.cause ∧ t.info = t'.info
  dests : t.status.done = true → ∀ d ∈ i.dests, SameSlot t t' d

theorem SameOperands.accept {i : Instr} {s s' : State} (h : SameOperands i s s') :
    SameOperands i s.accept s'.accept := ⟨h.p, h.k, h.capN, h.capW, h.draws, h.source⟩

theorem accept_status_of_no_fault {s : State} (h : s.status.fault = false) :
    s.accept.status = { fault := false, corrected := false, done := false } := by
  simp [h]

/-! ## The frame -/

theorem sameAnswer_raise (i : Instr) {s s' : State} (h : s.p = s'.p) (r : Raise) :
    SameAnswer i (s.raise r) (s'.raise r) := ⟨rfl, h, fun _ => ⟨rfl, rfl⟩, fun hd => by cases hd⟩

theorem SameEffect.complete {i : Instr} {u u' : State} (h : SameEffect i u u') (hf : u.status.fault = false) :
    SameAnswer i u.complete u'.complete where
  status := by rw [State.complete_status, State.complete_status, h.status]
  p := h.p
  fault ht := by rw [State.complete_status, hf] at ht; cases ht
  dests _ := h.dests

/-- R246: a frame whose checks and effect give the same on two states gives them the same answer. -/
theorem frame_sameAnswer {α : Type} {i : Instr} {checks : State → Except Raise α} {effect : α → State → State}
    {s s' t t' : State} (hf : s.status.fault = false) (hf' : s'.status.fault = false) (hp : s.p = s'.p)
    (hc : checks s.accept = checks s'.accept)
    (he : ∀ x, SameEffect i (effect x s.accept) (effect x s'.accept) ∧ (effect x s.accept).status.fault = false)
    (h : frame i checks effect s = .next t) (h' : frame i checks effect s' = .next t') : SameAnswer i t t' := by
  cases hw : i.wf with
  | false =>
    rw [frame_alias hf hw] at h
    rw [frame_alias hf' hw] at h'
    cases h; cases h'
    exact sameAnswer_raise i hp _
  | true =>
    cases hx : checks s.accept with
    | error r =>
      rw [frame_check_fails hf hw hx] at h
      rw [frame_check_fails hf' hw (hc ▸ hx)] at h'
      cases h; cases h'
      exact sameAnswer_raise i hp r
    | ok x =>
      rw [frame_completes hf hw hx] at h
      rw [frame_completes hf' hw (hc ▸ hx)] at h'
      cases h; cases h'
      exact (he x).1.complete (he x).2

/-! ## The checks -/

section
variable {i : Instr} {a a' : State} (h : SameOperands i a a')
include h

theorem SameOperands.checkKey : a.checkKey = a'.checkKey := by rw [State.checkKey, State.checkKey, h.draws]

theorem SameOperands.resultKey : a.resultKey = a'.resultKey := by rw [State.resultKey, State.resultKey, h.draws]

theorem SameOperands.checkFs : checkFs a = checkFs a' := by rw [Machine.checkFs, Machine.checkFs, h.p]

theorem SameOperands.checkFilter : checkFilter a = checkFilter a' := by
  rw [Machine.checkFilter, Machine.checkFilter, h.checkFs, h.k]

theorem SameOperands.checkBandFilter : checkBandFilter a = checkBandFilter a' := by
  rw [Machine.checkBandFilter, Machine.checkBandFilter, h.checkFilter, checkBand, checkBand, h.p]

theorem SameOperands.checkWin : checkWin a = checkWin a' := by
  rw [Machine.checkWin, Machine.checkWin, checkWindow, checkWindow, h.k, h.capW]

theorem SameOperands.checkDcwin : checkDcwin a = checkDcwin a' := by
  rw [Machine.checkDcwin, Machine.checkDcwin, checkWindow, checkWindow, h.k, h.capW]

theorem SameOperands.checkSynth : checkSynth a = checkSynth a' := by
  simp only [Machine.checkSynth, checkDur, synthLength, h.checkFs, h.p, h.capN, h.checkKey]

theorem SameOperands.clampWindow (v : F64) (id : BitVec 64) : clampWindow a v id = clampWindow a' v id := by
  rw [Machine.clampWindow, Machine.clampWindow, h.capW]

theorem SameOperands.checkAmdemod (dcfix : Bool) : checkAmdemod dcfix a = checkAmdemod dcfix a' := by
  simp only [Machine.checkAmdemod, amEnvWindow, amDcWindow, h.checkFs, h.clampWindow, h.p, h.k, h.checkKey]

theorem SameOperands.checkFmdemod : checkFmdemod a = checkFmdemod a' := by
  simp only [Machine.checkFmdemod, fmEnvWindow, fmDcWindow, h.checkFs, h.clampWindow, h.p, h.k, h.capW, h.checkKey]

/-! ## The effects -/

theorem SameOperands.timeBase (n : Nat) : a.timeBase n = a'.timeBase n := by
  rw [State.timeBase, State.timeBase, h.resultKey, h.p]

theorem SameOperands.unitSine (n : Nat) : a.unitSine n = a'.unitSine n := by
  rw [State.unitSine, State.unitSine, h.resultKey, h.p, h.timeBase]

theorem SameOperands.overrideUsed (ovr : Bool) : a.overrideUsed ovr = a'.overrideUsed ovr := by
  rw [State.overrideUsed, State.overrideUsed, h.p]

theorem SameOperands.overrideCorrected (ovr : Bool) : a.overrideCorrected ovr = a'.overrideCorrected ovr := by
  rw [State.overrideCorrected, State.overrideCorrected, h.p]

theorem SameOperands.fmBand (ovr : Bool) : a.fmBand ovr = a'.fmBand ovr := by
  rw [State.fmBand, State.fmBand, h.overrideUsed, h.resultKey, h.p]

end

/-- A slot a result was written to agrees whatever stood there. -/
theorem sameSlot_writeSlot (a a' : State) (d : SlotNo) (y : List F64) :
    SameSlot (a.writeSlot d y) (a'.writeSlot d y) d := by
  obtain ⟨hl, hr⟩ := State.holds_writeSlot a d y
  obtain ⟨hl', hr'⟩ := State.holds_writeSlot a' d y
  refine ⟨hl.trans hl'.symm, fun j hj => ?_⟩
  rw [hl] at hj
  rw [hr j hj, hr' j hj]

/-- A result written to one slot keeps the agreement in another. -/
theorem SameSlot.writeSlot {a a' : State} {e : SlotNo} (h : SameSlot a a' e) (d : SlotNo) (y : List F64) :
    SameSlot (a.writeSlot d y) (a'.writeSlot d y) e := by
  by_cases he : e = d
  · subst he; exact sameSlot_writeSlot a a' e y
  · obtain ⟨hl, hr⟩ := State.slotsKept_writeSlot a d y e (by simpa using he)
    obtain ⟨hl', hr'⟩ := State.slotsKept_writeSlot a' d y e (by simpa using he)
    refine ⟨hl.trans (h.1.trans hl'.symm), fun j hj => ?_⟩
    rw [hr j, hr' j]
    exact h.2 j (hl ▸ hj)

/-- The effect of format U: one result in one slot. -/
theorem sameEffect_u {i : Instr} {a a' : State} {d : SlotNo} (hd : i.dests = [d]) (hs : a.status = a'.status)
    (hp : a.p = a'.p) {y y' : List F64} (hy : y = y') : SameEffect i (a.writeSlot d y) (a'.writeSlot d y') where
  status := hs
  p := hp
  dests e he := by
    rw [hd, List.mem_singleton] at he
    subst he hy
    exact sameSlot_writeSlot a a' _ y

/-- The effect of format G: three results in three slots. -/
theorem sameEffect_g {i : Instr} {a a' : State} {d m t : SlotNo} (hd : i.dests = [d, m, t]) (hs : a.status = a'.status)
    (hp : a.p = a'.p) {x x' y y' z z' : List F64} (hx : x = x') (hy : y = y') (hz : z = z') :
    SameEffect i (a.writeBundle d m t x y z) (a'.writeBundle d m t x' y' z') where
  status := hs
  p := hp
  dests e he := by
    subst hx hy hz
    simp only [hd, List.mem_cons, List.not_mem_nil, or_false] at he
    rcases he with rfl | rfl | rfl
    · exact sameSlot_writeSlot _ _ _ _
    · exact (sameSlot_writeSlot _ _ _ _).writeSlot _ _
    · exact ((sameSlot_writeSlot _ _ _ _).writeSlot _ _).writeSlot _ _

/-- R188: the effect of an amplitude-offset form whose message agrees. -/
theorem sameEffect_am {i : Instr} {a a' : State} (h : SameOperands i a a') {d m t : SlotNo} (hd : i.dests = [d, m, t])
    (hs : a.status = a'.status) (n : Nat) {msg msg' : List F64} (hm : msg = msg') :
    SameEffect i (a.writeAmOffset d m t n msg) (a'.writeAmOffset d m t n msg') where
  status := hs
  p := by simp only [State.writeAmOffset, State.writeBundle, State.setMu_p, State.writeSlot_p, h.p, h.resultKey]
  dests := (sameEffect_g hd hs h.p (h.timeBase n) hm (by rw [h.p, h.resultKey, h.timeBase, hm])).dests

/-- R5: the same command on states that agree on its operands gives the same answer. -/
theorem exec_sameAnswer {i : Instr} {s s' t t' : State} (hf : s.status.fault = false) (hf' : s'.status.fault = false)
    (h : SameOperands i s s') (ht : exec i s = .next t) (ht' : exec i s' = .next t') : SameAnswer i t t' := by
  have ha := h.accept
  have hs : s.accept.status = s'.accept.status := by
    rw [accept_status_of_no_fault hf, accept_status_of_no_fault hf']
  cases i with
  | lowpass d r | highpass d r =>
    simp only [exec, execLowpass, execHighpass] at ht ht'
    refine frame_sameAnswer hf hf' h.p ha.checkFilter (fun _ => ⟨sameEffect_u rfl hs ha.p ?_, hf⟩) ht ht'
    rw [ha.resultKey, ha.source r rfl, ha.p, ha.k]
  | bandpass d r | bandstop d r =>
    simp only [exec, execBandpass, execBandstop] at ht ht'
    refine frame_sameAnswer hf hf' h.p ha.checkBandFilter (fun _ => ⟨sameEffect_u rfl hs ha.p ?_, hf⟩) ht ht'
    rw [ha.resultKey, ha.source r rfl, ha.p, ha.k]
  | mavg d r _ | envdetRaw d r _ | envdetHw d r _ | envdetFw d r _ =>
    simp only [exec, execMavg, execEnvdetRaw, execEnvdetHw, execEnvdetFw] at ht ht'
    refine frame_sameAnswer hf hf' h.p ha.checkWin (fun _ => ⟨sameEffect_u rfl hs ha.p ?_, hf⟩) ht ht'
    rw [ha.resultKey, ha.source r rfl, ha.k]
  | hwr d r | fwr d r | dcoff d r | diff d r | adiff d r =>
    simp only [exec, execHwr, execFwr, execDcoff, execDiff, execAdiff] at ht ht'
    refine frame_sameAnswer hf hf' h.p rfl (fun _ => ⟨sameEffect_u rfl hs ha.p ?_, hf⟩) ht ht'
    simp only [ha.resultKey, ha.source r rfl, ha.p]
  | dcrem d r =>
    simp only [exec, execDcrem] at ht ht'
    refine frame_sameAnswer hf hf' h.p ha.checkDcwin (fun _ => ⟨sameEffect_u rfl hs ha.p ?_, hf⟩) ht ht'
    rw [ha.resultKey, ha.source r rfl, ha.k]
  | integ d r =>
    simp only [exec, execInteg] at ht ht'
    refine frame_sameAnswer hf hf' h.p ha.checkFs (fun _ => ⟨sameEffect_u rfl hs ha.p ?_, hf⟩) ht ht'
    rw [ha.resultKey, ha.source r rfl, ha.p]
  | ammodSin d m t | ammodTri d m t | ammodSqr d m t =>
    simp only [exec, execAmmodSin, execAmmodTri, execAmmodSqr] at ht ht'
    refine frame_sameAnswer hf hf' h.p ha.checkSynth (fun n => ⟨sameEffect_am ha rfl hs n ?_, hf⟩) ht ht'
    rw [ha.resultKey, ha.p, ha.timeBase]
  | ammodIdx d m t =>
    simp only [exec, execAmmodIdx] at ht ht'
    refine frame_sameAnswer hf hf' h.p ha.checkSynth
      (fun n => ⟨sameEffect_g rfl hs ha.p (ha.timeBase n) (ha.unitSine n) ?_, hf⟩) ht ht'
    rw [ha.resultKey, ha.p, ha.timeBase, ha.unitSine]
  | fmmod d m t =>
    simp only [exec, execFmmod] at ht ht'
    refine frame_sameAnswer hf hf' h.p ha.checkSynth
      (fun n => ⟨sameEffect_g rfl hs ha.p (ha.timeBase n) (ha.unitSine n) ?_, hf⟩) ht ht'
    rw [State.fmModulated, State.fmModulated, ha.resultKey, ha.p, ha.timeBase, ha.unitSine]
  | amdemod d r dcfix =>
    simp only [exec, execAmdemod] at ht ht'
    refine frame_sameAnswer hf hf' h.p (ha.checkAmdemod dcfix) (fun _ => ⟨sameEffect_u rfl hs ha.p ?_, hf⟩) ht ht'
    rw [State.amDemodulated, State.amDemodulated, ha.resultKey, ha.source r rfl, ha.p, ha.k]
  | fmdemod d r ovr plain prime =>
    simp only [exec, execFmdemod] at ht ht'
    refine frame_sameAnswer hf hf' h.p ha.checkFmdemod (fun w => ⟨?_, hf⟩) ht ht'
    have hu := sameEffect_u (i := .fmdemod d r ovr plain prime) (d := d) rfl hs ha.p
      (y := s.accept.fmDemodulated r ovr plain prime w) (y' := s'.accept.fmDemodulated r ovr plain prime w)
      (by rw [State.fmDemodulated, State.fmDemodulated, ha.fmBand, ha.resultKey, ha.source r rfl, ha.p, ha.k])
    exact ⟨by rw [State.setCorrected_status, State.setCorrected_status, hu.status, ha.overrideCorrected], hu.p, hu.dests⟩

/-- Settles O23: the two states agree on the command's operands, so its answers agree. -/
theorem resultsDependOnOperandsAlone : Obligations.ResultsDependOnOperandsAlone := by
  unfold Obligations.ResultsDependOnOperandsAlone
  intro i s s' t t' hf hf' hp hk hN hW hd hsrc ht ht'
  obtain ⟨hs, hp', hfault, hdests⟩ := exec_sameAnswer hf hf' ⟨hp, hk, hN, hW, hd, hsrc⟩ ht ht'
  exact ⟨hs, hp', hfault, hdests⟩

end Sys2Proof.Machine
end

section
/-! PROOFS. What one rounding does (00_scope.md R8): the integer the model rounds to is the nearest one at its place, ties to
even (`Nearest`); an image with that significand is what `RoundsTo` asks for. -/

namespace Sys2Proof.Machine

/-! ## The nearest integer, ties to even -/

/-- `r` is `num / unit` rounded to the nearest integer, ties to even. -/
structure HalfEven (num unit r : Nat) : Prop where
  upper : 2 * num ≤ 2 * (r * unit) + unit
  lower : 2 * (r * unit) ≤ 2 * num + unit
  tie_upper : 2 * (r * unit) + unit ≤ 2 * num → r % 2 = 0
  tie_lower : 2 * num + unit ≤ 2 * (r * unit) → r % 2 = 0

/-- Two quotients that stand alike to every multiple of half a unit round alike. -/
theorem HalfEven.congr {num unit num' unit' r : Nat} (h : HalfEven num unit r)
    (hle : ∀ j, j * unit ≤ 2 * num ↔ j * unit' ≤ 2 * num') (hge : ∀ j, 2 * num ≤ j * unit ↔ 2 * num' ≤ j * unit') :
    HalfEven num' unit' r := by
  have hodd (u : Nat) : (2 * r + 1) * u = 2 * (r * u) + u := by ring
  have hle1 := hle (2 * r + 1)
  have hge1 := hge (2 * r + 1)
  rw [hodd, hodd] at hle1 hge1
  obtain ⟨hupper, hlower, htu, htl⟩ := h
  rcases r with - | r
  · exact ⟨hge1.1 hupper, by omega, fun _ => rfl, fun _ => rfl⟩
  · have hpred (u : Nat) : (2 * r + 1) * u + u = 2 * ((r + 1) * u) := by ring
    have hle2 := hle (2 * r + 1)
    have hge2 := hge (2 * r + 1)
    have := hpred unit
    have := hpred unit'
    exact ⟨hge1.1 hupper, by omega, fun hc => htu (hle1.2 hc), fun hc => htl (by omega)⟩

theorem HalfEven.scale {num unit r c : Nat} (h : HalfEven num unit r) (hc : 0 < c) :
    HalfEven (num * c) (unit * c) r := by
  refine h.congr (fun j => ?_) fun j => ?_ <;>
    rw [← mul_assoc, ← mul_assoc, Nat.mul_le_mul_right_iff hc]

/-- An exact quotient is its own rounding. -/
theorem halfEven_exact (r : Nat) {unit : Nat} (hu : 0 < unit) : HalfEven (r * unit) unit r := by
  constructor <;> omega

/-- R8: the shift of the rounding gives the nearest integer, ties to even. -/
theorem roundShift_halfEven (m sh : Nat) : HalfEven m (2 ^ sh) (roundShift m sh) := by
  have hdm := Nat.div_add_mod' m (2 ^ sh)
  have hlt := Nat.mod_lt m (Nat.two_pow_pos sh)
  unfold roundShift
  generalize m % 2 ^ sh = rem at *
  generalize m / 2 ^ sh = d at *
  generalize 2 ^ sh = unit at *
  split
  · have hsucc : (d + 1) * unit = d * unit + unit := Nat.succ_mul d unit
    constructor <;> omega
  · constructor <;> omega

/-! ## The last place of a binary64 value -/

/-- `r` is `num / (2^q * den)` rounded to the nearest integer, ties to even, and `2^q` units is the last place of a binary64
value of that size. -/
structure Nearest (num den q r : Nat) : Prop extends HalfEven num (2 ^ q * den) r where
  place : q = 0 ∨ 2 ^ 53 * (2 ^ q * den) ≤ 2 * num
  below : ¬2 ^ 54 * (2 ^ q * den) ≤ 2 * num

theorem Nearest.congr {num den num' den' q r : Nat} (h : Nearest num den q r)
    (hle : ∀ j, j * (2 ^ q * den) ≤ 2 * num ↔ j * (2 ^ q * den') ≤ 2 * num')
    (hge : ∀ j, 2 * num ≤ j * (2 ^ q * den) ↔ 2 * num' ≤ j * (2 ^ q * den')) : Nearest num' den' q r where
  toHalfEven := h.toHalfEven.congr hle hge
  place := h.place.imp_right (hle _).1
  below hc := h.below ((hle _).2 hc)

theorem Nearest.of_scaled {num den q r c : Nat} (hc : 0 < c) (h : Nearest (c * num) (c * den) q r) :
    Nearest num den q r := by
  refine h.congr (fun j => ?_) fun j => ?_ <;>
    rw [mul_left_comm _ c den, mul_left_comm j c, mul_left_comm 2 c num, Nat.mul_le_mul_left_iff hc]

/-- The weight of the last place `F64.roundScaled` rounds to. -/
def lastPlace (m e low : Nat) : Nat := max (e + Nat.log2 m - 52) low

/-- The significand `F64.roundScaled` rounds to. -/
def roundedSig (m e low : Nat) : Nat :=
  if lastPlace m e low ≤ e then m * 2 ^ (e - lastPlace m e low) else roundShift m (lastPlace m e low - e)

theorem roundScaled_zero (neg : Bool) (e low : Nat) : F64.roundScaled neg 0 e low = F64.zeroOf neg := rfl

theorem roundScaled_eq (neg : Bool) {m : Nat} (hm : m ≠ 0) (e low : Nat) :
    F64.roundScaled neg m e low =
      if (lastPlace m e low - low) * 2 ^ 52 + roundedSig m e low < 2047 * 2 ^ 52 then
        F64.ofBits neg ((lastPlace m e low - low) * 2 ^ 52 + roundedSig m e low)
      else F64.infOf neg := by
  unfold F64.roundScaled
  rw [if_neg hm]
  rfl

/-- The last place is the lowest one, or leaves 53 bits of the exact value above it; it never leaves more. -/
theorem lastPlace_fits {m : Nat} (hm : m ≠ 0) (e low : Nat) :
    (lastPlace m e low = low ∨ 2 ^ 53 * 2 ^ lastPlace m e low ≤ 2 * (m * 2 ^ e)) ∧
    ¬2 ^ 54 * 2 ^ lastPlace m e low ≤ 2 * (m * 2 ^ e) := by
  have hlo : 2 ^ Nat.log2 m ≤ m := Nat.log2_self_le hm
  have hhi : m < 2 ^ (Nat.log2 m + 1) := Nat.lt_log2_self
  have hge : e + Nat.log2 m ≤ lastPlace m e low + 52 := by unfold lastPlace; omega
  have heq : lastPlace m e low = low ∨ lastPlace m e low + 52 = e + Nat.log2 m := by unfold lastPlace; omega
  constructor
  · refine heq.imp_right fun h => ?_
    calc 2 ^ 53 * 2 ^ lastPlace m e low = 2 * (2 ^ Nat.log2 m * 2 ^ e) := by
          rw [← pow_add, ← pow_add, ← pow_succ']
          congr 1
          omega
      _ ≤ 2 * (m * 2 ^ e) := Nat.mul_le_mul_left _ (Nat.mul_le_mul_right _ hlo)
  · rw [Nat.not_le]
    calc 2 * (m * 2 ^ e) < 2 * (2 ^ (Nat.log2 m + 1) * 2 ^ e) :=
          Nat.mul_lt_mul_of_pos_left (Nat.mul_lt_mul_of_pos_right hhi (Nat.two_pow_pos e)) Nat.two_pos
      _ ≤ 2 ^ 54 * 2 ^ lastPlace m e low := by
          rw [← pow_add, ← pow_add, ← pow_succ']
          exact Nat.pow_le_pow_right Nat.two_pos (by omega)

/-- R8: the significand is the exact value `m * 2^e` rounded at the last place: exact when no bit stands below it. -/
theorem roundedSig_halfEven (m e low : Nat) :
    HalfEven (m * 2 ^ e) (2 ^ lastPlace m e low) (roundedSig m e low) := by
  unfold roundedSig
  generalize lastPlace m e low = q
  split
  · next hqe =>
    have hexact : m * 2 ^ e = m * 2 ^ (e - q) * 2 ^ q := by rw [mul_assoc, ← pow_add, Nat.sub_add_cancel hqe]
    rw [hexact]
    exact halfEven_exact _ (Nat.two_pow_pos q)
  · next hqe =>
    have h := (roundShift_halfEven m (q - e)).scale (Nat.two_pow_pos e)
    rwa [← pow_add, Nat.sub_add_cancel (by omega)] at h

/-- R8: the significand is the nearest integer to the exact value `m * 2^e / 2^low` at the last place. -/
theorem roundedSig_nearest {m : Nat} (hm : m ≠ 0) (e low : Nat) :
    Nearest (m * 2 ^ e) (2 ^ low) (lastPlace m e low - low) (roundedSig m e low) := by
  have hlow : low ≤ lastPlace m e low := Nat.le_max_right ..
  have hunit : 2 ^ (lastPlace m e low - low) * 2 ^ low = 2 ^ lastPlace m e low := by
    rw [← pow_add, Nat.sub_add_cancel hlow]
  obtain ⟨hplace, hbelow⟩ := lastPlace_fits hm e low
  have hhalf := roundedSig_halfEven m e low
  rw [← hunit] at hplace hbelow hhalf
  exact { hhalf with place := hplace.imp_left fun h => by rw [h, Nat.sub_self], below := hbelow }

/-! ## Signed values -/

/-- The factor of a sign bit. -/
def signOf (neg : Bool) : Int := if neg then -1 else 1

theorem signOf_xor (a b : Bool) : signOf (a != b) = signOf a * signOf b := by cases a <;> cases b <;> rfl

theorem signOf_mul_self (a : Bool) : signOf a * signOf a = 1 := by cases a <;> rfl

@[simp] theorem natAbs_signOf_mul (a : Bool) (x : Int) : (signOf a * x).natAbs = x.natAbs := by
  cases a <;> simp [signOf]

theorem ite_neg_eq_signOf (a : Bool) (x : Int) : (if a then -x else x) = signOf a * x := by
  cases a <;> simp [signOf]

theorem decide_signOf_mul_neg (a : Bool) {n : Nat} (hn : 0 < n) : decide (signOf a * (n : Int) < 0) = a := by
  cases a <;> simp [signOf, hn]

theorem signOf_mul_natAbs (x : Int) : signOf (decide (x < 0)) * (x.natAbs : Int) = x := by
  simp only [signOf, decide_eq_true_eq]
  split <;> omega

/-- R7: a finite value is its sign, its significand and the weight of its last place. -/
theorem units_eq (v : F64) : v.units = signOf v.sign * (v.sig * 2 ^ (v.scale - 1) : Nat) := ite_neg_eq_signOf ..

theorem sig_lt (v : F64) : v.sig < 2 ^ 53 := by
  have := F64.frac_lt v
  unfold F64.sig
  split <;> omega

/-- Every value is a multiple of `2^q` units or lies below the significands of that place. -/
theorem units_place (v : F64) (q : Nat) :
    (∃ j : Int, v.units = j * 2 ^ q) ∨ (q ≠ 0 ∧ v.units.natAbs < 2 ^ 52 * 2 ^ q) := by
  rw [units_eq]
  generalize v.scale - 1 = k
  by_cases hk : q ≤ k
  · refine .inl ⟨signOf v.sign * (v.sig * 2 ^ (k - q) : Nat), ?_⟩
    rw [← Nat.sub_add_cancel hk, pow_add]
    push_cast
    rw [Nat.add_sub_cancel]
    ring
  · refine .inr ⟨by omega, ?_⟩
    rw [natAbs_signOf_mul, Int.natAbs_natCast]
    calc v.sig * 2 ^ k < 2 ^ 53 * 2 ^ k := Nat.mul_lt_mul_of_pos_right (sig_lt v) (Nat.two_pow_pos k)
      _ ≤ 2 ^ 52 * 2 ^ q := by
        rw [← pow_add, ← pow_add]
        exact Nat.pow_le_pow_right Nat.two_pos (by omega)

/-! ## The image of a rounded significand -/

/-- R8: `RoundsTo` by its two cases, below the overflow threshold and from it on. -/
structure IsRounded (num den : Int) (r : F64) : Prop where
  finite : num.natAbs < overflowUnits * den.natAbs →
    r.isFinite = true ∧
    (∀ c : F64, c.isFinite = true → (r.units * den - num).natAbs ≤ (c.units * den - num).natAbs) ∧
    (∀ c : F64, c.isFinite = true → c.units ≠ r.units →
      (c.units * den - num).natAbs = (r.units * den - num).natAbs → r.frac % 2 = 0)
  infinite : ¬num.natAbs < overflowUnits * den.natAbs → r = F64.infOf (decide (num < 0))

/-- How the statements' `RoundsTo` reads by cases. -/
theorem roundsTo_iff {num den : Int} {r : F64} : RoundsTo num den r ↔ IsRounded num den r :=
  ite_prop_iff_and.trans ⟨fun h => ⟨h.1, h.2⟩, fun h => ⟨h.finite, h.infinite⟩⟩

/-- The image of significand `r` at place `q`: the carry into the next binade is the next image. -/
theorem ofBits_place (neg : Bool) {q r : Nat} (hr : r ≤ 2 ^ 53) (hq : q = 0 ∨ 2 ^ 52 ≤ r)
    (hb : q * 2 ^ 52 + r < 2047 * 2 ^ 52) :
    (F64.ofBits neg (q * 2 ^ 52 + r)).isFinite = true ∧
      (F64.ofBits neg (q * 2 ^ 52 + r)).units = signOf neg * (r * 2 ^ q : Nat) ∧
      (F64.ofBits neg (q * 2 ^ 52 + r)).frac % 2 = r % 2 := by
  have hm : q * 2 ^ 52 + r < 2 ^ 63 := by omega
  have hfrac : (F64.ofBits neg (q * 2 ^ 52 + r)).frac % 2 = r % 2 := by
    rw [F64.ofBits_frac neg hm]
    omega
  rcases Nat.lt_or_ge r (2 ^ 52) with h1 | h1
  · obtain rfl : q = 0 := hq.resolve_right (by omega)
    have he : (F64.ofBits neg (0 * 2 ^ 52 + r)).expField = 0 := by
      rw [F64.ofBits_expField neg hm]
      omega
    refine ⟨?_, ?_, hfrac⟩
    · rw [F64.isFinite, he]
      rfl
    · rw [units_eq, F64.sig, F64.scale, if_pos he, if_pos he, F64.ofBits_frac neg hm, F64.ofBits_sign neg hm]
      congr 3
      omega
  · rcases Nat.lt_or_ge r (2 ^ 53) with h2 | h2
    · obtain ⟨hfin, -, hunits⟩ := F64.ofBits_normal neg (q := q) (by omega) h1 h2
      exact ⟨hfin, hunits.trans (ite_neg_eq_signOf ..), hfrac⟩
    · obtain rfl : r = 2 ^ 53 := by omega
      have hcarry : q * 2 ^ 52 + 2 ^ 53 = (q + 1) * 2 ^ 52 + 2 ^ 52 := by omega
      obtain ⟨hfin, -, hunits⟩ := F64.ofBits_normal neg (q := q + 1) (r := 2 ^ 52) (by omega) (le_refl _) (by omega)
      rw [← hcarry] at hfin hunits
      refine ⟨hfin, hunits.trans ((ite_neg_eq_signOf ..).trans ?_), hfrac⟩
      rw [show 2 ^ 52 * 2 ^ (q + 1) = 2 ^ 53 * 2 ^ q by ring]

section
variable {num den q r : Nat} (h : Nearest num den q r) (hd : 0 < den)
include h

theorem Nearest.sig_le : r ≤ 2 ^ 53 := by
  by_contra hr
  have := Nat.mul_le_mul_right (2 ^ q * den) (show 2 ^ 53 + 1 ≤ r by omega)
  have := h.lower
  have := h.below
  omega

include hd

theorem Nearest.sig_normal : q = 0 ∨ 2 ^ 52 ≤ r := by
  refine h.place.imp_right fun hp => ?_
  by_contra hr
  have := Nat.mul_le_mul_right (2 ^ q * den) (show r ≤ 2 ^ 52 - 1 by omega)
  have := h.upper
  have : 0 < 2 ^ q * den := Nat.mul_pos (Nat.two_pow_pos q) hd
  omega

/-- R8: the rounded image is finite exactly when the exact value is below the overflow threshold. -/
theorem Nearest.finite_iff : q * 2 ^ 52 + r < 2047 * 2 ^ 52 ↔ num < overflowUnits * den := by
  have hsig := h.sig_le
  have hnormal := h.sig_normal hd
  have hthreshold : overflowUnits * den = (2 ^ 54 - 1) * (2 ^ 2044 * den) := Nat.mul_assoc ..
  have hpos : 0 < 2 ^ 2044 * den := by positivity
  have hmono {a b : Nat} (hab : a ≤ b) : 2 ^ a * den ≤ 2 ^ b * den :=
    Nat.mul_le_mul_right _ (Nat.pow_le_pow_right Nat.two_pos hab)
  have h2045 : 2 ^ 2045 * den = 2 * (2 ^ 2044 * den) := by rw [pow_succ' 2 2044, mul_assoc]
  have h2046 : 2 ^ 2046 * den = 2 * (2 ^ 2045 * den) := by rw [pow_succ' 2 2045, mul_assoc]
  obtain ⟨⟨hupper, hlower, htie, -⟩, hplace, hbelow⟩ := h
  rw [hthreshold]
  rcases Nat.lt_trichotomy q 2045 with hq | rfl | hq
  · have hU := hmono (show q ≤ 2044 by omega)
    generalize 2 ^ q * den = U, 2 ^ 2044 * den = W at *
    omega
  · rw [h2045] at hbelow hupper hlower htie
    generalize 2 ^ 2044 * den = W at *
    rcases Nat.lt_or_ge r (2 ^ 53) with hr | hr
    · refine iff_of_true (by omega) ?_
      rcases Nat.lt_or_ge r (2 ^ 53 - 1) with hr' | hr'
      · have := Nat.mul_le_mul_right (2 * W) (show r ≤ 2 ^ 53 - 2 by omega)
        omega
      · obtain rfl : r = 2 ^ 53 - 1 := by omega
        omega
    · obtain rfl : r = 2 ^ 53 := by omega
      exact iff_of_false (by omega) (by omega)
  · have hU := hmono (show 2046 ≤ q by omega)
    rw [h2046, h2045] at hU
    generalize 2 ^ q * den = U, 2 ^ 2044 * den = W at *
    omega

/-- R8: no multiple of the last place, and no value below the significands of that place, is nearer to the exact value; one
as near leaves the even significand. -/
theorem Nearest.closest {c : Int} (hc : (∃ j : Int, c = j * 2 ^ q) ∨ (q ≠ 0 ∧ c.natAbs < 2 ^ 52 * 2 ^ q)) :
    ((r * 2 ^ q : Nat) * (den : Int) - num).natAbs ≤ (c * den - num).natAbs ∧
      (c ≠ (r * 2 ^ q : Nat) → (c * den - num).natAbs = ((r * 2 ^ q : Nat) * (den : Int) - num).natAbs → r % 2 = 0) := by
  have hU : 0 < 2 ^ q * den := Nat.mul_pos (Nat.two_pow_pos q) hd
  have hr : ((r * 2 ^ q : Nat) : Int) * den = (r * (2 ^ q * den) : Nat) := by push_cast; ring
  obtain ⟨hupper, hlower, htu, htl⟩ := h.toHalfEven
  rw [hr]
  rcases hc with ⟨j, rfl⟩ | ⟨hq, hsmall⟩
  · have hj : j * 2 ^ q * (den : Int) = j * (2 ^ q * den : Nat) := by push_cast; ring
    rw [hj]
    rcases lt_trichotomy j r with hlt | rfl | hgt
    · have hstep := Int.mul_le_mul_of_nonneg_right (show j + 1 ≤ r by omega) (Int.natCast_nonneg (2 ^ q * den))
      rw [add_mul, one_mul, ← Int.natCast_mul] at hstep
      generalize r * (2 ^ q * den) = R, j * ((2 ^ q * den : Nat) : Int) = J, 2 ^ q * den = U at *
      omega
    · exact ⟨(by rw [Int.natCast_mul]), fun hne => absurd (by push_cast; ring) hne⟩
    · have hstep := Int.mul_le_mul_of_nonneg_right (show (r : Int) + 1 ≤ j by omega) (Int.natCast_nonneg (2 ^ q * den))
      rw [add_mul, one_mul, ← Int.natCast_mul] at hstep
      generalize r * (2 ^ q * den) = R, j * ((2 ^ q * den : Nat) : Int) = J, 2 ^ q * den = U at *
      omega
  · have hc : c * den < (2 ^ 52 * (2 ^ q * den) : Nat) := by
      calc c * den < (2 ^ 52 * 2 ^ q : Nat) * (den : Int) := Int.mul_lt_mul_of_pos_right (by omega) (by omega)
        _ = (2 ^ 52 * (2 ^ q * den) : Nat) := by push_cast; ring
    have hplace := h.place.resolve_left hq
    have hr52 : r * (2 ^ q * den) = 2 ^ 52 * (2 ^ q * den) ∨ (2 ^ 52 + 1) * (2 ^ q * den) ≤ r * (2 ^ q * den) := by
      rcases Nat.eq_or_lt_of_le ((h.sig_normal hd).resolve_left hq) with he | hlt
      · exact .inl (by rw [he])
      · exact .inr (Nat.mul_le_mul_right _ hlt)
    generalize r * (2 ^ q * den) = R, c * (den : Int) = C, 2 ^ q * den = U at *
    omega

/-- R8: the image of the nearest significand, or an infinity beyond the last binade, is the exact value rounded once. -/
theorem Nearest.isRounded (neg : Bool) :
    IsRounded (signOf neg * num) den
      (if q * 2 ^ 52 + r < 2047 * 2 ^ 52 then F64.ofBits neg (q * 2 ^ 52 + r) else F64.infOf neg) := by
  have hfin := h.finite_iff hd
  have hdist (x : Int) : (x * den - signOf neg * num).natAbs = (signOf neg * x * den - num).natAbs := by
    rw [← natAbs_signOf_mul neg (x * den - _), mul_sub, ← mul_assoc, ← mul_assoc, signOf_mul_self, one_mul]
  have hplace (c : F64) :
      (∃ j : Int, signOf neg * c.units = j * 2 ^ q) ∨ (q ≠ 0 ∧ (signOf neg * c.units).natAbs < 2 ^ 52 * 2 ^ q) := by
    rw [natAbs_signOf_mul]
    exact (units_place c q).imp_left fun ⟨j, hj⟩ => ⟨signOf neg * j, by rw [hj, mul_assoc]⟩
  refine ⟨fun hb => ?_, fun hb => ?_⟩ <;> rw [natAbs_signOf_mul, Int.natAbs_natCast, Int.natAbs_natCast, ← hfin] at hb
  · obtain ⟨hfinite, hunits, hfrac⟩ := ofBits_place neg h.sig_le (h.sig_normal hd) hb
    rw [if_pos hb, hunits, hfrac]
    simp only [hdist, ← mul_assoc, signOf_mul_self, one_mul]
    refine ⟨hfinite, fun c _ => (h.closest hd (hplace c)).1, fun c _ hne => (h.closest hd (hplace c)).2 fun he => hne ?_⟩
    rw [← he, ← mul_assoc, signOf_mul_self, one_mul]
  · have hpos : 0 < num := by
      refine Nat.pos_of_ne_zero fun h0 => hb (hfin.2 ?_)
      rw [h0]
      exact Nat.mul_pos (by unfold overflowUnits; positivity) hd
    rw [if_neg hb, decide_signOf_mul_neg neg hpos]

end

/-- R8: zero rounds to a zero of either sign. -/
theorem isRounded_zeroOf (neg : Bool) {den : Nat} (hd : 0 < den) : IsRounded 0 den (F64.zeroOf neg) := by
  have h : Nearest 0 den 0 0 := ⟨⟨by omega, by omega, fun _ => rfl, fun _ => rfl⟩, .inl rfl, by omega⟩
  have hr := h.isRounded hd neg
  rw [Nat.cast_zero, mul_zero, if_pos (by omega)] at hr
  exact hr

/-- R8: the model's rounding, told by any quotient that rounds as its exact value `m * 2^e / 2^low` does. -/
theorem roundScaled_isRounded (neg : Bool) {m e low num den : Nat} (hm : m ≠ 0) (hd : 0 < den)
    (h : Nearest num den (lastPlace m e low - low) (roundedSig m e low)) :
    IsRounded (signOf neg * num) den (F64.roundScaled neg m e low) := by
  rw [roundScaled_eq neg hm]
  exact h.isRounded hd neg

/-- R8: the sign of a rounded value is the one given. -/
theorem roundScaled_sign (neg : Bool) (m e low : Nat) : (F64.roundScaled neg m e low).sign = neg := by
  by_cases hm : m = 0
  · rw [hm, roundScaled_zero, F64.zeroOf_sign]
  · rw [roundScaled_eq neg hm]
    split
    · exact F64.ofBits_sign neg (by omega)
    · exact F64.infOf_sign neg

end Sys2Proof.Machine
end

section
/-! PROOFS. The four operations by the class of their operands (00_scope.md R8, R12), and that on finite operands they round the
exact result once (statements AdditionRoundsOnceToNearestEven, MultiplicationRoundsOnceToNearestEven,
DivisionRoundsOnceToNearestEven). -/

namespace Sys2Proof.Machine

/-! ## The classes of a value -/

theorem expField_eq (v : F64) : v.expField = v.magBits / 2 ^ 52 := by
  have := F64.magBits_eq v
  have := F64.frac_lt v
  omega

theorem frac_eq (v : F64) : v.frac = v.magBits % 2 ^ 52 := by
  have := F64.magBits_eq v
  have := F64.frac_lt v
  omega

theorem isFinite_iff {v : F64} : v.isFinite = true ↔ v.expField ≠ 2047 := by simp [F64.isFinite]

theorem isInf_iff {v : F64} : v.isInf = true ↔ v.expField = 2047 ∧ v.frac = 0 := by simp [F64.isInf]

theorem isZero_iff {v : F64} : v.isZero = true ↔ v.magBits = 0 := by simp [F64.isZero]

theorem not_isNaN_of_isFinite {v : F64} (h : v.isFinite = true) : v.isNaN = false := by
  simp [F64.isNaN, isFinite_iff.1 h]

theorem not_isInf_of_isFinite {v : F64} (h : v.isFinite = true) : v.isInf = false := by
  simp [F64.isInf, isFinite_iff.1 h]

theorem not_isNaN_of_isInf {v : F64} (h : v.isInf = true) : v.isNaN = false := by
  simp [F64.isNaN, (isInf_iff.1 h).2]

theorem isFinite_of_isZero {v : F64} (h : v.isZero = true) : v.isFinite = true := by
  rw [isFinite_iff, expField_eq, isZero_iff.1 h]
  decide

/-- A value is a zero exactly when its significand is. -/
theorem isZero_iff_sig {v : F64} : v.isZero = true ↔ v.sig = 0 := by
  rw [isZero_iff, F64.magBits_eq, F64.sig]
  split <;> omega

theorem scale_pos (v : F64) : 1 ≤ v.scale := by
  unfold F64.scale
  split <;> omega

theorem scale_le {v : F64} : v.scale ≤ 2047 := by
  have : v.expField < 2 ^ 11 := Nat.mod_lt _ (by decide)
  unfold F64.scale
  split <;> omega

/-! ## Negation flips the sign and nothing else (R9) -/

@[simp] theorem neg_sign (v : F64) : v.neg.sign = !v.sign := by
  rw [F64.neg, F64.sign, F64.sign, BitVec.getLsbD_xor, show (0x8000000000000000 : BitVec 64).getLsbD 63 = true from rfl,
    Bool.xor_true]

@[simp] theorem neg_magBits (v : F64) : v.neg.magBits = v.magBits := by
  rw [F64.neg, F64.magBits, F64.magBits, BitVec.toNat_xor, Nat.xor_mod_two_pow]
  exact Nat.xor_zero _

@[simp] theorem neg_expField (v : F64) : v.neg.expField = v.expField := by rw [expField_eq, neg_magBits, expField_eq]

@[simp] theorem neg_frac (v : F64) : v.neg.frac = v.frac := by rw [frac_eq, neg_magBits, frac_eq]

@[simp] theorem neg_isNaN (v : F64) : v.neg.isNaN = v.isNaN := by simp [F64.isNaN]

@[simp] theorem neg_isInf (v : F64) : v.neg.isInf = v.isInf := by simp [F64.isInf]

@[simp] theorem neg_isFinite (v : F64) : v.neg.isFinite = v.isFinite := by simp [F64.isFinite]

theorem neg_units (v : F64) : v.neg.units = -v.units := by
  rw [units_eq, units_eq, F64.sig, F64.scale, neg_expField, neg_frac, neg_sign, ← F64.sig, ← F64.scale]
  cases v.sign <;> simp [signOf]

/-! ## The operations on finite operands -/

section
variable (k : DrawKey) {a b : F64} (ha : a.isFinite = true) (hb : b.isFinite = true)
include ha hb

theorem add_of_finite : F64.add k a b =
    if a.units + b.units = 0 then F64.zeroOf (a.sign && b.sign)
    else F64.roundScaled (decide (a.units + b.units < 0)) (a.units + b.units).natAbs 0 0 := by
  simp only [F64.add, not_isNaN_of_isFinite ha, not_isNaN_of_isFinite hb, not_isInf_of_isFinite ha,
    not_isInf_of_isFinite hb, Bool.or_false, Bool.false_eq_true, if_false]

theorem mul_of_finite : F64.mul k a b =
    F64.roundScaled (a.sign != b.sign) (a.sig * b.sig) (a.scale + b.scale) 1076 := by
  simp only [F64.mul, not_isNaN_of_isFinite ha, not_isNaN_of_isFinite hb, not_isInf_of_isFinite ha,
    not_isInf_of_isFinite hb, Bool.or_false, Bool.false_eq_true, if_false]

theorem div_of_finite (h0 : b.isZero = false) : F64.div k a b =
    F64.roundScaled (a.sign != b.sign) (stickyQuotient a.sig b.sig) (a.scale + 2048 - b.scale) 1103 := by
  simp only [F64.div, not_isNaN_of_isFinite ha, not_isNaN_of_isFinite hb, not_isInf_of_isFinite ha,
    not_isInf_of_isFinite hb, h0, Bool.or_false, Bool.false_eq_true, if_false]

/-! ## Sums -/

theorem add_isRounded : IsRounded (a.units + b.units) 1 (F64.add k a b) := by
  rw [add_of_finite k ha hb]
  generalize a.units + b.units = sum
  split
  · next h0 => rw [h0]; exact isRounded_zeroOf _ Nat.one_pos
  · next h0 =>
    have hn := roundedSig_nearest (Int.natAbs_ne_zero.mpr h0) 0 0
    rw [pow_zero, mul_one] at hn
    have hr := roundScaled_isRounded (decide (sum < 0)) (Int.natAbs_ne_zero.mpr h0) Nat.one_pos hn
    rwa [signOf_mul_natAbs] at hr

theorem sub_isRounded : IsRounded (a.units - b.units) 1 (F64.sub k a b) := by
  have h := add_isRounded k ha ((neg_isFinite b).trans hb)
  rwa [neg_units, ← sub_eq_add_neg] at h

/-! ## Products -/

theorem mul_isRounded : IsRounded (a.units * b.units) (2 ^ 1074 : Nat) (F64.mul k a b) := by
  have hnum : a.units * b.units =
      signOf (a.sign != b.sign) * (a.sig * b.sig * 2 ^ (a.scale - 1 + (b.scale - 1)) : Nat) := by
    rw [units_eq, units_eq, signOf_xor, pow_add]
    push_cast
    ring
  rw [mul_of_finite k ha hb, hnum]
  by_cases h0 : a.sig * b.sig = 0
  · rw [h0, roundScaled_zero, Nat.zero_mul, Nat.cast_zero, mul_zero]
    exact isRounded_zeroOf _ (by positivity)
  · refine roundScaled_isRounded _ h0 (by positivity) (Nearest.of_scaled (c := 2 ^ 2) (by decide) ?_)
    have hn := roundedSig_nearest h0 (a.scale + b.scale) 1076
    have ha1 := scale_pos a
    have hb1 := scale_pos b
    rw [← pow_add, mul_left_comm, ← pow_add, show 2 + (a.scale - 1 + (b.scale - 1)) = a.scale + b.scale by omega,
      show 2 + 1074 = 1076 from rfl]
    exact hn

end

/-! ## Quotients -/

/-- The quotient with its sticky bit stands to every even number as the exact quotient does. -/
theorem even_le_stickyQuotient_iff {m n : Nat} (hn : 0 < n) (j : Nat) :
    2 * j ≤ stickyQuotient m n ↔ j * n ≤ m * 2 ^ 128 := by
  rw [← Nat.le_div_iff_mul_le hn, stickyQuotient]
  split <;> omega

theorem stickyQuotient_le_even_iff {m n : Nat} (hn : 0 < n) (j : Nat) :
    stickyQuotient m n ≤ 2 * j ↔ m * 2 ^ 128 ≤ j * n := by
  unfold stickyQuotient
  generalize m * 2 ^ 128 = M
  have hdm := Nat.div_add_mod M n
  have hlt := Nat.mod_lt M hn
  split
  · next h0 =>
    rw [h0, Nat.add_zero] at hdm
    rw [Nat.add_zero, Nat.mul_le_mul_left_iff Nat.two_pos, ← Nat.mul_le_mul_left_iff hn, hdm, Nat.mul_comm j]
  · next h0 =>
    rw [show 2 * (M / n) + 1 ≤ 2 * j ↔ M / n < j by omega, Nat.div_lt_iff_lt_mul hn]
    refine ⟨Nat.le_of_lt, fun h => Nat.lt_of_le_of_ne h fun he => h0 ?_⟩
    rw [he, Nat.mul_mod_left]

/-- The quotient of two significands has more than 76 bits. -/
theorem le_log2_stickyQuotient {x y : Nat} (hx : 0 < x) (hy : 0 < y) (hy2 : y < 2 ^ 53) :
    76 ≤ Nat.log2 (stickyQuotient x y) := by
  have h := (even_le_stickyQuotient_iff (m := x) hy (2 ^ 75)).2 (by
    calc 2 ^ 75 * y ≤ 2 ^ 75 * 2 ^ 53 := Nat.mul_le_mul_left _ hy2.le
      _ ≤ x * 2 ^ 128 := by omega)
  exact (Nat.le_log2 (by omega)).2 h

theorem stickyQuotient_ne_zero {x y : Nat} (hx : 0 < x) (hy : 0 < y) (hy2 : y < 2 ^ 53) : stickyQuotient x y ≠ 0 := by
  intro h
  have hlog := le_log2_stickyQuotient hx hy hy2
  rw [h] at hlog
  exact absurd hlog (by decide)

/-- The exact dividend and a multiple of a place of the exact divisor, on the scale of the sticky quotient. -/
theorem dividend_scale (x u : Nat) : 2 * (x * 2 ^ u * 2 ^ 1074) * 2 ^ 1103 = x * 2 ^ 128 * 2 ^ (u + 2050) := by
  have hpow : 2 ^ 1 * 2 ^ u * 2 ^ 1074 * 2 ^ 1103 = 2 ^ 128 * 2 ^ (u + 2050) := by
    rw [← pow_add, ← pow_add, ← pow_add, ← pow_add]
    exact congrArg (2 ^ ·) (by omega)
  generalize 2 ^ 1074 = S, 2 ^ 1103 = T, 2 ^ 128 = V, 2 ^ (u + 2050) = W at hpow ⊢
  calc 2 * (x * 2 ^ u * S) * T = x * (2 ^ 1 * 2 ^ u * S * T) := by ring
    _ = x * V * W := by rw [hpow, mul_assoc]

theorem divisor_scale {q p u w : Nat} (h : q + 1103 + w = p + (u + 2050)) (j y : Nat) :
    j * (2 ^ q * (y * 2 ^ w)) * 2 ^ 1103 = j * 2 ^ p * y * 2 ^ (u + 2050) := by
  have hpow : 2 ^ q * 2 ^ 1103 * 2 ^ w = 2 ^ p * 2 ^ (u + 2050) := by rw [← pow_add, ← pow_add, ← pow_add, h]
  generalize 2 ^ 1103 = T, 2 ^ (u + 2050) = W at hpow ⊢
  calc j * (2 ^ q * (y * 2 ^ w)) * T = j * y * (2 ^ q * T * 2 ^ w) := by ring
    _ = j * 2 ^ p * y * W := by rw [hpow]; ring

/-- R8: the significand of the quotient with its sticky bit is the nearest one to the exact quotient. -/
theorem stickyQuotient_nearest {x y u w e : Nat} (hx : 0 < x) (hy : 0 < y) (hy2 : y < 2 ^ 53) (he : e + w = u + 2048) :
    Nearest (x * 2 ^ u * 2 ^ 1074) (y * 2 ^ w) (lastPlace (stickyQuotient x y) e 1103 - 1103)
      (roundedSig (stickyQuotient x y) e 1103) := by
  have hlog := le_log2_stickyQuotient hx hy hy2
  have hlow : 1103 ≤ lastPlace (stickyQuotient x y) e 1103 := Nat.le_max_right ..
  obtain ⟨p, hp⟩ : ∃ p, lastPlace (stickyQuotient x y) e 1103 = e + (p + 2) :=
    ⟨lastPlace (stickyQuotient x y) e 1103 - e - 2, by unfold lastPlace; omega⟩
  have hn := roundedSig_nearest (stickyQuotient_ne_zero hx hy hy2) e 1103
  obtain ⟨q, hq⟩ : ∃ q, lastPlace (stickyQuotient x y) e 1103 = q + 1103 := ⟨_, (Nat.sub_add_cancel hlow).symm⟩
  rw [hq, Nat.add_sub_cancel] at hn ⊢
  have hsticky (j : Nat) : j * (2 ^ q * 2 ^ 1103) = 2 * (2 * (j * 2 ^ p) * 2 ^ e) := by
    rw [← pow_add, show q + 1103 = e + (p + 2) by omega, pow_add, pow_add]
    ring
  have hexact (j : Nat) := divisor_scale (show q + 1103 + w = p + (u + 2050) by omega) j y
  have hT : 0 < 2 ^ 1103 := by positivity
  refine hn.congr (fun j => ?_) fun j => ?_
  · have hle : j * (2 ^ q * (y * 2 ^ w)) ≤ 2 * (x * 2 ^ u * 2 ^ 1074) ↔ j * 2 ^ p * y ≤ x * 2 ^ 128 := by
      rw [← Nat.mul_le_mul_right_iff hT, hexact, dividend_scale, Nat.mul_le_mul_right_iff (Nat.two_pow_pos _)]
    rw [hle, hsticky, Nat.mul_le_mul_left_iff Nat.two_pos, Nat.mul_le_mul_right_iff (Nat.two_pow_pos e),
      even_le_stickyQuotient_iff hy]
  · have hge : 2 * (x * 2 ^ u * 2 ^ 1074) ≤ j * (2 ^ q * (y * 2 ^ w)) ↔ x * 2 ^ 128 ≤ j * 2 ^ p * y := by
      rw [← Nat.mul_le_mul_right_iff hT, hexact, dividend_scale, Nat.mul_le_mul_right_iff (Nat.two_pow_pos _)]
    rw [hge, hsticky, Nat.mul_le_mul_left_iff Nat.two_pos, Nat.mul_le_mul_right_iff (Nat.two_pow_pos e),
      stickyQuotient_le_even_iff hy]

theorem div_isRounded (k : DrawKey) {a b : F64} (ha : a.isFinite = true) (hb : b.isFinite = true)
    (h0 : b.isZero = false) :
    IsRounded (a.units * (2 ^ 1074 : Nat) * b.units.sign) b.units.natAbs (F64.div k a b) := by
  have hy : 0 < b.sig := Nat.pos_of_ne_zero fun h => by rw [isZero_iff_sig.2 h] at h0; cases h0
  have hden : 0 < b.sig * 2 ^ (b.scale - 1) := Nat.mul_pos hy (Nat.two_pow_pos _)
  have hsign : b.units.sign = signOf b.sign := by
    rw [units_eq, Int.sign_mul, Int.sign_natCast_of_ne_zero hden.ne', mul_one]
    cases b.sign <;> rfl
  have habs : b.units.natAbs = b.sig * 2 ^ (b.scale - 1) := by rw [units_eq, natAbs_signOf_mul, Int.natAbs_natCast]
  have hnum : a.units * (2 ^ 1074 : Nat) * b.units.sign =
      signOf (a.sign != b.sign) * (a.sig * 2 ^ (a.scale - 1) * 2 ^ 1074 : Nat) := by
    rw [hsign, units_eq, signOf_xor]
    generalize 2 ^ 1074 = S
    push_cast
    ring
  rw [div_of_finite k ha hb h0, hnum, habs]
  rcases Nat.eq_zero_or_pos a.sig with hx | hx
  · rw [hx, Nat.zero_mul, Nat.zero_mul, Nat.cast_zero, mul_zero]
    have hs : stickyQuotient 0 b.sig = 0 := by simp [stickyQuotient]
    rw [hs, roundScaled_zero]
    exact isRounded_zeroOf _ hden
  · have ha1 := scale_pos a
    have hb1 := scale_pos b
    have hb2 := scale_le (v := b)
    exact roundScaled_isRounded _ (stickyQuotient_ne_zero hx hy (sig_lt b)) hden
      (stickyQuotient_nearest hx hy (sig_lt b) (by omega))

/-! ## The statements -/

/-- Settles O34: the exact sum is rounded at its place, and a difference is the sum with the flipped sign. -/
theorem additionRoundsOnceToNearestEven : Obligations.AdditionRoundsOnceToNearestEven := by
  unfold Obligations.AdditionRoundsOnceToNearestEven
  intro k a b ha hb
  rw [roundsTo_iff, roundsTo_iff]
  refine ⟨add_isRounded k ha hb, sub_isRounded k ha hb, fun h0 => ?_⟩
  rw [add_of_finite k ha hb, if_pos h0]

/-- Settles O35: the product of the significands is rounded at its place. -/
theorem multiplicationRoundsOnceToNearestEven : Obligations.MultiplicationRoundsOnceToNearestEven := by
  unfold Obligations.MultiplicationRoundsOnceToNearestEven
  intro k a b ha hb
  have h := mul_isRounded k ha hb
  rw [Nat.cast_pow] at h
  rw [roundsTo_iff]
  exact ⟨h, by rw [mul_of_finite k ha hb, roundScaled_sign]⟩

/-- Settles O36: the quotient with its sticky bit rounds as the exact quotient does. -/
theorem divisionRoundsOnceToNearestEven : Obligations.DivisionRoundsOnceToNearestEven := by
  unfold Obligations.DivisionRoundsOnceToNearestEven
  intro k a b ha hb h0
  have h := div_isRounded k ha hb h0
  rw [Nat.cast_pow] at h
  rw [roundsTo_iff]
  exact ⟨h, by rw [div_of_finite k ha hb h0, roundScaled_sign]⟩

end Sys2Proof.Machine
end

section
/-! PROOFS. NaNs, infinities and comparisons (statements InvalidOperationsGiveNaN, InfinitiesKeepTheirSigns), the anchors of
EXP, SIN and COS (TranscendentalAnchors). -/

namespace Sys2Proof.Machine

/-! ## The order of values (R12) -/

/-- An image is its sign and bits 62:0. -/
theorem eq_of_sign_magBits {a b : F64} (hs : a.sign = b.sign) (hm : a.magBits = b.magBits) : a = b := by
  have ha := a.isLt
  have hb := b.isLt
  have hbit (v : F64) : v.sign = decide (v.toNat / 2 ^ 63 % 2 = 1) := by
    rw [F64.sign, BitVec.getLsbD, Nat.testBit_eq_decide_div_mod_eq]
  rw [hbit, hbit, decide_eq_decide] at hs
  unfold F64.magBits at hm
  exact BitVec.eq_of_toNat_eq (by omega)

theorem magnitude_lt_iff {a b : F64} :
    a.sig * 2 ^ (a.scale - 1) < b.sig * 2 ^ (b.scale - 1) ↔ a.magBits < b.magBits := by
  refine ⟨fun h => ?_, F64.magnitude_lt⟩
  rcases Nat.lt_trichotomy a.magBits b.magBits with hlt | heq | hgt
  · exact hlt
  · exact absurd (F64.magnitude_eq heq) h.ne
  · exact absurd (F64.magnitude_lt hgt) h.asymm

theorem magnitude_eq_zero_iff {a : F64} : a.sig * 2 ^ (a.scale - 1) = 0 ↔ a.magBits = 0 := by
  rw [Nat.mul_eq_zero, ← isZero_iff_sig, isZero_iff, or_iff_left (Nat.two_pow_pos _).ne']

theorem order_eq (v : F64) : v.order = signOf v.sign * v.magBits := ite_neg_eq_signOf ..

theorem order_cases (v : F64) :
    (v.sign = false ∧ v.order = v.magBits) ∨ (v.sign = true ∧ v.order = -v.magBits) := by
  rw [order_eq]
  cases v.sign <;> simp [signOf]

/-- The order of images is the order of exact values. -/
theorem order_lt_iff (a b : F64) : a.order < b.order ↔ a.units < b.units := by
  have hlt := magnitude_lt_iff (a := a) (b := b)
  have hgt := magnitude_lt_iff (a := b) (b := a)
  have ha := magnitude_eq_zero_iff (a := a)
  have hb := magnitude_eq_zero_iff (a := b)
  rw [order_eq, order_eq, units_eq, units_eq]
  generalize a.sig * 2 ^ (a.scale - 1) = ma, b.sig * 2 ^ (b.scale - 1) = mb at *
  cases a.sign <;> cases b.sign <;> simp only [signOf, if_true, if_false, Bool.false_eq_true] <;> omega

section
variable {a b : F64} (ha : a.isNaN = false) (hb : b.isNaN = false)
include ha hb

theorem gt_iff_order : F64.gt a b = true ↔ b.order < a.order := by simp [F64.gt, ha, hb]

theorem ge_iff_order : F64.ge a b = true ↔ b.order ≤ a.order := by simp [F64.ge, ha, hb]

end

/-! ## The infinities at the two ends -/

theorem order_posInf : F64.order 0x7FF0000000000000 = 2047 * 2 ^ 52 := by decide

theorem order_negInf : F64.order 0xFFF0000000000000 = -(2047 * 2 ^ 52) := by decide

/-- A value that is no NaN lies between the infinities, which nothing else equals. -/
theorem order_bounds {v : F64} (h : v.isNaN = false) :
    -(2047 * 2 ^ 52) ≤ v.order ∧ v.order ≤ 2047 * 2 ^ 52 ∧
    (v.order = 2047 * 2 ^ 52 ↔ v = 0x7FF0000000000000) ∧ (v.order = -(2047 * 2 ^ 52) ↔ v = 0xFFF0000000000000) := by
  have hmag : v.magBits ≤ 2047 * 2 ^ 52 := by
    have he : v.expField < 2 ^ 11 := Nat.mod_lt _ (by decide)
    have hf := F64.frac_lt v
    have hn : v.expField = 2047 → v.frac = 0 := by simpa [F64.isNaN] using h
    rw [F64.magBits_eq]
    omega
  rcases order_cases v with ⟨hs, ho⟩ | ⟨hs, ho⟩
  · refine ⟨by omega, by omega, ⟨fun h => ?_, fun he => he ▸ order_posInf⟩, ⟨fun h => ?_, fun he => he ▸ order_negInf⟩⟩
    · exact eq_of_sign_magBits hs (show v.magBits = 2047 * 2 ^ 52 by omega)
    · omega
  · refine ⟨by omega, by omega, ⟨fun h => ?_, fun he => he ▸ order_posInf⟩, ⟨fun h => ?_, fun he => he ▸ order_negInf⟩⟩
    · omega
    · exact eq_of_sign_magBits hs (show v.magBits = 2047 * 2 ^ 52 by omega)

theorem comparisons_with_infinities {v : F64} (h : v.isNaN = false) :
    (F64.gt 0x7FF0000000000000 v = true ↔ v ≠ 0x7FF0000000000000) ∧ F64.ge 0x7FF0000000000000 v = true ∧
    F64.gt v 0x7FF0000000000000 = false ∧ (F64.ge v 0x7FF0000000000000 = true ↔ v = 0x7FF0000000000000) ∧
    (F64.gt v 0xFFF0000000000000 = true ↔ v ≠ 0xFFF0000000000000) ∧ F64.ge v 0xFFF0000000000000 = true ∧
    F64.gt 0xFFF0000000000000 v = false ∧ (F64.ge 0xFFF0000000000000 v = true ↔ v = 0xFFF0000000000000) := by
  obtain ⟨hlo, hhi, hpos, hneg⟩ := order_bounds h
  have hp : F64.isNaN 0x7FF0000000000000 = false := by decide
  have hn : F64.isNaN 0xFFF0000000000000 = false := by decide
  simp only [← Bool.not_eq_true, gt_iff_order h hp, gt_iff_order hp h, gt_iff_order h hn, gt_iff_order hn h,
    ge_iff_order h hp, ge_iff_order hp h, ge_iff_order h hn, ge_iff_order hn h, order_posInf, order_negInf, ne_eq,
    ← hpos, ← hneg]
  omega

/-! ## Operations with a NaN or an infinity (R8, R12) -/

section
variable (k : DrawKey) {a b : F64}

theorem add_of_isNaN (h : a.isNaN = true ∨ b.isNaN = true) : F64.add k a b = F64.nan k := by
  rcases h with h | h <;> simp [F64.add, h]

theorem sub_of_isNaN (h : a.isNaN = true ∨ b.isNaN = true) : F64.sub k a b = F64.nan k :=
  add_of_isNaN k (h.imp_right (neg_isNaN b).trans)

theorem mul_of_isNaN (h : a.isNaN = true ∨ b.isNaN = true) : F64.mul k a b = F64.nan k := by
  rcases h with h | h <;> simp [F64.mul, h]

theorem div_of_isNaN (h : a.isNaN = true ∨ b.isNaN = true) : F64.div k a b = F64.nan k := by
  rcases h with h | h <;> simp [F64.div, h]

theorem comparisons_of_isNaN (h : a.isNaN = true ∨ b.isNaN = true) : F64.gt a b = false ∧ F64.ge a b = false := by
  rcases h with h | h <;> simp [F64.gt, F64.ge, h]

theorem div_inf_inf (ha : a.isInf = true) (hb : b.isInf = true) : F64.div k a b = F64.nan k := by
  simp [F64.div, not_isNaN_of_isInf, ha, hb]

theorem add_inf_inf (ha : a.isInf = true) (hb : b.isInf = true) (hs : a.sign ≠ b.sign) :
    F64.add k a b = F64.nan k := by
  simp [F64.add, not_isNaN_of_isInf, ha, hb, hs]

theorem sub_inf_inf (ha : a.isInf = true) (hb : b.isInf = true) (hs : a.sign = b.sign) :
    F64.sub k a b = F64.nan k :=
  add_inf_inf k ha ((neg_isInf b).trans hb) (by simp [hs])

theorem div_zero_zero (ha : a.isZero = true) (hb : b.isZero = true) : F64.div k a b = F64.nan k := by
  have hfa := isFinite_of_isZero ha
  have hfb := isFinite_of_isZero hb
  simp [F64.div, not_isNaN_of_isFinite, not_isInf_of_isFinite, hfa, hfb, ha, hb]

/-- R8: a nonzero finite value over a zero. -/
theorem div_finite_zero (ha : a.isFinite = true) (h0 : a.isZero = false) (hb : b.isZero = true) :
    F64.div k a b = F64.infOf (a.sign != b.sign) := by
  have hfb := isFinite_of_isZero hb
  simp [F64.div, not_isNaN_of_isFinite, not_isInf_of_isFinite, ha, hfb, h0, hb]

theorem mul_zero_inf (ha : a.isZero = true) (hb : b.isInf = true) : F64.mul k a b = F64.nan k := by
  have hfa := isFinite_of_isZero ha
  simp [F64.mul, not_isNaN_of_isFinite, not_isInf_of_isFinite, not_isNaN_of_isInf, hfa, ha, hb]

theorem mul_inf_zero (ha : a.isInf = true) (hb : b.isZero = true) : F64.mul k a b = F64.nan k := by
  have hfb := isFinite_of_isZero hb
  simp [F64.mul, not_isNaN_of_isFinite, not_isNaN_of_isInf, hfb, ha, hb]

section
variable (ha : a.isInf = true) (hb : b.isFinite = true)
include ha hb

theorem add_inf_finite : F64.add k a b = a := by
  simp [F64.add, not_isNaN_of_isInf, not_isNaN_of_isFinite, not_isInf_of_isFinite, ha, hb]

theorem add_finite_inf : F64.add k b a = a := by
  simp [F64.add, not_isNaN_of_isInf, not_isNaN_of_isFinite, not_isInf_of_isFinite, ha, hb]

theorem div_inf_finite : F64.div k a b = F64.infOf (a.sign != b.sign) := by
  simp [F64.div, not_isNaN_of_isInf, not_isNaN_of_isFinite, not_isInf_of_isFinite, ha, hb]

theorem div_finite_inf : F64.div k b a = F64.zeroOf (b.sign != a.sign) := by
  simp [F64.div, not_isNaN_of_isInf, not_isNaN_of_isFinite, not_isInf_of_isFinite, ha, hb]

theorem mul_inf_finite (h0 : b.isZero = false) : F64.mul k a b = F64.infOf (a.sign != b.sign) := by
  simp [F64.mul, not_isNaN_of_isInf, not_isNaN_of_isFinite, ha, hb, h0]

theorem mul_finite_inf (h0 : b.isZero = false) : F64.mul k b a = F64.infOf (b.sign != a.sign) := by
  simp [F64.mul, not_isNaN_of_isInf, not_isNaN_of_isFinite, not_isInf_of_isFinite, ha, hb, h0]

end

end

/-! ## The statements -/

/-- Settles O37: each invalid operation answers the NaN of its draw; comparisons are those of `F64.order`, which rises with the
exact value and has the infinities at its ends. -/
theorem invalidOperationsGiveNaN : Obligations.InvalidOperationsGiveNaN := by
  unfold Obligations.InvalidOperationsGiveNaN
  refine ⟨fun k a b => ⟨fun h => ?_, fun ha hb => ?_, fun ha hb => ?_, fun ha hb => ?_⟩, fun a b ha hb => ?_,
    fun v hv => comparisons_with_infinities hv⟩
  · rw [add_of_isNaN k h, sub_of_isNaN k h, mul_of_isNaN k h, div_of_isNaN k h]
    exact ⟨F64.nan_isNaN k, F64.nan_isNaN k, F64.nan_isNaN k, F64.nan_isNaN k, comparisons_of_isNaN h⟩
  · rw [div_inf_inf k ha hb]
    refine ⟨F64.nan_isNaN k, fun hs => ?_, fun hs => ?_⟩
    · rw [sub_inf_inf k ha hb hs, F64.nan_isNaN]
    · rw [add_inf_inf k ha hb hs, F64.nan_isNaN]
  · rw [div_zero_zero k ha hb, F64.nan_isNaN]
  · rw [mul_zero_inf k ha hb, mul_inf_zero k hb ha, F64.nan_isNaN]
    exact ⟨rfl, rfl⟩
  · have hna := not_isNaN_of_isFinite ha
    have hnb := not_isNaN_of_isFinite hb
    rw [gt_iff_order hna hnb, ge_iff_order hna hnb, order_lt_iff, ← not_lt, order_lt_iff, not_lt]
    exact ⟨Iff.rfl, Iff.rfl⟩

/-- Settles O38: each case is one branch of the operation. -/
theorem infinitiesKeepTheirSigns : Obligations.InfinitiesKeepTheirSigns := by
  unfold Obligations.InfinitiesKeepTheirSigns
  intro k a b
  refine ⟨div_finite_zero k, fun ha hb => ⟨add_inf_finite k ha hb, add_finite_inf k ha hb,
    add_inf_finite k ha ((neg_isFinite b).trans hb), div_inf_finite k ha hb, ?_, fun h0 => ⟨mul_inf_finite k ha hb h0, ?_⟩⟩⟩
  · rw [div_finite_inf k ha hb, bne_comm]
  · rw [mul_finite_inf k ha hb h0, bne_comm]

/-- R10: a NaN operand gives a NaN. -/
theorem transcendental_of_isNaN {v : F64} (h : v.isNaN = true) :
    (F64.exp v).isNaN = true ∧ (F64.sin v).isNaN = true ∧ (F64.cos v).isNaN = true := by
  simp [F64.exp, F64.sin, F64.cos, h]

/-- R10: the sine and the cosine of an infinity are NaNs. -/
theorem sin_cos_of_isInf {v : F64} (h : v.isInf = true) : (F64.sin v).isNaN = true ∧ (F64.cos v).isNaN = true := by
  simp [F64.sin, F64.cos, h]

/-- Settles O39: the anchors at single values are computed, the NaNs are drawn NaNs. -/
theorem transcendentalAnchors : Obligations.TranscendentalAnchors :=
  ⟨rfl, rfl, rfl, rfl, rfl, rfl, rfl, fun _ h => transcendental_of_isNaN h, fun _ h => sin_cos_of_isInf h⟩

end Sys2Proof.Machine
end

section
/-! PROOFS. Derived counts, `f64(n)` and `floor` (00_scope.md R15, R16, R185; statement DerivedCountIsTheFloorOrAFault). -/

namespace Sys2Proof.Machine

/-! ## The floor (R16) -/

/-- R16: the floor is the greatest integer not above the value. -/
theorem floorInt_bounds (v : F64) :
    v.floorInt * 2 ^ 1074 ≤ v.units ∧ v.units < (v.floorInt + 1) * 2 ^ 1074 := by
  have hpos : (0 : Int) < (2 ^ 1074 : Nat) := by positivity
  have hle : v.floorInt * (2 ^ 1074 : Nat) ≤ v.units := Int.ediv_mul_le v.units hpos.ne'
  have hlt : v.units < (v.floorInt + 1) * (2 ^ 1074 : Nat) := Int.lt_ediv_add_one_mul_self v.units hpos
  rw [Nat.cast_pow, Nat.cast_ofNat] at hle hlt
  exact ⟨hle, hlt⟩

/-- The floor of a finite value has a significand of 53 bits at some last place `2^j`, within the range of binary64. -/
theorem floorInt_place {v : F64} (hv : v.isFinite = true) :
    ∃ j, j ≤ 971 ∧ 2 ^ j ∣ v.floorInt.natAbs ∧ v.floorInt.natAbs < 2 ^ (53 + j) := by
  have hscale : v.scale ≤ 2046 := by
    have h := isFinite_iff.1 hv
    have : v.expField < 2 ^ 11 := Nat.mod_lt _ (by decide)
    unfold F64.scale
    split <;> omega
  have hsig := sig_lt v
  have hT : 0 < 2 ^ 1074 := by positivity
  unfold F64.floorInt
  rcases Nat.lt_or_ge (v.scale - 1) 1074 with hk | hk
  · refine ⟨0, by omega, one_dvd _, ?_⟩
    have hmag : v.sig * 2 ^ (v.scale - 1) ≤ 2 ^ 52 * 2 ^ 1074 := by
      calc v.sig * 2 ^ (v.scale - 1) ≤ 2 ^ 53 * 2 ^ (v.scale - 1) := Nat.mul_le_mul_right _ hsig.le
        _ = 2 ^ (53 + (v.scale - 1)) := (pow_add ..).symm
        _ ≤ 2 ^ (52 + 1074) := pow_le_pow_right₀ (by decide) (by omega)
        _ = 2 ^ 52 * 2 ^ 1074 := pow_add ..
    have habs : v.units.natAbs ≤ 2 ^ 52 * 2 ^ 1074 := by rwa [units_eq, natAbs_signOf_mul, Int.natAbs_natCast]
    generalize 2 ^ 1074 = T at *
    have hlo : -2 ^ 52 ≤ v.units / (T : Int) := (Int.le_ediv_iff_mul_le (by omega)).2 (by omega)
    have hhi : v.units / (T : Int) < 2 ^ 52 + 1 := (Int.ediv_lt_iff_lt_mul (by omega)).2 (by omega)
    omega
  · refine ⟨v.scale - 1 - 1074, by omega, ?_⟩
    have hunits : v.units = signOf v.sign * (v.sig * 2 ^ (v.scale - 1 - 1074) : Nat) * (2 ^ 1074 : Nat) := by
      rw [mul_assoc, ← Int.natCast_mul, Nat.mul_assoc, ← pow_add, Nat.sub_add_cancel hk, units_eq]
    rw [hunits, Int.mul_ediv_cancel _ (Int.natCast_ne_zero.mpr hT.ne'), natAbs_signOf_mul, Int.natAbs_natCast, pow_add]
    exact ⟨Nat.dvd_mul_left .., Nat.mul_lt_mul_of_pos_right hsig (Nat.two_pow_pos _)⟩

/-! ## Integers as binary64 values (R15, R185) -/

theorem zeroOf_units (neg : Bool) : (F64.zeroOf neg).units = 0 := by
  rw [units_eq, isZero_iff_sig.1 (F64.zeroOf_isZero neg), Nat.zero_mul, Nat.cast_zero, mul_zero]

/-- An integer with a significand of 53 bits is a binary64 value, exactly. -/
theorem integer_exact (neg : Bool) {n j : Nat} (hn : n ≠ 0) (hj : j ≤ 971) (hd : 2 ^ j ∣ n) (hlt : n < 2 ^ (53 + j)) :
    (F64.roundScaled neg n 1074 0).isFinite = true ∧ (F64.roundScaled neg n 1074 0).sign = neg ∧
      (F64.roundScaled neg n 1074 0).units = signOf neg * n * 2 ^ 1074 := by
  have hlog : Nat.log2 n < 53 + j := (Nat.log2_lt hn).2 hlt
  have hdvd : 2 ^ (Nat.log2 n - 52) ∣ n := (Nat.pow_dvd_pow 2 (by omega)).trans hd
  obtain ⟨hfinite, hsign, hunits⟩ := F64.roundScaled_exact neg hn (by omega) hdvd (show 1074 + Nat.log2 n < 2098 by omega)
  refine ⟨hfinite, hsign, hunits.trans ((ite_neg_eq_signOf ..).trans ?_)⟩
  rw [Nat.cast_mul, Nat.cast_pow, mul_assoc]
  rfl

/-- R15: `f64(n)` is the exact value of a count the block can hold. -/
theorem ofNat_exact {n : Nat} (hn : n < 2 ^ 32) :
    (F64.ofNat n).isFinite = true ∧ (F64.ofNat n).sign = false ∧ (F64.ofNat n).units = n * 2 ^ 1074 := by
  rcases Nat.eq_zero_or_pos n with rfl | hpos
  · have h0 : F64.ofNat 0 = F64.zeroOf false := roundScaled_zero ..
    rw [h0, zeroOf_units, Nat.cast_zero, zero_mul]
    exact ⟨rfl, rfl, rfl⟩
  · obtain ⟨hfinite, hsign, hunits⟩ := integer_exact false hpos.ne' (Nat.zero_le 971) (one_dvd n) (by omega)
    refine ⟨hfinite, hsign, hunits.trans ?_⟩
    rw [signOf, if_neg Bool.false_ne_true, one_mul]

theorem floor_of_floorInt_zero {v : F64} (h : v.floorInt = 0) :
    F64.floor v = F64.zeroOf (v.isZero && v.sign && Config.floorOfNegZeroIsNeg) := if_pos h

theorem floor_of_floorInt_ne_zero {v : F64} (h : v.floorInt ≠ 0) :
    F64.floor v = F64.roundScaled (decide (v.floorInt < 0)) v.floorInt.natAbs 1074 0 := if_neg h

/-- R185: `floor` of a finite value is the integer of R16, exactly. -/
theorem floor_exact {v : F64} (hv : v.isFinite = true) :
    (F64.floor v).isFinite = true ∧ (F64.floor v).units = v.floorInt * 2 ^ 1074 ∧
    (v.floorInt = 0 → F64.floor v = F64.zeroOf (v.isZero && v.sign && Config.floorOfNegZeroIsNeg)) := by
  obtain ⟨j, hj, hdvd, hlt⟩ := floorInt_place hv
  refine ⟨?_, ?_, floor_of_floorInt_zero⟩ <;> rcases eq_or_ne v.floorInt 0 with h0 | h0
  · rw [floor_of_floorInt_zero h0]
    exact isFinite_of_isZero (F64.zeroOf_isZero _)
  · rw [floor_of_floorInt_ne_zero h0]
    exact (integer_exact _ (Int.natAbs_ne_zero.mpr h0) hj hdvd hlt).1
  · rw [floor_of_floorInt_zero h0, h0, zeroOf_units, zero_mul]
  · rw [floor_of_floorInt_ne_zero h0, (integer_exact _ (Int.natAbs_ne_zero.mpr h0) hj hdvd hlt).2.2, signOf_mul_natAbs]

/-! ## Derived counts (R16) -/

theorem overflows_of_isFinite {v : F64} (hv : v.isFinite = true) (cap : Nat) :
    overflows v cap = decide (v.floorInt > cap) := by
  have hp : (v == F64.posInf) = false := by
    rw [beq_eq_false_iff_ne]
    rintro rfl
    exact absurd hv (by decide)
  simp [overflows, not_isNaN_of_isFinite hv, hp, hv]

theorem derivedLength_of_isFinite {v : F64} (hv : v.isFinite = true) : derivedLength v = v.floorInt.toNat := if_pos hv

/-- R16: a finite value whose floor fits counts as its floor, 0 below 1. -/
theorem count_of_isFinite {v : F64} (hv : v.isFinite = true) {cap : Nat} (hle : v.floorInt ≤ cap) (id : BitVec 64) :
    count v cap id = .ok v.floorInt.toNat := by
  rw [count_fits, derivedLength_of_isFinite hv]
  rw [overflows_of_isFinite hv, decide_eq_false_iff_not]
  omega

/-- Settles O40: a count is the model's list of overflows or its derived length; the floor of a finite value and every count
are integers of at most 53 significant bits, which rounding leaves exact. -/
theorem derivedCountIsTheFloorOrAFault : Obligations.DerivedCountIsTheFloorOrAFault := by
  unfold Obligations.DerivedCountIsTheFloorOrAFault
  refine ⟨fun v cap id => ⟨fun h => ?_, fun h => ?_, fun hv => ⟨floorInt_bounds v, fun hlt => ?_, fun h1 hgt => ?_,
    fun h1 hle => count_of_isFinite hv hle id⟩⟩, fun n hn => ofNat_exact hn, fun v hv => floor_exact hv⟩
  · refine count_overflows ?_ id
    rcases h with h | rfl
    · simp [overflows, h]
    · rfl
  · subst h
    exact count_fits rfl id
  · rw [count_of_isFinite hv (by omega), Int.toNat_of_nonpos (by omega)]
  · refine count_overflows ?_ id
    rw [overflows_of_isFinite hv]
    exact decide_eq_true hgt

end Sys2Proof.Machine
end

section
/-! PROOFS. What a command leaves unchanged (statements CommandsWriteOnlyTheirDestinations and OnlyMuIsWrittenByCommands): the
effect of a command keeps every slot but its destinations and every register but `MU`, and the frame around it keeps both. -/

namespace Sys2Proof.Machine

/-! ## The effect -/

theorem State.SlotsKept.refl (s : State) (ds : List SlotNo) : s.SlotsKept s ds := fun _ _ => ⟨rfl, fun _ => rfl⟩

theorem State.slotsKept_writeBundle (s : State) (d m t : SlotNo) (x y z : List F64) :
    s.SlotsKept (s.writeBundle d m t x y z) [d, m, t] :=
  ((s.slotsKept_writeSlot t x).trans ((s.writeSlot t x).slotsKept_writeSlot m y)).trans
    (((s.writeSlot t x).writeSlot m y).slotsKept_writeSlot d z)

/-- R36: the effect of a command writes its destination slots and no other. -/
theorem Effect.slotsKept {i : Instr} {a u : State} (h : Effect i a u) : a.SlotsKept u i.dests := by
  rcases h with ⟨d, r, y, c, hd, -, -, rfl, -⟩ | ⟨d, m, t, x, y, z, n, hd, -, -, -, -, ⟨-, rfl⟩ | ⟨-, v, rfl⟩⟩ <;> rw [hd]
  · exact a.slotsKept_writeSlot d y
  · exact a.slotsKept_writeBundle d m t x y z
  · exact a.slotsKept_writeBundle d m t x y z

theorem Effect.regsKept {i : Instr} {a u : State} (h : Effect i a u) : a.RegsKept u := by
  rcases h with ⟨d, r, y, c, -, -, -, rfl, -⟩ | ⟨d, m, t, x, y, z, n, -, -, -, -, -, ⟨-, rfl⟩ | ⟨-, v, rfl⟩⟩ <;>
    exact ⟨rfl, rfl, rfl, rfl, rfl, rfl⟩

/-- R23, R192: the effect of a command writes no parameter register, or `MU` in a form that writes it. -/
theorem Effect.params {i : Instr} {a u : State} (h : Effect i a u) :
    u.p = a.p ∨ (i.writesMu = true ∧ ∃ v, u.p = { a.p with mu := v }) := by
  rcases h with ⟨d, r, y, c, -, -, -, rfl, -⟩ | ⟨d, m, t, x, y, z, n, -, -, -, -, -, ⟨-, rfl⟩ | ⟨hmu, v, rfl⟩⟩
  · exact .inl rfl
  · exact .inl rfl
  · exact .inr ⟨hmu, v, rfl⟩

/-! ## The frame -/

theorem exec_slotsKept {i : Instr} {s t : State} (h : exec i s = .next t) : s.SlotsKept t i.dests := by
  rcases exec_cases h with ⟨-, rfl⟩ | ⟨-, r, rfl⟩ | ⟨-, -, u, rfl, hu⟩
  · exact .refl t i.dests
  · exact .refl s i.dests
  · exact hu.slotsKept

theorem exec_regsKept {i : Instr} {s t : State} (h : exec i s = .next t) : s.RegsKept t := by
  rcases exec_cases h with ⟨-, rfl⟩ | ⟨-, r, rfl⟩ | ⟨-, -, u, rfl, hu⟩
  · exact ⟨rfl, rfl, rfl, rfl, rfl, rfl⟩
  · exact ⟨rfl, rfl, rfl, rfl, rfl, rfl⟩
  · exact { hu.regsKept with }

/-- R23, R192: a command that changes a parameter register completes, is an amplitude-offset form, and changes `MU`. -/
theorem exec_params {i : Instr} {s t : State} (h : exec i s = .next t) :
    t.p = s.p ∨ (s.status.fault = false ∧ t.status.fault = false ∧ i.writesMu = true ∧ ∃ v, t.p = { s.p with mu := v }) := by
  rcases exec_cases h with ⟨-, rfl⟩ | ⟨-, r, rfl⟩ | ⟨hf, -, u, rfl, hu⟩
  · exact .inl rfl
  · exact .inl rfl
  · exact hu.params.imp_right fun hmu => ⟨hf, hu.flags_kept.1.trans hf, hmu⟩

/-! ## The source (R55) -/

/-- The slots of a command being distinct, its source is no destination. -/
theorem src_notMem_dests {i : Instr} (hw : i.wf = true) {r : SlotNo} (hr : i.src? = some r) : r ∉ i.dests := by
  cases i with
  | lowpass d _ | highpass d _ | bandpass d _ | bandstop d _ | mavg d _ | envdetRaw d _ | envdetHw d _ | envdetFw d _
  | hwr d _ | fwr d _ | dcrem d _ | dcoff d _ | diff d _ | adiff d _ | integ d _ | amdemod d _ | fmdemod d _ =>
    cases hr
    have hne : d ≠ r := of_decide_eq_true hw
    exact List.not_mem_cons_of_ne_of_not_mem hne.symm List.not_mem_nil
  | ammodSin | ammodTri | ammodSqr | ammodIdx | fmmod => cases hr

theorem State.SlotsKept.source_eq {s t : State} {ds : List SlotNo} (h : s.SlotsKept t ds) {r : SlotNo} (hr : r ∉ ds) :
    t.source r = s.source r := by
  obtain ⟨hlen, hread⟩ := h r hr
  simp only [State.source, Memory.samples, hlen, hread]

/-! ## The statements -/

/-- Settles O16: every answer of a command keeps the slots outside its destinations, of which its source is none. -/
theorem commandsWriteOnlyTheirDestinations : Obligations.CommandsWriteOnlyTheirDestinations := by
  unfold Obligations.CommandsWriteOnlyTheirDestinations
  intro i s t h
  have hkept : s.SlotsKept t i.dests := exec_slotsKept h
  exact ⟨hkept, fun hw r hr => hkept.source_eq (src_notMem_dests hw hr)⟩

/-- Settles O17: the parameter registers stay, or the command completed and changed `MU` alone. -/
theorem onlyMuIsWrittenByCommands : Obligations.OnlyMuIsWrittenByCommands := by
  unfold Obligations.OnlyMuIsWrittenByCommands
  intro i s t h
  refine ⟨exec_regsKept h, ?_⟩
  rcases exec_params h with hp | ⟨hs, ht, hmu, hp⟩
  · exact ⟨⟨s.p.mu, hp⟩, fun _ => hp⟩
  · exact ⟨hp, fun hno => by simp [hmu, hs, ht] at hno⟩

end Sys2Proof.Machine
end

section
/-! PROOFS. What one step does to `FAULT` and `CORRECTED` (statements FaultIsStickyUntilAcknowledged and
CorrectedComesOnlyFromFmdemod): a host operation that is no issue, no write to `CTRL` and no reset keeps `STATUS`. -/

namespace Sys2Proof.Machine

@[simp] theorem State.storeReg_status (s : State) (r : Nat) (v : BitVec 64) : (s.storeReg r v).status = s.status := by
  rcases s.storeReg_cases r v with ⟨d, n, -, e⟩ | ⟨p, k, e⟩ <;> rw [e]

/-- R27: what a host operation can do to `STATUS`. -/
theorem hostOp_status_cases {op : HostOp} {s t : State} (h : hostOp op s = .next t) :
    t.status = s.status ∨
    (∃ v, op = .writeReg 0x20 v ∧ issue (issuedWord v) s = .next t) ∨
    (∃ v, op = .writeReg 0x24 v ∧ t = s.control v) ∨
    (op = .extReset ∧ t = s.resetBlock) := by
  rcases hostOp_cases h with ⟨v, rfl⟩ | hissue | hcontrol | ⟨r, v, -, -, -, rfl⟩ | ⟨d, i, v, -, rfl⟩ | hreset
  · exact .inl rfl
  · exact .inr (.inl hissue)
  · exact .inr (.inr (.inl hcontrol))
  · exact .inl (s.storeReg_status r v)
  · exact .inl rfl
  · exact .inr (.inr (.inr hreset))

/-! ## FAULT -/

/-- R272: an issue while a fault is recorded leaves `FAULT` set. -/
theorem issue_keeps_fault {w : BitVec 32} {s t : State} (h : issue w s = .next t) (hf : s.status.fault = true) :
    t.status.fault = true := by
  rcases issue_cases h with ⟨-, rfl⟩ | ⟨hs, -⟩ | ⟨hs, -⟩
  · exact hf
  · rw [hs] at hf; cases hf
  · rw [hs] at hf; cases hf

/-- R30: a write to `CTRL` with bits 0 and 1 clear leaves `FAULT` set. -/
theorem control_keeps_fault {s : State} (v : BitVec 64) (hf : s.status.fault = true) :
    (s.control v).status.fault = true ∨ v.getLsbD 0 = true ∨ v.getLsbD 1 = true := by
  rcases s.control_cases v with ⟨h1, -⟩ | ⟨-, h0, -⟩ | ⟨-, -, e⟩
  · exact .inr (.inr h1)
  · exact .inr (.inl h0)
  · rw [e]
    exact .inl hf

/-- Settles O19: an issue keeps a recorded fault, and of the other operations only `CTRL` and the reset change `STATUS`. -/
theorem faultIsStickyUntilAcknowledged : Obligations.FaultIsStickyUntilAcknowledged := by
  unfold Obligations.FaultIsStickyUntilAcknowledged
  intro s t h hf
  rcases step_cases h with ⟨-, rfl⟩ | ⟨op, rest, hops, ho⟩
  · exact .inl hf
  rcases hostOp_status_cases ho with hst | ⟨v, -, hi⟩ | ⟨v, rfl, rfl⟩ | ⟨rfl, -⟩
  · exact .inl (hst ▸ hf)
  · exact .inl (issue_keeps_fault hi hf)
  · exact (control_keeps_fault v (s := { s with ops := rest }) hf).imp_right fun hv => .inl ⟨v, rest, hops, hv⟩
  · exact .inr (.inr ⟨rest, hops⟩)

/-! ## CORRECTED -/

/-- R224: FMDEMOD sets `CORRECTED` in a state where its override is degenerate. -/
theorem fmdemod_corrected {d r : SlotNo} {ovr plain prime : Bool} {s t : State}
    (h : exec (.fmdemod d r ovr plain prime) s = .next t) (hf : s.status.fault = false)
    (ht : t.status.corrected = true) : s.overrideCorrected ovr = true := by
  rw [exec, execFmdemod] at h
  rcases frame_cases h with ⟨hs, -⟩ | ⟨-, -, rfl⟩ | ⟨-, -, e, -, rfl⟩ | ⟨-, -, w, -, rfl⟩
  · rw [hs] at hf; cases hf
  · cases ht
  · cases ht
  · exact ht

/-- R224: a command that ends with `CORRECTED` set is FMDEMOD with `OVR`, where `HIGH > LOW` is false. -/
theorem exec_corrected {i : Instr} {s t : State} (h : exec i s = .next t) (hf : s.status.fault = false)
    (ht : t.status.corrected = true) :
    ∃ d r plain prime, i = .fmdemod d r true plain prime ∧ F64.gt s.p.high s.p.low = false := by
  rcases exec_cases h with ⟨hs, -⟩ | ⟨-, r, rfl⟩ | ⟨-, -, u, rfl, hu⟩
  · rw [hs] at hf; cases hf
  · cases ht
  rcases hu with ⟨d, r, y, c, -, -, -, rfl, hc⟩ | ⟨d, m, t, x, y, z, n, -, -, -, -, -, ⟨-, rfl⟩ | ⟨-, v, rfl⟩⟩
  · obtain ⟨-, plain, prime, rfl⟩ := hc ht
    have hgt : (!F64.gt s.p.high s.p.low) = true := fmdemod_corrected h hf ht
    exact ⟨d, r, plain, prime, rfl, by simpa using hgt⟩
  · cases ht
  · cases ht

/-- R246, R270: `CORRECTED` after an issue was set before it, or by the issued command. -/
theorem issue_corrected {w : BitVec 32} {s t : State} (h : issue w s = .next t) (ht : t.status.corrected = true) :
    s.status.corrected = true ∨
    ∃ d r plain prime, decode w = .ok (.fmdemod d r true plain prime) ∧ F64.gt s.p.high s.p.low = false := by
  rcases issue_cases h with ⟨-, rfl⟩ | ⟨-, -, rfl⟩ | ⟨hf, i, hdec, hi⟩
  · exact .inl ht
  · cases ht
  · obtain ⟨d, r, plain, prime, rfl, hgt⟩ := exec_corrected hi hf ht
    exact .inr ⟨d, r, plain, prime, hdec, hgt⟩

theorem control_corrected {s : State} {v : BitVec 64} (h : (s.control v).status.corrected = true) :
    s.status.corrected = true := by
  rcases s.control_cases v with ⟨-, e⟩ | ⟨-, -, e⟩ | ⟨-, -, e⟩ <;> rw [e] at h
  · cases h
  · exact h
  · exact h

/-- Settles O21: of the operations that change `STATUS`, a write to `CTRL` and the reset set no flag, and an issue sets
`CORRECTED` for FMDEMOD alone. -/
theorem correctedComesOnlyFromFmdemod : Obligations.CorrectedComesOnlyFromFmdemod := by
  unfold Obligations.CorrectedComesOnlyFromFmdemod
  intro s t h ht
  rcases step_cases h with ⟨-, rfl⟩ | ⟨op, rest, hops, ho⟩
  · exact .inl ht
  rcases hostOp_status_cases ho with hst | ⟨v, rfl, hi⟩ | ⟨v, -, rfl⟩ | ⟨-, rfl⟩
  · exact .inl (hst ▸ ht)
  · refine (issue_corrected hi ht).imp_right ?_
    rintro ⟨d, r, plain, prime, hdec, hgt⟩
    exact ⟨v, rest, d, r, plain, prime, hops, hdec, hgt⟩
  · exact .inl (control_corrected (s := { s with ops := rest }) ht)
  · cases ht

end Sys2Proof.Machine
end

section
/-! PROOFS. The register map as the host reaches it (statements ResetReadsTheTableValues, ResetMeetsTheInvariant,
ParameterWriteReadsBack, CountWriteKeepsTheLow32Bits, ReservedAndReadOnlyWritesAreDropped and SystemRegistersReadBack): what
a read of each kind of register gives, and which writes are dropped. -/

namespace Sys2Proof.Machine

/-! ## Reads, by the kind of the register -/

theorem State.readReg_of_param {s : State} {r : Nat} {v : F64} (h : s.p.read r = some v) : s.readReg r = v := by
  rw [State.readReg, h]

/-- R241: an integer register reads zero-extended. -/
theorem State.readReg_of_count {s : State} {r : Nat} {n : BitVec 32} (hr : 0x0C < r) (h : s.k.read r = some n) :
    s.readReg r = n.setWidth 64 := by
  rw [State.readReg, ParamRegs.read_eq_none _ hr, h]

theorem State.readReg_len (s : State) (d : SlotNo) : s.readReg (0x30 + d.val) = BitVec.ofNat 64 s.len[d] := by
  rw [State.readReg, ParamRegs.read_eq_none _ (by omega), CountRegs.read_eq_none _ (by omega), lenSlot_len]

/-- R26, R31: outside `P`, `K` and `LEN` a number reads as its system register, or 0 when it has none. -/
theorem State.readReg_system (s : State) {r : Nat} (h : (0x0C < r ∧ r < 0x10) ∨ (0x15 < r ∧ r < 0x30) ∨ 0x40 ≤ r) :
    s.readReg r = (s.readSystem r).getD 0 := by
  rw [State.readReg, ParamRegs.read_eq_none _ (by omega), CountRegs.read_eq_none _ (by omega), lenSlot_eq_none (by omega)]
  cases s.readSystem r <;> rfl

/-- Two states that agree in every kind of register at a number read the same there. -/
theorem State.readReg_congr {s t : State} {q : Nat} (hp : t.p.read q = s.p.read q) (hk : t.k.read q = s.k.read q)
    (hlen : t.len = s.len) (hsys : t.readSystem q = s.readSystem q) : t.readReg q = s.readReg q := by
  rw [State.readReg, State.readReg, hp, hk, hlen, hsys]

/-! ## Writes -/

theorem hostOp_writeReg_stores (s : State) {r : Nat} (v : BitVec 64) (h : r ≠ 0x20) (h' : r ≠ 0x24) :
    hostOp (.writeReg r v) s = .next (s.storeReg r v) := by
  rw [hostOp, writeReg, if_neg h, if_neg h']

/-- R26, R31: a number outside `P`, `K` and `LEN` stores nothing. -/
theorem State.storeReg_eq_self (s : State) {r : Nat} (v : BitVec 64)
    (h : (0x0C < r ∧ r < 0x10) ∨ (0x15 < r ∧ r < 0x30) ∨ 0x40 ≤ r) : s.storeReg r v = s := by
  rw [State.storeReg, lenSlot_eq_none (by omega)]
  simp only [ParamRegs.write_eq_self _ _ (show 0x0C < r by omega),
    CountRegs.write_eq_self _ _ (show r < 0x10 ∨ 0x15 < r by omega)]

/-- Settles O27: the write stores to `P` alone, where the number reads back. -/
theorem parameterWriteReadsBack : Obligations.ParameterWriteReadsBack := by
  unfold Obligations.ParameterWriteReadsBack
  intro s r v hr
  refine ⟨{ s with p := s.p.write r v }, ?_, State.readReg_of_param ?_, fun q hq => State.readReg_congr ?_ rfl rfl rfl,
    rfl, rfl, rfl⟩
  · rw [hostOp_writeReg_stores s v (by omega) (by omega), s.storeReg_param v hr]
  · rw [s.p.read_write r v hr, if_pos rfl]
  · rw [s.p.read_write q v hr, if_neg hq]

/-- Settles O28: the write stores the low half to `K` alone, where the number reads back zero-extended. -/
theorem countWriteKeepsTheLow32Bits : Obligations.CountWriteKeepsTheLow32Bits := by
  unfold Obligations.CountWriteKeepsTheLow32Bits
  intro s r v hr hr'
  have hread : ∀ q, (s.k.write r (v.setWidth 32)).read q = if q = r then some (v.setWidth 32) else s.k.read q :=
    fun q => s.k.read_write q _ hr hr'
  refine ⟨{ s with k := s.k.write r (v.setWidth 32) }, ?_, ?_, fun q hq => State.readReg_congr rfl ?_ rfl rfl,
    rfl, rfl, rfl⟩
  · rw [hostOp_writeReg_stores s v (by omega) (by omega), s.storeReg_count v hr hr']
  · rw [State.readReg_of_count (by omega) ((hread r).trans (if_pos rfl)), BitVec.toNat_setWidth_of_le (by decide),
      BitVec.toNat_setWidth]
  · exact (hread q).trans (if_neg hq)

/-- Settles O30: the numbers are outside `P`, `K` and `LEN`, so a write stores nothing; the reserved ones name no system
register either. -/
theorem reservedAndReadOnlyWritesAreDropped : Obligations.ReservedAndReadOnlyWritesAreDropped := by
  unfold Obligations.ReservedAndReadOnlyWritesAreDropped
  intro s r
  have hdrop : r ≠ 0x20 → r ≠ 0x24 → (0x0C < r ∧ r < 0x10) ∨ (0x15 < r ∧ r < 0x30) ∨ 0x40 ≤ r →
      ∀ v, hostOp (.writeReg r v) s = .next s := fun h20 h24 hr v => by
    rw [hostOp_writeReg_stores s v h20 h24, s.storeReg_eq_self v hr]
  refine ⟨fun hr => ⟨?_, hdrop (by omega) (by omega) (by omega)⟩, fun hr => hdrop (by omega) (by omega) (by omega)⟩
  rw [s.readReg_system (by omega), s.readSystem_eq_none (by omega), Option.getD_none]

/-! ## The system registers (R26 to R30) -/

/-- R27: the three flags are bits 0 to 2 of `STATUS`. -/
theorem Status.getLsbD_word (t : Status) (b : Nat) :
    t.word.getLsbD b = (if b = 0 then t.fault else if b = 1 then t.corrected else if b = 2 then t.done else false) := by
  obtain ⟨f, c, d⟩ := t
  match b with
  | 0 | 1 | 2 => cases f <;> cases c <;> cases d <;> rfl
  | b + 3 =>
    have hlt : f.toNat + 2 * c.toNat + 4 * d.toNat < 2 ^ (b + 3) := by
      have hpow : 2 ^ 3 ≤ 2 ^ (b + 3) := Nat.pow_le_pow_right (by decide) (by omega)
      have := f.toNat_le; have := c.toNat_le; have := d.toNat_le
      omega
    rw [Status.word, BitVec.getLsbD_ofNat, Nat.testBit_lt_two_pow hlt, Bool.and_false]
    simp

theorem toNat_ofNat_of_lt {n : Nat} (h : n < 2 ^ 32) : (BitVec.ofNat 64 n).toNat = n := by
  rw [BitVec.toNat_ofNat, Nat.mod_eq_of_lt (by omega)]

/-- Settles O31: each number reads as its system register; the capacities and the lengths fit in 64 bits by the
invariant. -/
theorem systemRegistersReadBack : Obligations.SystemRegistersReadBack := by
  unfold Obligations.SystemRegistersReadBack
  intro s hs
  have hcapN : s.readReg 0x26 = BitVec.ofNat 64 s.capN := s.readReg_system (by omega)
  have hcapW : s.readReg 0x27 = BitVec.ofNat 64 s.capW := s.readReg_system (by omega)
  have hcmd : s.readReg 0x20 = s.cmd.setWidth 64 := s.readReg_system (by omega)
  have hcause : s.readReg 0x22 = s.cause.setWidth 64 := s.readReg_system (by omega)
  refine ⟨?_, s.status.getLsbD_word, ?_, rfl, rfl, ?_, ?_, rfl, fun d => ?_, fun r => rfl⟩
  · rw [hcmd, BitVec.toNat_setWidth_of_le (by decide)]
  · rw [hcause, BitVec.toNat_setWidth_of_le (by decide)]
  · rw [hcapN, toNat_ofNat_of_lt hs.capN_lt]
  · rw [hcapW, toNat_ofNat_of_lt hs.capW_lt]
  · rw [s.readReg_len, toNat_ofNat_of_lt ((hs.len_le d).trans_lt hs.capN_lt)]

/-! ## Reset (R45) -/

theorem one_le_maxN : 1 ≤ Config.maxN := Nat.succ_pos _

theorem maxN_lt : Config.maxN < 2 ^ 32 := Nat.succ_lt_succ Config.maxNPred.isLt

theorem one_le_maxW : 1 ≤ Config.maxW := Nat.succ_pos _

theorem maxW_lt : Config.maxW < 2 ^ 32 := Nat.succ_lt_succ Config.maxWPred.isLt

theorem State.reset_len (d : SlotNo) : State.reset.len[d] = 0 := Vector.getElem_replicate ..

theorem State.reset_spaceOk : State.reset.SpaceOk State.reset.draws where
  capN_pos := one_le_maxN
  capN_lt := maxN_lt
  capW_pos := one_le_maxW
  capW_lt := maxW_lt
  len_le d := by rw [State.reset_len]; exact Nat.zero_le _
  mem_wf := State.reset_mem_wf
  mem_below d := by
    rw [show State.reset.mem = Memory.unspecified 0 from rfl, Memory.slots_unspecified]
    rfl
  epoch_lt d := by
    rw [show State.reset.mem = Memory.unspecified 0 from rfl, Memory.slots_unspecified]
    exact Nat.one_pos

/-- The fault registers after reset are those a reset of any block leaves. -/
theorem State.reset_flagsOk : State.reset.FlagsOk := { State.flagsOk_resetBlock State.reset with }

/-- Settles O6: the sample space is empty and within its capacities, and no fault is recorded. -/
theorem resetMeetsTheInvariant : Obligations.ResetMeetsTheInvariant :=
  State.inv_of_halves State.reset_spaceOk State.reset_flagsOk

/-- R54: a read at or above `LEN` is refused. -/
theorem readSample_beyond {s : State} {d : SlotNo} {i : Nat} (h : s.len[d] ≤ i) :
    hostOp (.readSample d.val i) s = .refused .readBeyondLength := by
  rw [hostOp, readSample, dif_pos d.isLt]
  exact if_neg (Nat.not_lt.2 h)

theorem State.reset_read_param {r : Nat} (h : r ≤ 0x0C) : State.reset.p.read r = some 0 := by
  interval_cases r <;> rfl

/-- Settles O5: `P` and the lengths are 0; the system registers of the reset state read back by O31, whose invariant it
meets. -/
theorem resetReadsTheTableValues : Obligations.ResetReadsTheTableValues := by
  unfold Obligations.ResetReadsTheTableValues
  obtain ⟨-, -, -, -, -, hcapN, hcapW, hcapB, -, -⟩ := systemRegistersReadBack State.reset resetMeetsTheInvariant
  refine ⟨fun r hr => State.readReg_of_param (State.reset_read_param hr), rfl, rfl, rfl, rfl, rfl, rfl, ?_, fun d => ?_,
    hcapN, hcapW, hcapB, one_le_maxN, maxN_lt, one_le_maxW, maxW_lt,
    fun d i => readSample_beyond ((State.reset_len d).trans_le i.zero_le)⟩
  · intro r hlo hhi
    interval_cases r <;> rfl
  · rw [State.readReg_len, State.reset_len]
    rfl

end Sys2Proof.Machine
end

section
/-! PROOFS. The host's operations (statements HostOperationsRefusedExactlyOutsideTheSpaces, StepRunsTheDecodedCommand,
SampleWriteSetsOneSample and SampleReadReturnsTheStoredSample): what a sample operation answers inside and outside the spaces
of 20_memory.md R53 and R54, and that every other operation takes a next state. -/

namespace Sys2Proof.Machine

/-! ## Sample operations (R53, R54) -/

/-- A slot number names a slot, or is outside the sample space. -/
theorem slot_cases (slot : Nat) : (∃ d : SlotNo, slot = d.val) ∨ 16 ≤ slot :=
  (Nat.lt_or_ge slot 16).imp_left fun h => ⟨⟨slot, h⟩, rfl⟩

/-- R54: a read below `LEN` answers the stored sample. -/
theorem readSample_below {s : State} {d : SlotNo} {i : Nat} (h : i < s.len[d]) :
    hostOp (.readSample d.val i) s = .next (s.answer (s.mem.read d i)) := by
  rw [hostOp, readSample, dif_pos d.isLt]
  exact if_pos h

/-- R54: a read of a slot of 16 or more is refused. -/
theorem readSample_outside (s : State) {slot : Nat} (i : Nat) (h : 16 ≤ slot) :
    hostOp (.readSample slot i) s = .refused .readOutsideSlots := by
  rw [hostOp, readSample, dif_neg (Nat.not_lt.2 h)]

/-- R53: a write inside the sample space is the memory's write, whatever `LEN` is. -/
theorem writeSample_inside {s : State} (d : SlotNo) {i : Nat} (v : F64) (h : i < s.capN) :
    hostOp (.writeSample d.val i v) s = .next { s with mem := s.mem.write d i v } := by
  rw [hostOp, writeSample, dif_pos d.isLt, if_pos h]

/-- R53: a write outside the sample space is refused. -/
theorem writeSample_outside {s : State} {slot i : Nat} (v : F64) (h : 16 ≤ slot ∨ s.capN ≤ i) :
    hostOp (.writeSample slot i v) s = .refused .writeOutsideSlots := by
  rw [hostOp, writeSample]
  by_cases hs : slot < 16
  · rw [dif_pos hs, if_neg (by omega)]
  · rw [dif_neg hs]

/-- A write to one sample leaves every other sample of every slot. -/
theorem Memory.read_write_other (m : Memory) {d e : SlotNo} {i j : Nat} (h : e ≠ d ∨ j ≠ i) (v : F64) :
    (m.write d i v).read e j = m.read e j := by
  by_cases he : e = d
  · subst he
    exact m.read_write_other_index e (h.resolve_left (· rfl)) v
  · exact m.read_write_other_slot he i j v

/-! ## Register operations always take a next state (R240, R245, R250) -/

/-- R245, R250: a command always ends in a next state. -/
theorem exec_total (i : Instr) (s : State) : ∃ t, exec i s = .next t := by
  obtain ⟨α, checks, effect, he, -⟩ := exec_frame i s
  rw [he]
  exact frame_total i checks effect s

/-- R246 step 1: while a fault is recorded a command changes nothing. -/
theorem exec_refused (i : Instr) {s : State} (hf : s.status.fault = true) : exec i s = .next s := by
  obtain ⟨α, checks, effect, he, -⟩ := exec_frame i s
  rw [he, frame_refused hf]

/-- R244, R246: the issue of a legal word is its command with `CMD` set, also while a fault is recorded. -/
theorem issue_of_decode {w : BitVec 32} {i : Instr} (h : decode w = .ok i) (s : State) :
    issue w s = exec i { s with cmd := w } := by
  unfold issue
  by_cases hf : s.status.fault = true
  · rw [if_pos hf, exec_refused i (s := { s with cmd := w }) hf]
  · rw [if_neg hf, h]

theorem issue_total (w : BitVec 32) (s : State) : ∃ t, issue w s = .next t := by
  cases hd : decode w with
  | ok i => exact issue_of_decode hd s ▸ exec_total i _
  | error e =>
    unfold issue
    rw [hd]
    split <;> exact ⟨_, rfl⟩

theorem writeReg_total (r : Nat) (v : BitVec 64) (s : State) : ∃ t, writeReg r v s = .next t := by
  unfold writeReg
  split
  · exact issue_total _ s
  · split <;> exact ⟨_, rfl⟩

/-! ## Well-formed operations (R53, R54) -/

/-- The length the check on host operations sees for a slot is the slot's `LEN`. -/
theorem len_toList_getD (s : State) (d : SlotNo) : s.len.toList.getD d.val 0 = s.len[d] := by
  simp

/-- Every host operation inside the spaces takes a next state. -/
theorem hostOp_of_wf {op : HostOp} {s : State} (h : op.wf s.capN (fun d => s.len.toList.getD d 0) = true) :
    ∃ t, hostOp op s = .next t := by
  cases op with
  | readReg r => exact ⟨_, rfl⟩
  | writeReg r v => exact writeReg_total r v s
  | extReset => exact ⟨_, rfl⟩
  | readSample slot i =>
    simp only [HostOp.wf, Bool.and_eq_true, decide_eq_true_eq] at h
    obtain ⟨hs, hi⟩ := h
    obtain ⟨d, rfl⟩ := (slot_cases slot).resolve_right (Nat.not_le.2 hs)
    rw [len_toList_getD] at hi
    exact ⟨_, readSample_below hi⟩
  | writeSample slot i v =>
    simp only [HostOp.wf, Bool.and_eq_true, decide_eq_true_eq] at h
    obtain ⟨hs, hi⟩ := h
    obtain ⟨d, rfl⟩ := (slot_cases slot).resolve_right (Nat.not_le.2 hs)
    exact ⟨_, writeSample_inside d v hi⟩

/-- Every host operation outside the spaces is refused. -/
theorem hostOp_of_not_wf {op : HostOp} {s : State} (h : op.wf s.capN (fun d => s.len.toList.getD d 0) = false) :
    ∃ r, hostOp op s = .refused r := by
  cases op with
  | readReg r | writeReg r v | extReset => cases h
  | readSample slot i =>
    obtain ⟨d, rfl⟩ | hs := slot_cases slot
    · have hi : s.len[d] ≤ i := by simpa [HostOp.wf, ← len_toList_getD] using h
      exact ⟨_, readSample_beyond hi⟩
    · exact ⟨_, readSample_outside s i hs⟩
  | writeSample slot i v =>
    refine ⟨_, writeSample_outside v ?_⟩
    simp only [HostOp.wf, Bool.and_eq_false_iff, decide_eq_false_iff_not] at h
    omega

/-! ## The statements -/

/-- Settles O24: an operation inside the spaces takes a next state, one outside is refused, and no outcome is both. -/
theorem hostOperationsRefusedExactlyOutsideTheSpaces : Obligations.HostOperationsRefusedExactlyOutsideTheSpaces := by
  intro op s
  cases hw : op.wf s.capN (fun d => s.len.toList.getD d 0) with
  | true =>
    obtain ⟨t, ht⟩ := hostOp_of_wf hw
    simp [ht]
  | false =>
    obtain ⟨r, hr⟩ := hostOp_of_not_wf hw
    simp [hr]

/-- Settles O8: a step is the host's next operation; a recorded fault makes the issue and the command's frame answer alike. -/
theorem stepRunsTheDecodedCommand : Obligations.StepRunsTheDecodedCommand := by
  refine ⟨fun s op rest h => step_cons h, fun s h => ?_, fun s v rest i h hd => ?_⟩
  · rw [step, hostTurn, h]
  · rw [step_cons h, hostOp, writeReg, if_pos rfl, issue_of_decode hd]

/-- Settles O32: inside the sample space the write is the memory's write of one sample. -/
theorem sampleWriteSetsOneSample : Obligations.SampleWriteSetsOneSample :=
  ⟨fun s d i v hi => ⟨_, writeSample_inside d v hi, s.mem.read_write_same d i v,
    fun _ _ h => s.mem.read_write_other h v, rfl⟩, fun _ _ _ v h => writeSample_outside v h⟩

/-- Settles O33: the two cases of a read from a slot of the sample space. -/
theorem sampleReadReturnsTheStoredSample : Obligations.SampleReadReturnsTheStoredSample :=
  fun _ _ _ => ⟨readSample_below, readSample_beyond⟩

end Sys2Proof.Machine
end

section
/-! PROOFS. The command word (statements DecodeEncodeAllCommands, DecodeIsTheMaskMatchTable, EncodeOfDecodedWord and
WrittenOutWordsDecode): what each format's decoder accepts, the round trips of 30_encoding.md R71 to R81 and the table of
R80. A proof over the commands or the opcodes groups the rows by format (U or G) and by the option bits they define. -/

namespace Sys2Proof

/-! ## What the decoder of a format accepts (R72, R73, R82) -/

/-- R72: format U accepts fields exactly when both `AUX` fields and every option bit that is not allowed are 0. -/
theorem decodeU_eq_ok_iff {f : Fields} {allowed : BitVec 8} {build : SlotNo → SlotNo → Instr} {i : Instr} :
    decodeU f allowed build = .ok i ↔
      (f.aux1 = 0 ∧ f.aux2 = 0 ∧ f.opt &&& ~~~allowed = 0) ∧ build (slotOf f.dst) (slotOf f.src) = i := by
  unfold decodeU
  split_ifs with haux hopt
  · exact iff_of_false nofun fun ⟨⟨h1, h2, _⟩, _⟩ => haux.elim (· h1) (· h2)
  · exact iff_of_false nofun fun ⟨⟨_, _, h⟩, _⟩ => hopt h
  · simp_all

/-- R73: format G accepts fields exactly when `SRC` and `OPT` are 0. -/
theorem decodeG_eq_ok_iff {f : Fields} {build : SlotNo → SlotNo → SlotNo → Instr} {i : Instr} :
    decodeG f build = .ok i ↔
      (f.src = 0 ∧ f.opt = 0) ∧ build (slotOf f.dst) (slotOf f.aux1) (slotOf f.aux2) = i := by
  unfold decodeG
  split_ifs with hsrc hopt
  · exact iff_of_false nofun fun ⟨⟨h, _⟩, _⟩ => hsrc h
  · exact iff_of_false nofun fun ⟨⟨_, h⟩, _⟩ => hopt h
  · simp_all

/-! ## Decoding an encoded command -/

theorem decode_encodeU (opc : BitVec 8) (d r : SlotNo) (opt : BitVec 8) :
    decode (encodeU opc d r opt) = decodeFields ⟨opc, fieldOfSlot d, fieldOfSlot r, 0, 0, opt⟩ :=
  congrArg decodeFields (fieldsOf_wordOf _)

theorem decode_encodeG (opc : BitVec 8) (d m t : SlotNo) :
    decode (encodeG opc d m t) = decodeFields ⟨opc, fieldOfSlot d, 0, fieldOfSlot m, fieldOfSlot t, 0⟩ :=
  congrArg decodeFields (fieldsOf_wordOf _)

/-- R71 to R80: the word of a command decodes to it. -/
theorem decode_encode (i : Instr) : decode (encode i) = .ok i := by
  cases i with
  | lowpass | highpass | bandpass | bandstop | hwr | fwr | dcrem | dcoff | diff | adiff | integ =>
    simp [encode, decode_encodeU, decodeFields, decodeU_eq_ok_iff]
  | mavg _ _ b | envdetRaw _ _ b | envdetHw _ _ b | envdetFw _ _ b | amdemod _ _ b =>
    cases b <;> simp [encode, decode_encodeU, decodeFields, decodeU_eq_ok_iff, optBit]
  | fmdemod _ _ o p x =>
    cases o <;> cases p <;> cases x <;> simp [encode, decode_encodeU, decodeFields, decodeU_eq_ok_iff, optBit]
  | ammodSin | ammodTri | ammodSqr | ammodIdx | fmmod =>
    simp [encode, decode_encodeG, decodeFields, decodeG_eq_ok_iff]

/-! ## Encoding a decoded word -/

/-- R72: where no option is allowed, an accepted `OPT` is 0. -/
theorem opt_of_none_allowed {v : BitVec 8} (h : v &&& ~~~0 = 0) : v = 0 :=
  (BitVec.and_allOnes (x := v)).symm.trans h

/-- R74: where one option is allowed, an accepted `OPT` is that option's bit. -/
theorem opt_of_one_allowed : ∀ {v : BitVec 8}, v &&& ~~~1 = 0 → v = optBit (v.getLsbD 0) 0 := by
  decide

/-- R74: where three options are allowed, an accepted `OPT` is those options' bits. -/
theorem opt_of_three_allowed : ∀ {v : BitVec 8}, v &&& ~~~7 = 0 →
    v = optBit (v.getLsbD 0) 0 ||| optBit (v.getLsbD 1) 1 ||| optBit (v.getLsbD 2) 2 := by
  decide

/-- The fields format U accepts are the fields of the command it builds. -/
theorem encode_of_decodeU {f : Fields} {n : Nat} {allowed opt : BitVec 8} {build : SlotNo → SlotNo → Instr} {i : Instr}
    (hopc : f.opc.toNat = n) (h : decodeU f allowed build = .ok i) (hopt : f.opt &&& ~~~allowed = 0 → f.opt = opt)
    (hbuild : ∀ d r, encode (build d r) = encodeU (BitVec.ofNat 8 n) d r opt) : encode i = wordOf f := by
  obtain ⟨opc, dst, src, aux1, aux2, o⟩ := f
  obtain ⟨⟨(rfl : aux1 = 0), (rfl : aux2 = 0), ho⟩, rfl⟩ := decodeU_eq_ok_iff.1 h
  simp [hbuild, encodeU, ← hopc, ← hopt ho]

/-- The fields format G accepts are the fields of the command it builds. -/
theorem encode_of_decodeG {f : Fields} {n : Nat} {build : SlotNo → SlotNo → SlotNo → Instr} {i : Instr}
    (hopc : f.opc.toNat = n) (h : decodeG f build = .ok i)
    (hbuild : ∀ d m t, encode (build d m t) = encodeG (BitVec.ofNat 8 n) d m t) : encode i = wordOf f := by
  obtain ⟨opc, dst, src, aux1, aux2, o⟩ := f
  obtain ⟨⟨(rfl : src = 0), (rfl : o = 0)⟩, rfl⟩ := decodeG_eq_ok_iff.1 h
  simp [hbuild, encodeG, ← hopc]

/-- R71, R81: the command of some fields has exactly these fields. -/
theorem encode_of_decodeFields {f : Fields} {i : Instr} (h : decodeFields f = .ok i) : encode i = wordOf f := by
  unfold decodeFields at h
  split at h
  case h_1 ho | h_2 ho | h_3 ho | h_4 ho | h_9 ho | h_10 ho | h_11 ho | h_12 ho | h_13 ho | h_14 ho | h_15 ho =>
    exact encode_of_decodeU ho h opt_of_none_allowed fun _ _ => rfl
  case h_5 ho | h_6 ho | h_7 ho | h_8 ho | h_21 ho =>
    exact encode_of_decodeU ho h opt_of_one_allowed fun _ _ => rfl
  case h_22 ho =>
    exact encode_of_decodeU ho h opt_of_three_allowed fun _ _ => rfl
  case h_16 ho | h_17 ho | h_18 ho | h_19 ho | h_20 ho =>
    exact encode_of_decodeG ho h fun _ _ _ => rfl
  case h_23 => cases h

/-- R71, R81: the command a word decodes to has that word. -/
theorem encode_of_decode {w : BitVec 32} {i : Instr} (h : decode w = .ok i) : encode i = w :=
  (encode_of_decodeFields h).trans (wordOf_fieldsOf w)

/-! ## The table of masks and matches (R80) -/

/-- R80: the word of a command agrees with the command's row. -/
theorem encode_and_mask : ∀ i : Instr, encode i &&& i.mask = i.pattern
  | .lowpass d r => Laws.MatchesRow.lowpass d r
  | .highpass d r => Laws.MatchesRow.highpass d r
  | .bandpass d r => Laws.MatchesRow.bandpass d r
  | .bandstop d r => Laws.MatchesRow.bandstop d r
  | .mavg d r p => Laws.MatchesRow.mavg d r p
  | .envdetRaw d r p => Laws.MatchesRow.envdetRaw d r p
  | .envdetHw d r p => Laws.MatchesRow.envdetHw d r p
  | .envdetFw d r p => Laws.MatchesRow.envdetFw d r p
  | .hwr d r => Laws.MatchesRow.hwr d r
  | .fwr d r => Laws.MatchesRow.fwr d r
  | .dcrem d r => Laws.MatchesRow.dcrem d r
  | .dcoff d r => Laws.MatchesRow.dcoff d r
  | .diff d r => Laws.MatchesRow.diff d r
  | .adiff d r => Laws.MatchesRow.adiff d r
  | .integ d r => Laws.MatchesRow.integ d r
  | .ammodSin d m t => Laws.MatchesRow.ammodSin d m t
  | .ammodTri d m t => Laws.MatchesRow.ammodTri d m t
  | .ammodSqr d m t => Laws.MatchesRow.ammodSqr d m t
  | .ammodIdx d m t => Laws.MatchesRow.ammodIdx d m t
  | .fmmod d m t => Laws.MatchesRow.fmmod d m t
  | .amdemod d r x => Laws.MatchesRow.amdemod d r x
  | .fmdemod d r o p x => Laws.MatchesRow.fmdemod d r o p x

/-- R71: a word agrees with a mask and a match exactly when each of its fields does. -/
theorem and_wordOf_eq_iff {w : BitVec 32} {m p : Fields} :
    w &&& wordOf m = wordOf p ↔
      (fieldsOf w).opc &&& m.opc = p.opc ∧ (fieldsOf w).dst &&& m.dst = p.dst ∧
        (fieldsOf w).src &&& m.src = p.src ∧ (fieldsOf w).aux1 &&& m.aux1 = p.aux1 ∧
        (fieldsOf w).aux2 &&& m.aux2 = p.aux2 ∧ (fieldsOf w).opt &&& m.opt = p.opt := by
  rw [← Fields.mk.injEq]
  constructor
  · intro h
    rw [← wordOf_fieldsOf w, wordOf_and] at h
    exact wordOf_injective h
  · intro h
    rw [← wordOf_fieldsOf w, wordOf_and, h]

/-- R72: the fields of a word that agrees with a row of format U. -/
theorem fields_of_agreesU {w mask pattern : BitVec 32} (h : w &&& mask = pattern)
    (hmask : mask = wordOf ⟨.allOnes 8, 0, 0, .allOnes 4, .allOnes 4, mask.extractLsb' 0 8⟩)
    (hpattern : pattern = wordOf ⟨pattern.extractLsb' 24 8, 0, 0, 0, 0, 0⟩) :
    (fieldsOf w).opc = pattern.extractLsb' 24 8 ∧ (fieldsOf w).aux1 = 0 ∧ (fieldsOf w).aux2 = 0 ∧
      (fieldsOf w).opt &&& mask.extractLsb' 0 8 = 0 := by
  rw [hmask, hpattern, and_wordOf_eq_iff] at h
  simpa [-BitVec.reduceAllOnes] using h

/-- R73: the fields of a word that agrees with a row of format G. -/
theorem fields_of_agreesG {w mask pattern : BitVec 32} (h : w &&& mask = pattern)
    (hmask : mask = wordOf ⟨.allOnes 8, 0, .allOnes 4, 0, 0, .allOnes 8⟩)
    (hpattern : pattern = wordOf ⟨pattern.extractLsb' 24 8, 0, 0, 0, 0, 0⟩) :
    (fieldsOf w).opc = pattern.extractLsb' 24 8 ∧ (fieldsOf w).src = 0 ∧ (fieldsOf w).opt = 0 := by
  rw [hmask, hpattern, and_wordOf_eq_iff] at h
  simpa [-BitVec.reduceAllOnes] using h

/-- R80: a word that agrees with a row decodes to a command of that row. The first case holds the rows of format G, the
second those of format U. -/
theorem decode_of_agrees {w : BitVec 32} {i : Instr} (h : w &&& i.mask = i.pattern) :
    ∃ j, decode w = .ok j ∧ j.pattern = i.pattern := by
  cases i with
  | ammodSin | ammodTri | ammodSqr | ammodIdx | fmmod =>
    simp only [Instr.mask, Instr.pattern] at h ⊢
    obtain ⟨ho, hs, hopt⟩ := fields_of_agreesG h (by decide) (by decide)
    simp [decode, decodeFields, ho, decodeG_eq_ok_iff, hs, hopt]
  | _ =>
    simp only [Instr.mask, Instr.pattern] at h ⊢
    obtain ⟨ho, ha, hb, hopt⟩ := fields_of_agreesU h (by decide) (by decide)
    simpa [decode, decodeFields, ho, decodeU_eq_ok_iff, ha, hb] using hopt

/-! ## The statements -/

/-- Settles O1: `decode_encode`. -/
theorem decodeEncodeAllCommands : Obligations.DecodeEncodeAllCommands := decode_encode

/-- Settles O2: a word that agrees with two rows decodes to one command, which is of both. -/
theorem decodeIsTheMaskMatchTable : Obligations.DecodeIsTheMaskMatchTable := by
  refine fun w => ⟨fun i h => decode_of_agrees h, fun j h => ?_, fun i j hi hj => ?_⟩
  · rw [← encode_of_decode h, encode_and_mask]
  · obtain ⟨a, ha, hai⟩ := decode_of_agrees hi
    obtain ⟨b, hb, hbj⟩ := decode_of_agrees hj
    cases ha.symm.trans hb
    exact hai.symm.trans hbj

/-- Settles O3: `encode_of_decode`. -/
theorem encodeOfDecodedWord : Obligations.EncodeOfDecodedWord := fun _ _ => encode_of_decode

/-- Settles O4: the decoder evaluates on each of the thirteen words. -/
theorem writtenOutWordsDecode : Obligations.WrittenOutWordsDecode := by
  refine ⟨rfl, rfl, rfl, rfl, rfl, rfl, rfl, rfl, rfl, ?_⟩
  simp only [List.forall_mem_cons]
  exact ⟨⟨_, rfl⟩, ⟨_, rfl⟩, ⟨_, rfl⟩, ⟨_, rfl⟩, List.forall_mem_nil _⟩

end Sys2Proof
end

section
/-! PROOFS. The estimator over a sequence (40_moving_average.md R101 to R104, statement EstimatorIsTheRunningSumMean): the
estimator after `j` values of the feed, primed and then run, whose sum and ring the rules speak of. -/

namespace Sys2Proof.Machine

/-! ## The feed (R102, R104) -/

theorem feed_priming (u : List F64) {w j : Nat} (first : Bool) (h : j < w) :
    feed u w first j = if first then u.getD 0 F64.zero else F64.zero := if_pos h

theorem feed_signal {u : List F64} (w : Nat) (first : Bool) {i : Nat} (h : i < u.length) :
    feed u w first (w + i) = u[i] := by
  simp [feed, h]

/-! ## The estimator after some of the feed -/

/-- Log entry 1: where step `j` over the feed draws: below the priming, then below the run. -/
def feedKey (k : DrawKey) (w j : Nat) : DrawKey := if j < w then j :: 0 :: k else (j - w) :: 1 :: k

theorem feedKey_priming (k : DrawKey) {w j : Nat} (h : j < w) : feedKey k w j = j :: 0 :: k := if_pos h

theorem feedKey_signal (k : DrawKey) (w i : Nat) : feedKey k w (w + i) = i :: 1 :: k := by
  simp [feedKey]

/-- R101, R102: the estimator after the first `j` values of the feed. -/
def fedEstimator (k : DrawKey) (u : List F64) (w : Nat) (first : Bool) : Nat → Estimator
  | 0 => maeNew w
  | j + 1 => (maeStep (feedKey k w j) (fedEstimator k u w first j) (feed u w first j)).1

section
variable (k : DrawKey) (u : List F64) {w : Nat} (first : Bool)

theorem fedEstimator_follows (hw : 0 < w) (j : Nat) :
    (fedEstimator k u w first j).Follows w (feed u w first) j := by
  induction j with
  | zero => exact follows_new w _
  | succ j ih => exact follows_step hw ih _

/-- R101: the sum loses the evicted value, then gains the fed one. -/
theorem fedEstimator_sum (hw : 0 < w) (j : Nat) :
    (fedEstimator k u w first (j + 1)).sum =
      F64.add (1 :: feedKey k w j)
        (F64.sub (0 :: feedKey k w j) (fedEstimator k u w first j).sum (evicted u w first j)) (feed u w first j) := by
  rw [fedEstimator, maeStep_sum, follows_evicted hw (fedEstimator_follows k u first hw j), evicted]

/-- R102: the priming steps are the first `w` of the feed. -/
theorem maePrime_eq_fedEstimator {j : Nat} (hj : j ≤ w) :
    maePrime (0 :: k) (maeNew w) (if first then u.getD 0 F64.zero else F64.zero) j = fedEstimator k u w first j := by
  induction j with
  | zero => rfl
  | succ j ih => rw [maePrime, ih (by omega), fedEstimator, feedKey_priming k hj, feed_priming u first hj]

/-- R104: the samples of the signal are the rest of the feed. -/
theorem fedEstimator_signal {i : Nat} (hi : i < u.length) :
    fedEstimator k u w first (w + i + 1) = (maeStep (i :: 1 :: k) (fedEstimator k u w first (w + i)) u[i]).1 := by
  rw [fedEstimator, feedKey_signal, feed_signal w first hi]

end

/-! ## The run -/

/-- The outputs of a run, given the estimators `e 0`, `e 1`, … it passes through. -/
theorem maeRun_getElem {k : DrawKey} {e : Nat → Estimator} {i : Nat} {u : List F64}
    (he : ∀ (j : Nat) (hj : j < u.length), e (j + 1) = (maeStep ((i + j) :: k) (e j) u[j]).1)
    {j : Nat} (hj : j < u.length) :
    (maeRun k (e 0) i u)[j]'(by simpa using hj) = (maeStep ((i + j) :: k) (e j) u[j]).2 := by
  induction u generalizing e i j with
  | nil => cases hj
  | cons v rest ih =>
    cases j with
    | zero => rfl
    | succ j =>
      have he' : ∀ (j : Nat) (hj : j < rest.length), e (j + 1 + 1) = (maeStep ((i + 1 + j) :: k) (e (j + 1)) rest[j]).1 := by
        intro j hj
        simpa [Nat.add_right_comm, Nat.add_assoc] using he (j + 1) (Nat.succ_lt_succ hj)
      have h0 : e 1 = (maeStep (i :: k) (e 0) v).1 := he 0 (Nat.succ_pos _)
      have hrest := ih (e := fun j => e (j + 1)) (i := i + 1) he' (Nat.lt_of_succ_lt_succ hj)
      simp only [maeRun, List.getElem_cons_succ, ← h0]
      rw [hrest, Nat.add_right_comm, Nat.add_assoc]

theorem mavgF_eq_maeRun (k : DrawKey) (u : List F64) (w : Nat) (first : Bool) :
    mavgF k u w first = maeRun (1 :: k) (fedEstimator k u w first w) 0 u := by
  rw [← maePrime_eq_fedEstimator k u first (Nat.le_refl w)]
  cases u <;> rfl

/-- R101, R104: an output is the sum after its sample, divided by the window. -/
theorem mavgF_getElem (k : DrawKey) {u : List F64} {w : Nat} (first : Bool) (hw : 0 < w) {i : Nat} (hi : i < u.length) :
    (mavgF k u w first)[i]'(by simpa using hi) =
      F64.div (2 :: i :: 1 :: k) (fedEstimator k u w first (w + i + 1)).sum (F64.ofNat w) := by
  have hrun := maeRun_getElem (k := 1 :: k) (e := fun j => fedEstimator k u w first (w + j)) (i := 0)
    (fun j hj => by rw [Nat.zero_add]; exact fedEstimator_signal k u first hj) hi
  rw [Nat.zero_add] at hrun
  calc (mavgF k u w first)[i]'(by simpa using hi)
      = (maeRun (1 :: k) (fedEstimator k u w first (w + 0)) 0 u)[i]'(by simpa using hi) := by
        simp only [mavgF_eq_maeRun, Nat.add_zero]
    _ = (maeStep (i :: 1 :: k) (fedEstimator k u w first (w + i)) u[i]).2 := hrun
    _ = F64.div (2 :: i :: 1 :: k) (fedEstimator k u w first (w + i + 1)).sum (F64.ofNat w) := by
        rw [maeStep_value, ← fedEstimator_signal k u first hi, (fedEstimator_follows k u first hw (w + i)).window]

/-- Settles O41: the sums are those of the estimator over the feed, whose ring evicts the value fed `W` steps before. -/
theorem estimatorIsTheRunningSumMean : Obligations.EstimatorIsTheRunningSumMean := fun k u w first hw =>
  ⟨mavgF_length k u w first, fun j => (fedEstimator k u w first j).sum, rfl,
    fun j _ => ⟨_, ⟨_, rfl⟩, _, fedEstimator_sum k u first hw j⟩,
    fun _ hi => ⟨_, mavgF_getElem k first hw hi⟩⟩

end Sys2Proof.Machine
end

section
/-! PROOFS. The estimator commands (40_moving_average.md R105 to R108, statement EstimatorCommandResults): a format-U command
that runs its effect completes with that effect's result, and the estimator commands' effect is a moving average. -/

namespace Sys2Proof.Machine

/-! ## A command of format U that completes (R246) -/

/-- R246 steps 2, 8 and 9: a result written after the checks, with the flags this leaves. -/
theorem completesU_of_writeSlot {i : Instr} {s : State} {d : SlotNo} {c : Bool} {y : List F64} {P : List F64 → Prop}
    (hf : s.status.fault = false) (he : exec i s = .next ((s.accept.writeSlot d y).setCorrected c).complete) (hy : P y) :
    CompletesU i s d c P := by
  have hstatus : ((s.accept.writeSlot d y).setCorrected c).complete.status =
      { fault := false, corrected := c, done := true } := by simp [hf]
  exact ⟨_, y, he, hy, s.accept.holds_writeSlot d y,
    ⟨s.accept.slotsKept_writeSlot d y, ⟨rfl, rfl, rfl, rfl, rfl, rfl⟩, rfl, hstatus, rfl, rfl⟩⟩

/-- A command that is a frame, accepted and with its checks passing, completes with what its effect writes. -/
theorem completesU_of_frame {α : Type} {i : Instr} {s : State} {d : SlotNo} {c : Bool} {P : List F64 → Prop}
    {checks : State → Except Raise α} {effect : α → State → State} (hexec : exec i s = frame i checks effect s)
    (hchecks : ∀ a, ChecksAgree (checks a) (checkTable i a)) (ha : s.accepts i) (hp : checksPass i s)
    (heffect : ∀ x, checks s.accept = .ok x →
      ∃ y, effect x s.accept = (s.accept.writeSlot d y).setCorrected c ∧ P y) :
    CompletesU i s d c P := by
  obtain ⟨hf, hw⟩ := ha
  obtain ⟨x, hx⟩ := checks_ok hchecks hp
  obtain ⟨y, hxy, hy⟩ := heffect x hx
  exact completesU_of_writeSlot hf (by rw [hexec, frame_completes hf hw hx, hxy]) hy

theorem CompletesU.imp {i : Instr} {s : State} {d : SlotNo} {c : Bool} {P Q : List F64 → Prop}
    (h : CompletesU i s d c P) (hPQ : ∀ y, P y → Q y) : CompletesU i s d c Q := by
  obtain ⟨t, y, he, hy, ht⟩ := h
  exact ⟨t, y, he, hPQ y hy, ht⟩

/-! ## The estimator commands -/

/-- R103: a supplied window that passes its check is 1 at least. -/
theorem checkWindow_pos {s : State} {n : BitVec 32} {id : BitVec 64} {x : Unit} (h : checkWindow s n id = .ok x) :
    1 ≤ n.toNat := by
  unfold checkWindow checkCount at h
  rw [require_bind] at h
  split at h
  · next hn =>
    have hne : n.toNat ≠ 0 := fun h0 => (bne_iff_ne.1 hn) (BitVec.eq_of_toNat_eq h0)
    omega
  · cases h

/-- A command that checks `WIN` and writes the moving average of `input` completes with it. -/
theorem completesU_mavgF {i : Instr} {s : State} {d : SlotNo} {prime : Bool} {input : State → List F64}
    (hexec : exec i s =
      frame i checkWin (fun _ a => a.writeSlot d (mavgF a.resultKey (input a) a.k.win.toNat prime)) s)
    (htable : ∀ a, checkTable i a = [zeroCheck a.k.win 0x12, windowCheck a a.k.win 0x12])
    (ha : s.accepts i) (hp : checksPass i s) :
    CompletesU i s d false (IsMovingAverage s.k.win.toNat prime (input s.accept)) := by
  refine completesU_of_frame hexec (fun a => ?_) ha hp fun x hx => ⟨_, rfl, ?_⟩
  · rw [htable a]
    exact checkWindow_agrees a _ _
  · exact estimatorIsTheRunningSumMean _ _ _ prime (checkWindow_pos hx)

/-! ## The rectifiers (R150, R152) -/

theorem hwrF_isHalfWave (u : List F64) : IsHalfWave u (hwrF u) :=
  ⟨hwrF_length u, fun _ _ => List.getElem_map ..⟩

theorem fwrF_isFullWave (u : List F64) : IsFullWave u (fwrF u) :=
  ⟨fwrF_length u, fun _ _ => List.getElem_map ..⟩

/-- Settles O49: each command is the frame around the check of `WIN` and the moving average of its input, which for the
detectors HW and FW is the rectified source. -/
theorem estimatorCommandResults : Obligations.EstimatorCommandResults := by
  intro s d r prime
  refine ⟨fun ha hp => ?_, fun ha hp => ?_, fun ha hp => ?_, fun ha hp => ?_⟩
  · exact completesU_mavgF (input := (·.source r)) rfl (fun _ => rfl) ha hp
  · exact completesU_mavgF (input := (·.source r)) rfl (fun _ => rfl) ha hp
  · exact (completesU_mavgF (input := fun a => hwrF (a.source r)) rfl (fun _ => rfl) ha hp).imp
      fun _ hy => ⟨_, hwrF_isHalfWave _, hy⟩
  · exact (completesU_mavgF (input := fun a => fwrF (a.source r)) rfl (fun _ => rfl) ha hp).imp
      fun _ hy => ⟨_, fwrF_isFullWave _, hy⟩

end Sys2Proof.Machine
end

section
/-! PROOFS. The filter stages and their cascade (41_filter_bank.md R121 to R126, statements LowPassStageFollowsItsRecursion,
HighPassStageFollowsItsRecursion and CascadesForceIndexZero): each output of a recursion in terms of the output before, and
what every stage does, every cascade does. -/

namespace Sys2Proof.Machine

/-! ## The recursions (R122, R124) -/

/-- R122: an output of the low-pass recursion; the one before it is `yprev` at the first. -/
theorem lpFrom_getElem (k : DrawKey) (alpha oma : F64) (i : Nat) (yprev : F64) (u : List F64) {j : Nat}
    (hj : j < u.length) :
    (lpFrom k alpha oma i yprev u)[j]'(by simpa using hj) =
      F64.add (2 :: (i + j) :: k) (F64.mul (0 :: (i + j) :: k) alpha u[j])
        (F64.mul (1 :: (i + j) :: k) oma
          ((yprev :: lpFrom k alpha oma i yprev u)[j]'(by simp only [List.length_cons, lpFrom_length]; omega))) := by
  induction u generalizing i yprev j with
  | nil => cases hj
  | cons v rest ih =>
    cases j with
    | zero => rfl
    | succ j =>
      have hrest := ih (i + 1) (F64.add (2 :: i :: k) (F64.mul (0 :: i :: k) alpha v) (F64.mul (1 :: i :: k) oma yprev))
        (Nat.lt_of_succ_lt_succ hj)
      rw [Nat.add_right_comm i 1 j] at hrest
      exact hrest

/-- R124: an output of the high-pass recursion; the output and the input before it are `yprev` and `xprev` at the first. -/
theorem hpFrom_getElem (k : DrawKey) (alpha : F64) (i : Nat) (yprev xprev : F64) (u : List F64) {j : Nat}
    (hj : j < u.length) :
    (hpFrom k alpha i yprev xprev u)[j]'(by simpa using hj) =
      F64.mul (2 :: (i + j) :: k) alpha
        (F64.sub (1 :: (i + j) :: k)
          (F64.add (0 :: (i + j) :: k)
            ((yprev :: hpFrom k alpha i yprev xprev u)[j]'(by simp only [List.length_cons, hpFrom_length]; omega)) u[j])
          ((xprev :: u)[j]'(Nat.lt_succ_of_lt hj))) := by
  induction u generalizing i yprev xprev j with
  | nil => cases hj
  | cons v rest ih =>
    cases j with
    | zero => rfl
    | succ j =>
      have hrest := ih (i + 1) (F64.mul (2 :: i :: k) alpha (F64.sub (1 :: i :: k) (F64.add (0 :: i :: k) yprev v) xprev)) v
        (Nat.lt_of_succ_lt_succ hj)
      rw [Nat.add_right_comm i 1 j] at hrest
      exact hrest

/-! ## The stages (R122, R124, R125) -/

theorem lpStage_isLowPass (k : DrawKey) (alpha : F64) (u : List F64) : IsLowPass alpha u (lpStage k alpha u) := by
  refine ⟨lpStage_length k alpha u, F64.sub (0 :: k) F64.one alpha, ⟨_, rfl⟩, ?_⟩
  cases u with
  | nil => exact ⟨fun h0 => absurd h0 (Nat.lt_irrefl 0), fun _ hi => absurd hi (Nat.not_lt_zero _)⟩
  | cons u0 rest =>
    exact ⟨fun _ => rfl, fun i hi =>
      ⟨_, _, ⟨_, rfl⟩, ⟨_, rfl⟩, _, lpFrom_getElem k alpha _ 1 F64.zero rest (Nat.lt_of_succ_lt_succ hi)⟩⟩

theorem hpStage_isHighPass (k : DrawKey) (alpha : F64) (u : List F64) : IsHighPass alpha u (hpStage k alpha u) := by
  refine ⟨hpStage_length k alpha u, ?_⟩
  cases u with
  | nil => exact ⟨fun h0 => absurd h0 (Nat.lt_irrefl 0), fun _ hi => absurd hi (Nat.not_lt_zero _)⟩
  | cons u0 rest =>
    exact ⟨fun _ => rfl, fun i hi =>
      ⟨_, _, ⟨_, rfl⟩, ⟨_, rfl⟩, _, hpFrom_getElem k alpha 1 F64.zero u0 rest (Nat.lt_of_succ_lt_succ hi)⟩⟩

/-- Settles O42: past index 0, an output of the stage is one of the recursion that starts from `+0.0`. -/
theorem lowPassStageFollowsItsRecursion : Obligations.LowPassStageFollowsItsRecursion := lpStage_isLowPass

/-- Settles O43: past index 0, an output of the stage is one of the recursion that starts from `+0.0` and the first input. -/
theorem highPassStageFollowsItsRecursion : Obligations.HighPassStageFollowsItsRecursion := hpStage_isHighPass

/-! ## The cascade (R126) -/

theorem lpStage_zero (k : DrawKey) (alpha : F64) {u : List F64} (hu : u ≠ []) :
    (lpStage k alpha u)[0]? = some F64.zero := by
  cases u with
  | nil => exact absurd rfl hu
  | cons => rfl

theorem hpStage_zero (k : DrawKey) (alpha : F64) {u : List F64} (hu : u ≠ []) :
    (hpStage k alpha u)[0]? = some F64.zero := by
  cases u with
  | nil => exact absurd rfl hu
  | cons => rfl

/-- The last stage of a cascade forces its index 0, its input being as long as the cascade's. -/
theorem cascade_zero {stage : DrawKey → F64 → List F64 → List F64}
    (hlen : ∀ k alpha u, (stage k alpha u).length = u.length)
    (hzero : ∀ k alpha {u}, u ≠ [] → (stage k alpha u)[0]? = some F64.zero) (k : DrawKey) (alpha : F64) {u : List F64}
    (hu : u ≠ []) {order : Nat} (ho : 1 ≤ order) : (cascade stage k alpha u order)[0]? = some F64.zero := by
  cases order with
  | zero => exact absurd ho (Nat.not_succ_le_zero 0)
  | succ n =>
    have hne : cascade stage k alpha u n ≠ [] := by
      rw [← List.length_pos_iff, cascade_length hlen]
      exact List.length_pos_iff.2 hu
    exact hzero (n :: k) alpha hne

/-- Settles O44: the last of the stages forces index 0, and no stage changes the length. -/
theorem cascadesForceIndexZero : Obligations.CascadesForceIndexZero := fun k alpha u order ho =>
  ⟨cascade_lp_length k alpha u order, cascade_hp_length k alpha u order, fun hu =>
    ⟨cascade_zero lpStage_length lpStage_zero k alpha hu ho, cascade_zero hpStage_length hpStage_zero k alpha hu ho⟩⟩

/-- A cascade of stages that each keep to a rule is a cascade of the rule. -/
theorem cascade_isCascade {stage : DrawKey → F64 → List F64 → List F64} {rule : List F64 → List F64 → Prop} {alpha : F64}
    (hstage : ∀ k u, rule u (stage k alpha u)) (k : DrawKey) (u : List F64) (order : Nat) :
    IsCascade rule order u (cascade stage k alpha u order) :=
  ⟨cascade stage k alpha u, rfl, fun j _ => hstage (j :: k) _, rfl⟩

theorem cascade_lp_isCascade (k : DrawKey) (alpha : F64) (u : List F64) (order : Nat) :
    IsCascade (IsLowPass alpha) order u (cascade lpStage k alpha u order) :=
  cascade_isCascade (lpStage_isLowPass · alpha ·) k u order

theorem cascade_hp_isCascade (k : DrawKey) (alpha : F64) (u : List F64) (order : Nat) :
    IsCascade (IsHighPass alpha) order u (cascade hpStage k alpha u order) :=
  cascade_isCascade (hpStage_isHighPass · alpha ·) k u order

/-! ## The coefficients (R121, R123) -/

theorem expArg_isExpArg (k : DrawKey) (cut fs : F64) : IsExpArg cut fs (expArg k cut fs) := ⟨_, ⟨_, rfl⟩, _, rfl⟩

theorem alphaLp_isAlphaLp (k : DrawKey) (cut fs : F64) : IsAlphaLp cut fs (alphaLp k cut fs) :=
  ⟨_, expArg_isExpArg k cut fs, _, rfl⟩

theorem alphaHp_isAlphaHp (k : DrawKey) (cut fs : F64) : IsAlphaHp cut fs (alphaHp k cut fs) :=
  ⟨_, expArg_isExpArg k cut fs, rfl⟩

end Sys2Proof.Machine
end

section
/-! PROOFS. The filter commands (41_filter_bank.md R128 to R132, statements LowpassAndHighpassResults and
BandpassAndBandstopResults): each command is the frame around the checks of the filter bank and a composition of cascades. -/

namespace Sys2Proof.Machine

/-- R130: the band-pass function. -/
theorem bpF_isBandPass (k : DrawKey) (u : List F64) (fs low high : F64) (order : Nat) :
    IsBandPass fs low high order u (bpF k u fs low high order) :=
  ⟨_, _, _, alphaHp_isAlphaHp .., alphaLp_isAlphaLp .., cascade_hp_isCascade .., cascade_lp_isCascade ..⟩

/-- A combination of two sequences of one length, sample by sample, relates them as it relates two samples. -/
theorem zipFrom_pointwise2 {f : Nat → F64 → F64 → F64} {rel : F64 → F64 → F64 → Prop} (hf : ∀ i a b, rel a b (f i a b))
    (i : Nat) {u v : List F64} (hv : v.length = u.length) : Pointwise2 rel u v (zipFrom f i u v) := by
  refine ⟨hv, by simp [hv], fun j hj => ?_⟩
  rw [zipFrom_getElem f i u v hj (hv ▸ hj)]
  exact hf _ _ _

/-- R132: the band-stop function is the signal minus its band-passed version. -/
theorem bsF_isDifference (k : DrawKey) (u : List F64) (fs low high : F64) (order : Nat) :
    Pointwise2 IsDifference u (bpF (4 :: k) u fs low high order) (bsF k u fs low high order) :=
  zipFrom_pointwise2 (fun _ _ _ => ⟨_, rfl⟩) 0 (bpF_length ..)

/-- Settles O47: the effect of each command is the cascade of its stage with its coefficient. -/
theorem lowpassAndHighpassResults : Obligations.LowpassAndHighpassResults := by
  intro s d r
  refine ⟨fun ha hp => ?_, fun ha hp => ?_⟩
  · exact completesU_of_frame (show execLowpass d r s = _ from rfl) checkFilter_agrees ha hp fun _ _ =>
      ⟨_, rfl, _, alphaLp_isAlphaLp .., cascade_lp_isCascade ..⟩
  · exact completesU_of_frame (show execHighpass d r s = _ from rfl) checkFilter_agrees ha hp fun _ _ =>
      ⟨_, rfl, _, alphaHp_isAlphaHp .., cascade_hp_isCascade ..⟩

/-- Settles O48: the effect of BANDPASS is the band-pass function, and that of BANDSTOP the source minus it. -/
theorem bandpassAndBandstopResults : Obligations.BandpassAndBandstopResults := by
  intro s d r
  refine ⟨fun ha hp => ?_, fun ha hp => ?_⟩
  · exact completesU_of_frame (show execBandpass d r s = _ from rfl) checkBandFilter_agrees ha hp fun _ _ =>
      ⟨_, rfl, bpF_isBandPass ..⟩
  · exact completesU_of_frame (show execBandstop d r s = _ from rfl) checkBandFilter_agrees ha hp fun _ _ =>
      ⟨_, rfl, _, bpF_isBandPass .., bsF_isDifference ..⟩

end Sys2Proof.Machine
end

section
/-! PROOFS. Rectifiers, DC removers, differentiators and integrator (42_rectify_dc_diff_integ.md R150 to R170, statements
RectifiersAreIdempotent and IntegratorIsTheRunningTotalOverFs): each function of the model follows the rule of its
formula, sample by sample. -/

namespace Sys2Proof.Machine

/-! ## The rectifiers (R150, R152, R154) -/

/-- R154: a half-wave rectified sample is `+0.0`, or a sample that is greater than `+0.0` and passes again. -/
theorem hwrF_hwrF (u : List F64) : hwrF (hwrF u) = hwrF u := by
  unfold hwrF
  rw [List.map_map]
  refine List.map_congr_left fun v _ => ?_
  by_cases hv : F64.gt v F64.zero = true
  · simp [hv]
  · simp [hv]

/-- R14: bit 63, once cleared, stays clear. -/
theorem f64_abs_abs (v : F64) : F64.abs (F64.abs v) = F64.abs v := by
  unfold F64.abs
  rw [BitVec.and_assoc, BitVec.and_self]

theorem fwrF_fwrF (u : List F64) : fwrF (fwrF u) = fwrF u := by
  unfold fwrF
  rw [List.map_map]
  exact List.map_congr_left fun v _ => f64_abs_abs v

/-- Settles O45: each rectifier maps the samples by a function that is idempotent. -/
theorem rectifiersAreIdempotent : Obligations.RectifiersAreIdempotent := fun u =>
  ⟨hwrF_hwrF u, fwrF_isFullWave u, fwrF_fwrF u, hwrF_length u, fwrF_length u⟩

/-! ## The DC removers (R155, R158) -/

/-- R155: the signal minus its moving average, for a window of 1 at least (R103). -/
theorem dcremF_isDcRemoved (k : DrawKey) (u : List F64) {w : Nat} (hw : 1 ≤ w) : IsDcRemoved w u (dcremF k u w) :=
  ⟨_, estimatorIsTheRunningSumMean (0 :: k) u w true hw,
    zipFrom_pointwise2 (fun _ _ _ => ⟨_, rfl⟩) 0 (mavgF_length ..)⟩

/-- A map of a sequence relates it to its result as it relates two samples. -/
theorem mapFrom_pointwise {f : Nat → F64 → F64} {rel : F64 → F64 → Prop} (hf : ∀ i a, rel a (f i a)) (i : Nat)
    (u : List F64) : Pointwise rel u (mapFrom f i u) := by
  refine ⟨mapFrom_length f i u, fun j hj => ?_⟩
  rw [mapFrom_getElem f i u hj]
  exact hf _ _

theorem dcoffF_isOffset (k : DrawKey) (u : List F64) (c : F64) : IsOffset c u (dcoffF k u c) :=
  mapFrom_pointwise (fun _ _ => ⟨_, rfl⟩) 0 u

/-! ## The differentiators (R160, R161, R163) -/

theorem diffF_getElem (k : DrawKey) (u : List F64) {i : Nat} (hi : i + 1 < u.length) :
    (diffF k u)[i]'(by rw [diffF_length]; omega) = F64.sub (0 :: i :: k) u[i + 1] u[i] := by
  have htail : i < u.tail.length := by rw [List.length_tail]; omega
  have h := zipFrom_getElem (fun i a b => F64.sub (0 :: i :: k) b a) 0 u u.tail (by omega) htail
  rwa [Nat.zero_add, List.getElem_tail] at h

theorem diffF_isForwardDifference (k : DrawKey) (u : List F64) : IsForwardDifference u (diffF k u) :=
  ⟨diffF_length k u, fun _ hi _ => ⟨_, diffF_getElem k u hi⟩⟩

theorem adiffF_isAbsDifference (k : DrawKey) (u : List F64) : IsAbsDifference u (adiffF k u) :=
  ⟨_, diffF_isForwardDifference k u, fwrF_isFullWave _⟩

/-! ## The integrator (R170) -/

/-- R170: the total of the first `n` samples, as INTEGF accumulates it from `+0.0`. -/
def runningTotal (k : DrawKey) (u : List F64) : Nat → F64
  | 0 => F64.zero
  | n + 1 => F64.add (0 :: n :: k) (runningTotal k u n) (u.getD n F64.zero)

theorem runningTotal_succ (k : DrawKey) (u : List F64) {n : Nat} (hn : n < u.length) :
    runningTotal k u (n + 1) = F64.add (0 :: n :: k) (runningTotal k u n) u[n] := by
  rw [runningTotal, List.getD_eq_getElem u F64.zero hn]

/-- The outputs from index `i` up, given the totals `acc i`, `acc (i + 1)`, … the integrator passes through. -/
theorem integFrom_getElem {k : DrawKey} {acc : Nat → F64} (fs : F64) {i : Nat} {u : List F64}
    (hacc : ∀ (j : Nat) (hj : j < u.length), acc (i + j + 1) = F64.add (0 :: (i + j) :: k) (acc (i + j)) u[j])
    {j : Nat} (hj : j < u.length) :
    (integFrom k fs i (acc i) u)[j]'(by simpa using hj) = F64.div (1 :: (i + j) :: k) (acc (i + j + 1)) fs := by
  induction u generalizing i j with
  | nil => cases hj
  | cons v rest ih =>
    have hfirst : acc (i + 1) = F64.add (0 :: i :: k) (acc i) v := hacc 0 (Nat.succ_pos _)
    have hrest : ∀ (j : Nat) (hj : j < rest.length),
        acc (i + 1 + j + 1) = F64.add (0 :: (i + 1 + j) :: k) (acc (i + 1 + j)) rest[j] := fun j hj => by
      rw [Nat.add_right_comm i 1 j]
      exact hacc (j + 1) (Nat.succ_lt_succ hj)
    simp only [integFrom, ← hfirst]
    cases j with
    | zero => rfl
    | succ j =>
      have hget := ih hrest (Nat.lt_of_succ_lt_succ hj)
      rw [Nat.add_right_comm i 1 j] at hget
      exact hget

theorem integF_getElem (k : DrawKey) (u : List F64) (fs : F64) {i : Nat} (hi : i < u.length) :
    (integF k u fs)[i]'(by simpa using hi) = F64.div (1 :: i :: k) (runningTotal k u (i + 1)) fs := by
  have h := integFrom_getElem (k := k) (acc := runningTotal k u) fs (i := 0)
    (fun j hj => by rw [Nat.zero_add]; exact runningTotal_succ k u hj) hi
  rwa [Nat.zero_add] at h

theorem integF_isIntegral (k : DrawKey) (u : List F64) (fs : F64) : IsIntegral fs u (integF k u fs) :=
  ⟨integF_length k u fs, runningTotal k u, rfl, fun _ hi =>
    ⟨⟨_, runningTotal_succ k u hi⟩, _, integF_getElem k u fs hi⟩⟩

/-- Settles O46: the totals are those the integrator accumulates. -/
theorem integratorIsTheRunningTotalOverFs : Obligations.IntegratorIsTheRunningTotalOverFs := integF_isIntegral

end Sys2Proof.Machine
end

section
/-! PROOFS. The commands of 42_rectify_dc_diff_integ.md (R151 to R172, statements RectifierCommandResults,
DcRemoverCommandResults, DifferentiatorCommandResults and IntegCommandResult): each command is the frame around its check,
if it has one, and its function of the source. -/

namespace Sys2Proof.Machine

/-- A command that is a frame, accepted and with its checks answering `x`, completes with the result its effect writes. -/
theorem completesU_of_checks {α : Type} {i : Instr} {s : State} {d : SlotNo} {P : List F64 → Prop}
    {checks : State → Except Raise α} {y : α → State → List F64}
    (hexec : exec i s = frame i checks (fun x a => a.writeSlot d (y x a)) s) (ha : s.accepts i) {x : α}
    (hx : checks s.accept = .ok x) (hy : P (y x s.accept)) : CompletesU i s d false P := by
  obtain ⟨hf, hw⟩ := ha
  refine completesU_of_writeSlot hf ?_ hy
  rw [hexec, frame_completes hf hw hx]
  rfl

/-- Settles O50: the commands have no check of their own, and write the rectified source. -/
theorem rectifierCommandResults : Obligations.RectifierCommandResults := by
  intro s d r hf hdr
  have ha : s.status.fault = false ∧ decide (d ≠ r) = true := ⟨hf, decide_eq_true hdr⟩
  constructor
  · exact completesU_of_checks (show execHwr d r s = _ from rfl) ha rfl (hwrF_isHalfWave _)
  · exact completesU_of_checks (show execFwr d r s = _ from rfl) ha rfl (fwrF_isFullWave _)

/-- Settles O51: DCREM's check leaves a window of 1 at least, which the moving average asks for; DCOFF has no check. -/
theorem dcRemoverCommandResults : Obligations.DcRemoverCommandResults := by
  intro s d r
  refine ⟨fun ha hp => ?_, fun hf hdr => ?_⟩
  · exact completesU_of_frame (show execDcrem d r s = _ from rfl) (fun a => checkWindow_agrees a _ _) ha hp fun _ hx =>
      ⟨_, rfl, dcremF_isDcRemoved _ _ (checkWindow_pos hx)⟩
  · exact completesU_of_checks (show execDcoff d r s = _ from rfl) ⟨hf, decide_eq_true hdr⟩ rfl (dcoffF_isOffset ..)

/-- Settles O52: the commands have no check of their own, and write the forward difference or its absolute value. -/
theorem differentiatorCommandResults : Obligations.DifferentiatorCommandResults := by
  intro s d r hf hdr
  have ha : s.status.fault = false ∧ decide (d ≠ r) = true := ⟨hf, decide_eq_true hdr⟩
  constructor
  · exact completesU_of_checks (show execDiff d r s = _ from rfl) ha rfl (diffF_isForwardDifference ..)
  · exact completesU_of_checks (show execAdiff d r s = _ from rfl) ha rfl (adiffF_isAbsDifference ..)

/-- Settles O53: INTEG's one check is that `FS > 0`. -/
theorem integCommandResult : Obligations.IntegCommandResult := fun s d r ha hfs =>
  completesU_of_checks (show execInteg d r s = _ from rfl) ha (require_ok_iff.2 hfs) (integF_isIntegral ..)

end Sys2Proof.Machine
end

section
/-! PROOFS. The synthesizer rules (43_synthesizers.md R183 to R195): the time base, each message and each modulated signal of
the model follow the rule of their formula, sample by sample. -/

namespace Sys2Proof.Machine

/-! ## The time base (R183) -/

theorem timeBase_isTimeBase (k : DrawKey) (fs : F64) (n : Nat) : IsTimeBase fs n (timeBase k fs n) := by
  refine ⟨timeBase_length k fs n, fun i h => ⟨0 :: i :: k, ?_⟩⟩
  simp only [timeBase, List.getElem_map, List.getElem_range]

/-! ## The messages (R184 to R187) -/

theorem turnArg_isTurn (k : DrawKey) (f t : F64) : IsTurn f t (turnArg k f t) := ⟨_, ⟨_, rfl⟩, _, rfl⟩

theorem msgSin_isSineMessage (k : DrawKey) (a fm : F64) (t : List F64) : IsSineMessage a fm t (msgSin k a fm t) :=
  mapFrom_pointwise (fun _ _ => ⟨_, turnArg_isTurn .., _, rfl⟩) 0 t

/-- R185: the difference `q - floor(q)` for a finite product `q`, a generated NaN for another. -/
theorem phaseOf_isPhase (k : DrawKey) (fm t : F64) : IsPhase fm t (phaseOf k fm t) := by
  refine ⟨F64.mul (0 :: k) fm t, ⟨_, rfl⟩, ?_⟩
  by_cases hq : (F64.mul (0 :: k) fm t).isFinite = true
  · rw [phaseOf, if_pos hq, if_pos hq]
    exact ⟨_, rfl⟩
  · rw [phaseOf, if_neg hq, if_neg hq, F64.nan_isNaN]

theorem msgTri_isTriangleMessage (k : DrawKey) (a fm : F64) (t : List F64) :
    IsTriangleMessage a fm t (msgTri k a fm t) :=
  mapFrom_pointwise (fun _ _ => ⟨_, phaseOf_isPhase .., _, rfl⟩) 0 t

theorem msgSqr_isSquareMessage (k : DrawKey) (a fm : F64) (t : List F64) : IsSquareMessage a fm t (msgSqr k a fm t) :=
  mapFrom_pointwise (fun _ _ => ⟨_, turnArg_isTurn .., _, rfl⟩) 0 t

/-! ## The modulated signals (R188, R191, R193 to R195) -/

section
variable (k : DrawKey) {t m : List F64} (hm : m.length = t.length)
include hm

theorem amOffset_isAmOffset (ac fc : F64) : IsAmOffset ac fc t m (amOffset k ac fc t m) :=
  zipFrom_pointwise2 (fun _ _ _ => ⟨_, _, ⟨_, rfl⟩, turnArg_isTurn .., _, rfl⟩) 0 hm

theorem amIndex_isAmIndex (mu fc : F64) : IsAmIndex mu fc t m (amIndex k mu fc t m) :=
  zipFrom_pointwise2 (fun _ _ _ => ⟨_, _, _, ⟨_, rfl⟩, ⟨_, rfl⟩, turnArg_isTurn .., _, rfl⟩) 0 hm

/-- R193 to R195: the discrete integral of the message, the sensitivity and the phase, each under a key of its own. -/
theorem fmSignal_isFmSignal (k' k'' : DrawKey) (fs fc fm beta : F64) :
    IsFmSignal fs fc fm beta t m (fmSignal k fc (fmSensitivity k' beta fm) t (integF k'' m fs)) :=
  ⟨_, _, _, integF_isIntegral k'' m fs, ⟨_, rfl⟩, ⟨_, rfl⟩,
    zipFrom_pointwise2 (fun _ _ _ => ⟨_, _, _, turnArg_isTurn .., ⟨_, rfl⟩, ⟨_, rfl⟩, rfl⟩) 0
      ((integF_length k'' m fs).trans hm)⟩

end

end Sys2Proof.Machine
end

section
/-! PROOFS. The synthesizer commands (43_synthesizers.md R181 to R196, statements AmOffsetCommandResults, AmIndexCommandResult
and FmmodCommandResult): a format-G command that passes its checks completes with the bundle its effect writes. -/

namespace Sys2Proof.Machine

/-! ## The length (R181, R182) -/

/-- R16: a count that is answered is the derived length. -/
theorem count_eq_derivedLength {v : F64} {cap n : Nat} {id : BitVec 64} (h : count v cap id = .ok n) :
    n = derivedLength v := by
  cases ho : overflows v cap with
  | false => rw [count_fits ho] at h; cases h; rfl
  | true => rw [count_overflows ho] at h; cases h

/-- R181, R182: the checks of a synthesizer answer its derived length. -/
theorem checkSynth_eq_derivedLength {s : State} {n : Nat} (h : checkSynth s = .ok n) :
    n = derivedLength (synthProduct s) := by
  unfold checkSynth checkFs checkDur at h
  simp only [require_bind] at h
  split_ifs at h
  exact count_eq_derivedLength h

/-! ## A bundle read back (R188, R196) -/

theorem State.holds_writeBundle (a : State) {d m t : SlotNo} (hdm : d ≠ m) (hdt : d ≠ t) (hmt : m ≠ t)
    (x y z : List F64) :
    (a.writeBundle d m t x y z).Holds t x ∧ (a.writeBundle d m t x y z).Holds m y ∧
      (a.writeBundle d m t x y z).Holds d z := by
  have hm : (a.writeBundle d m t x y z).Holds m y :=
    (State.holds_writeSlot _ m y).of_kept (State.slotsKept_writeSlot _ d z) (by simp [hdm.symm])
  have ht : (a.writeBundle d m t x y z).Holds t x :=
    ((State.holds_writeSlot _ t x).of_kept (State.slotsKept_writeSlot _ m y) (by simp [hmt.symm])).of_kept
      (State.slotsKept_writeSlot _ d z) (by simp [hdt.symm])
  exact ⟨ht, hm, State.holds_writeSlot _ d z⟩

/-! ## A command of format G that completes (R246) -/

section
variable {i : Instr} {s : State} {d m t : SlotNo}
  (hwf : i.wf = (decide (d ≠ m) && decide (d ≠ t) && decide (m ≠ t)))
  (htable : ∀ a, checkTable i a = [fsCheck a, durCheck a, countCheck (synthProduct a) a.capN 0x40])
  (ha : s.accepts i) (hp : checksPass i s)
include hwf htable ha hp

/-- A synthesizer, accepted and with its checks passing, completes with the bundle and the parameter registers that its
effect leaves for the derived length. -/
theorem completesG_of_frame {effect : Nat → State → State} {x y z : List F64} {p : ParamRegs}
    {P : List F64 → List F64 → List F64 → ParamRegs → Prop} (hexec : exec i s = frame i checkSynth effect s)
    (heffect : effect (derivedLength (synthProduct s)) s.accept = { s.accept.writeBundle d m t x y z with p := p })
    (hP : P x y z p) : CompletesG i s d m t P := by
  obtain ⟨hf, hw⟩ := ha
  obtain ⟨n, hn⟩ := checks_ok (fun a => htable a ▸ checkSynth_agrees a) hp
  obtain rfl : n = derivedLength (synthProduct s) := checkSynth_eq_derivedLength hn
  obtain ⟨⟨hdm, hdt⟩, hmt⟩ : (d ≠ m ∧ d ≠ t) ∧ m ≠ t := by
    simpa only [hwf, Bool.and_eq_true, decide_eq_true_eq] using hw
  obtain ⟨hx, hy, hz⟩ := s.accept.holds_writeBundle hdm hdt hmt x y z
  have he : exec i s = .next { s.accept.writeBundle d m t x y z with p := p }.complete := by
    rw [hexec, frame_completes hf hw hn, heffect]
  have hstatus : { s.accept.writeBundle d m t x y z with p := p }.complete.status =
      { fault := false, corrected := false, done := true } := by simp [State.writeBundle, hf]
  exact ⟨_, x, y, z, p, he, hP, hx, hy, hz,
    ⟨s.accept.slotsKept_writeBundle d m t x y z, ⟨rfl, rfl, rfl, rfl, rfl, rfl⟩, rfl, hstatus, rfl, rfl⟩⟩

/-- An amplitude-offset synthesizer completes with its message `msg`, which follows `rule`, and with `MU = AM / AC`. -/
theorem completesG_of_writeAmOffset {msg : State → List F64 → List F64} {rule : List F64 → List F64 → Prop}
    (hexec : exec i s = frame i checkSynth (fun n a => a.writeAmOffset d m t n (msg a (a.timeBase n))) s)
    (hlength : ∀ a u, (msg a u).length = u.length) (hrule : ∀ u, rule u (msg s.accept u)) :
    CompletesG i s d m t fun tb mm y p =>
      IsTimeBase s.p.fs (derivedLength (synthProduct s)) tb ∧ rule tb mm ∧ IsAmOffset s.p.ac s.p.fc tb mm y ∧
        ∃ mu, IsQuotient s.p.am s.p.ac mu ∧ p = { s.p with mu := mu } :=
  completesG_of_frame hwf htable ha hp hexec rfl
    ⟨timeBase_isTimeBase .., hrule _, amOffset_isAmOffset _ (hlength ..) .., _, ⟨_, rfl⟩, rfl⟩

end

/-! ## The statements -/

/-- Settles O54: the three commands differ in their message alone. -/
theorem amOffsetCommandResults : Obligations.AmOffsetCommandResults := by
  intro s d m t
  refine ⟨fun ha hp => ?_, fun ha hp => ?_, fun ha hp => ?_⟩
  · exact completesG_of_writeAmOffset (msg := fun a => msgSin (1 :: a.resultKey) a.p.am a.p.fm) rfl (fun _ => rfl) ha hp
      rfl (fun _ _ => msgSin_length ..) (msgSin_isSineMessage _ _ _)
  · exact completesG_of_writeAmOffset (msg := fun a => msgTri (1 :: a.resultKey) a.p.am a.p.fm) rfl (fun _ => rfl) ha hp
      rfl (fun _ _ => msgTri_length ..) (msgTri_isTriangleMessage _ _ _)
  · exact completesG_of_writeAmOffset (msg := fun a => msgSqr (1 :: a.resultKey) a.p.am a.p.fm) rfl (fun _ => rfl) ha hp
      rfl (fun _ _ => msgSqr_length ..) (msgSqr_isSquareMessage _ _ _)

/-- Settles O55: the effect is the bundle of the index form over the unit sine, and leaves `P` alone. -/
theorem amIndexCommandResult : Obligations.AmIndexCommandResult := fun s d m t ha hp =>
  completesG_of_frame rfl (fun _ => rfl) ha hp (show execAmmodIdx d m t s = _ from rfl) rfl
    ⟨timeBase_isTimeBase .., msgSin_isSineMessage .., amIndex_isAmIndex _ (msgSin_length ..) .., rfl⟩

/-- Settles O56: the effect is the bundle of the FM signal over the unit sine, and leaves `P` alone. -/
theorem fmmodCommandResult : Obligations.FmmodCommandResult := fun s d m t ha hp =>
  completesG_of_frame rfl (fun _ => rfl) ha hp (show execFmmod d m t s = _ from rfl) rfl
    ⟨timeBase_isTimeBase .., msgSin_isSineMessage .., fmSignal_isFmSignal _ (msgSin_length ..) .., rfl⟩

end Sys2Proof.Machine
end

section
/-! PROOFS. The demodulator commands (44_demodulators.md R210 to R224, statements AmdemodCommandResult and
FmdemodCommandResult): each command is the frame around the checks that work out its windows and its stages in series,
and each stage is one whose rule is proved above. -/

namespace Sys2Proof.Machine

/-! ## The derived windows (R103, R213, R215, R223) -/

theorem derivedWindow_pos (v : F64) : 1 ≤ derivedWindow v := Nat.le_max_right ..

/-- R268: a derived window whose check passes is within the capacity. -/
theorem derivedWindow_le {v : F64} {cap : Nat} (h : overflows v cap = false) (hcap : 1 ≤ cap) : derivedWindow v ≤ cap :=
  Nat.max_le.2 ⟨count_le (count_fits h 0), hcap⟩

/-- R103: what runs after a derived window that fits, runs with it. -/
theorem clampWindow_bind_eq_ok {α : Type} {s : State} {v : F64} {id : BitVec 64} {f : Nat → Except Raise α} {x : α}
    (h : (clampWindow s v id >>= f) = .ok x) : f (derivedWindow v) = .ok x := by
  rw [clampWindow_bind] at h
  cases hc : count v s.capW id with
  | error r => rw [hc] at h; cases h
  | ok n => rw [hc] at h; obtain rfl := count_eq_derivedLength hc; exact h

/-- R213, R215: the windows of AMDEMOD: `Wenv` and, with `DCFIX` = 0, `Wdc`. -/
def amWindows (dcfix : Bool) (s : State) : Nat × Option Nat :=
  (derivedWindow (amEnvQuotient s), if dcfix then none else some (derivedWindow (amDcQuotient s)))

/-- R223: the windows of FMDEMOD: `Wenv` and `DCMULT * Wenv`. -/
def fmWindows (s : State) : Nat × Nat :=
  (derivedWindow (fmEnvQuotient s), s.k.dcmult.toNat * derivedWindow (fmEnvQuotient s))

theorem checkAmdemod_eq_ok {dcfix : Bool} {s : State} {w : Nat × Option Nat} (h : checkAmdemod dcfix s = .ok w) :
    w = amWindows dcfix s := by
  unfold checkAmdemod checkFs checkCount at h
  simp only [require_bind] at h
  split_ifs at h with _ _ hfix
  · cases clampWindow_bind_eq_ok h
    rw [amWindows, if_pos hfix]
    rfl
  · cases clampWindow_bind_eq_ok (clampWindow_bind_eq_ok h)
    rw [amWindows, if_neg hfix]
    rfl

theorem checkFmdemod_eq_ok {s : State} {w : Nat × Nat} (h : checkFmdemod s = .ok w) : w = fmWindows s := by
  unfold checkFmdemod checkFs checkCount at h
  simp only [require_bind] at h
  split_ifs at h
  replace h := clampWindow_bind_eq_ok h
  unfold fmDcWindow at h
  rw [bind_assoc, require_bind] at h
  split_ifs at h
  cases h
  rfl

/-! ## The checks that pass (R271) -/

theorem checksPass_iff {i : Instr} {s : State} : checksPass i s ↔ ∀ c ∈ checkTable i s, c.1 = false := by
  simp [checksPass, firstFailing]

/-- R264: a count register that is checked is 1 at least. -/
theorem checksPass.count_pos {i : Instr} {s : State} {n : BitVec 32} {id : BitVec 64} (hp : checksPass i s)
    (hn : zeroCheck n id ∈ checkTable i s) : 1 ≤ n.toNat := by
  have h0 : n ≠ 0 := beq_eq_false_iff_ne.1 (checksPass_iff.1 hp _ hn)
  bv_omega

/-! ## The commands that complete (R246) -/

section
variable {s : State} {d r : SlotNo} {dcfix ovr plain prime : Bool}

theorem amdemod_completes (ha : s.accepts (.amdemod d r dcfix)) (hp : checksPass (.amdemod d r dcfix) s) :
    CompletesU (.amdemod d r dcfix) s d false (· = s.amDemodulated r (amWindows dcfix s)) :=
  completesU_of_frame (show execAmdemod d r dcfix s = _ from rfl) (checkAmdemod_agrees · dcfix) ha hp fun _ hw =>
    ⟨_, rfl, by rw [checkAmdemod_eq_ok hw]; rfl⟩

theorem fmdemod_completes (ha : s.accepts (.fmdemod d r ovr plain prime))
    (hp : checksPass (.fmdemod d r ovr plain prime) s) :
    CompletesU (.fmdemod d r ovr plain prime) s d (s.overrideCorrected ovr)
      (· = s.fmDemodulated r ovr plain prime (fmWindows s)) :=
  completesU_of_frame (show execFmdemod d r ovr plain prime s = _ from rfl) checkFmdemod_agrees ha hp fun _ hw =>
    ⟨_, rfl, by rw [checkFmdemod_eq_ok hw]; rfl⟩

end

/-! ## The stages (R211, R212, R220, R222) -/

theorem demodLp_isDemodLp (k : DrawKey) (u : List F64) (fs fm cmult : F64) (order : Nat) :
    IsDemodLp fs fm cmult order u (demodLp k u fs fm cmult order) :=
  ⟨_, _, ⟨_, rfl⟩, alphaLp_isAlphaLp .., cascade_lp_isCascade ..⟩

theorem carsonPair_isCarsonPair (k : DrawKey) (fc beta fm : F64) :
    IsCarsonPair fc beta fm (carsonPair k fc beta fm).1 (carsonPair k fc beta fm).2 :=
  ⟨_, _, ⟨_, rfl⟩, ⟨_, rfl⟩, ⟨_, rfl⟩, _, rfl⟩

theorem amDemodulated_isAmDemod (s : State) (r : SlotNo) (dcfix : Bool) :
    IsAmDemod s dcfix (s.source r) (s.amDemodulated r (amWindows dcfix s)) := by
  refine ⟨_, mavgF (2 :: s.resultKey) _ _ false, demodLp (3 :: s.resultKey) _ _ _ _ _, hwrF_isHalfWave _,
    estimatorIsTheRunningSumMean _ _ _ false (derivedWindow_pos _), demodLp_isDemodLp .., ?_⟩
  cases dcfix with
  | true => exact dcoffF_isOffset ..
  | false => exact dcremF_isDcRemoved _ _ (derivedWindow_pos _)

/-- R220, R224: the band is the override pair when it is asked for and in order, and the Carson pair otherwise. -/
theorem fmBand_isBand (s : State) (ovr : Bool) :
    if ovr && F64.gt s.p.high s.p.low then (s.fmBand ovr).1 = s.p.low ∧ (s.fmBand ovr).2 = s.p.high
    else IsCarsonPair s.p.fc s.p.beta s.p.fm (s.fmBand ovr).1 (s.fmBand ovr).2 := by
  unfold State.fmBand State.overrideUsed
  split
  · exact ⟨rfl, rfl⟩
  · exact carsonPair_isCarsonPair ..

theorem fmDemodulated_isFmDemod (s : State) (r : SlotNo) (ovr plain prime : Bool) (hdc : 1 ≤ s.k.dcmult.toNat) :
    IsFmDemod s ovr plain prime (s.source r) (s.fmDemodulated r ovr plain prime (fmWindows s)) := by
  refine ⟨_, _, bpF (1 :: s.resultKey) _ _ _ _ _, _, _, _, fmBand_isBand s ovr, bpF_isBandPass .., ?_,
    estimatorIsTheRunningSumMean _ _ _ prime (derivedWindow_pos _),
    dcremF_isDcRemoved _ _ (Nat.mul_pos hdc (derivedWindow_pos _)), demodLp_isDemodLp ..⟩
  cases plain with
  | true => exact diffF_isForwardDifference ..
  | false => exact adiffF_isAbsDifference ..

/-! ## The statements -/

/-- Settles O57: the checks answer the derived windows, and each of the four stages follows its rule. -/
theorem amdemodCommandResult : Obligations.AmdemodCommandResult := fun s _ r dcfix ha hp =>
  (amdemod_completes ha hp).imp fun _ hy => hy ▸ amDemodulated_isAmDemod s r dcfix

/-- Settles O58: the checks answer the derived windows, `DCMULT` is not 0, and each of the five stages follows its
rule. -/
theorem fmdemodCommandResult : Obligations.FmdemodCommandResult := fun s _ r ovr plain prime ha hp =>
  (fmdemod_completes ha hp).imp fun _ hy =>
    hy ▸ fmDemodulated_isFmDemod s r ovr plain prime (hp.count_pos (id := 0x15) (by simp [checkTable]))

end Sys2Proof.Machine
end

section
/-! PROOFS. The first sample and the length of a demodulator's result (44_demodulators.md R217, R226, statements
FmdemodStartsAtZeroOneShorter and AmdemodFirstSample): the low-pass forces index 0 to `+0.0`, the running mean primed
with that zero is `+0.0` there, and no stage but the difference changes the length. -/

namespace Sys2Proof.Machine

/-! ## Arithmetic on `+0.0` (R8) -/

theorem add_zero_zero (k : DrawKey) : F64.add k F64.zero F64.zero = F64.zero := rfl

theorem sub_zero_zero (k : DrawKey) : F64.sub k F64.zero F64.zero = F64.zero := rfl

theorem sub_zero_one (k : DrawKey) : F64.sub k F64.zero F64.one = F64.negOne := by
  rw [F64.sub, add_of_finite k rfl rfl]
  decide +kernel

/-- R15: the image of a count the block can hold is a positive number, so `+0.0` divided by it is `+0.0`. -/
theorem div_zero_ofNat (k : DrawKey) {w : Nat} (hw : 1 ≤ w) (hlt : w < 2 ^ 32) :
    F64.div k F64.zero (F64.ofNat w) = F64.zero := by
  obtain ⟨hfin, hsign, hunits⟩ := ofNat_exact hlt
  have hne : (F64.ofNat w).isZero = false := by
    rw [← Bool.not_eq_true, isZero_iff_sig]
    intro hsig
    rw [units_eq, hsig, Nat.zero_mul, Nat.cast_zero, mul_zero] at hunits
    have hw0 : (w : Int) ≠ 0 := by omega
    exact mul_ne_zero hw0 (pow_ne_zero 1074 two_ne_zero) hunits.symm
  have hq (n : Nat) : stickyQuotient F64.zero.sig n = 0 := by
    simp [stickyQuotient, show F64.zero.sig = 0 from rfl]
  rw [div_of_finite k rfl hfin hne, hq, roundScaled_zero, hsign]
  rfl

/-! ## The samples of the DC removers (R155, R158) -/

theorem dcremF_getElem (k : DrawKey) (u : List F64) (w : Nat) {i : Nat} (hi : i < u.length) :
    (dcremF k u w)[i]'(by simpa using hi) =
      F64.sub (0 :: i :: 1 :: k) u[i] ((mavgF (0 :: k) u w true)[i]'(by simpa using hi)) := by
  have h := zipFrom_getElem (fun i a m => F64.sub (0 :: i :: 1 :: k) a m) 0 u (mavgF (0 :: k) u w true) hi
    (by simpa using hi)
  rwa [Nat.zero_add] at h

theorem dcoffF_getElem (k : DrawKey) (u : List F64) (c : F64) {i : Nat} (hi : i < u.length) :
    (dcoffF k u c)[i]'(by simpa using hi) = F64.sub (0 :: i :: k) u[i] c := by
  have h := mapFrom_getElem (fun i a => F64.sub (0 :: i :: k) a c) 0 u hi
  rwa [Nat.zero_add] at h

/-! ## The running mean of a sequence that starts with `+0.0` (R102, R155) -/

/-- R102: the feed primed with the first sample begins with it, and the signal's first sample follows. -/
theorem feed_first (u : List F64) {w j : Nat} (hj : j ≤ w) : feed u w true j = u.getD 0 F64.zero := by
  obtain hlt | rfl := Nat.lt_or_eq_of_le hj
  · rw [feed_priming u true hlt, if_pos rfl]
  · simp [feed]

section
variable (k : DrawKey) {u : List F64} {w : Nat} (hu : u[0]? = some F64.zero)
include hu

/-- R101: with the priming and the first sample `+0.0`, so is every sum up to the first output. -/
theorem fedEstimator_sum_zero (hw : 1 ≤ w) {j : Nat} (hj : j ≤ w + 1) :
    (fedEstimator k u w true j).sum = F64.zero := by
  have hfeed {i : Nat} (hi : i ≤ w) : feed u w true i = F64.zero := by
    rw [feed_first u hi, List.getD_eq_getElem?_getD, hu, Option.getD_some]
  induction j with
  | zero => rfl
  | succ j ih =>
    have hevicted : evicted u w true j = F64.zero := by
      unfold evicted
      split
      · rfl
      · exact hfeed (by omega)
    rw [fedEstimator_sum k u true hw, ih (by omega), hevicted, hfeed (by omega), sub_zero_zero, add_zero_zero]

/-- R155: `+0.0` minus its mean, `+0.0`. -/
theorem dcremF_zero (hw : 1 ≤ w) (hlt : w < 2 ^ 32) : (dcremF k u w)[0]? = some F64.zero := by
  obtain ⟨hi, h0⟩ := List.getElem?_eq_some_iff.1 hu
  have hmean : (mavgF (0 :: k) u w true)[0]'(by simpa using hi) = F64.zero := by
    rw [mavgF_getElem _ true hw hi, fedEstimator_sum_zero _ hu hw (by omega), div_zero_ofNat _ hw hlt]
  refine List.getElem?_eq_some_iff.2 ⟨by simpa using hi, ?_⟩
  rw [dcremF_getElem k u w hi, h0, hmean, sub_zero_zero]

/-- R158: `+0.0` minus `1.0`. -/
theorem dcoffF_one_zero : (dcoffF k u F64.one)[0]? = some F64.negOne := by
  obtain ⟨hi, h0⟩ := List.getElem?_eq_some_iff.1 hu
  refine List.getElem?_eq_some_iff.2 ⟨by simpa using hi, ?_⟩
  rw [dcoffF_getElem k u F64.one hi, h0, sub_zero_one]

end

/-! ## The results at index 0 (R217, R226) -/

theorem State.Holds.read_zero {t : State} {d : SlotNo} {y : List F64} (h : t.Holds d y) {v : F64}
    (hv : y[0]? = some v) : t.mem.read d 0 = v := by
  obtain ⟨hi, rfl⟩ := List.getElem?_eq_some_iff.1 hv
  obtain ⟨-, hread⟩ := h
  exact hread 0 hi

/-- R126: the demodulator's low-pass forces its index 0. -/
theorem demodLp_zero (k : DrawKey) {u : List F64} (fs fm cmult : F64) {order : Nat} (hu : 1 ≤ u.length)
    (ho : 1 ≤ order) : (demodLp k u fs fm cmult order)[0]? = some F64.zero :=
  cascade_zero lpStage_length lpStage_zero _ _ (List.length_pos_iff.1 hu) ho

section
variable {s : State} {r : SlotNo} (ho : 1 ≤ s.k.order.toNat)
include ho

theorem amDemodulated_zero {dcfix : Bool} (hr : 1 ≤ s.len[r])
    (hw : dcfix = false → derivedWindow (amDcQuotient s) < 2 ^ 32) :
    (s.amDemodulated r (amWindows dcfix s))[0]? = some (if dcfix then F64.negOne else F64.zero) := by
  have hlen (k : DrawKey) (w : Nat) : 1 ≤ (mavgF k (hwrF (s.source r)) w false).length := by
    rwa [mavgF_length, hwrF_length, State.source_length]
  cases dcfix with
  | true => exact dcoffF_one_zero _ (demodLp_zero _ _ _ _ (hlen _ _) ho)
  | false => exact dcremF_zero _ (demodLp_zero _ _ _ _ (hlen _ _) ho) (derivedWindow_pos _) (hw rfl)

theorem fmDemodulated_zero (ovr plain prime : Bool) (w : Nat × Nat) (hr : 2 ≤ s.len[r]) :
    (s.fmDemodulated r ovr plain prime w)[0]? = some F64.zero := by
  refine demodLp_zero _ _ _ _ ?_ ho
  have hlen : 1 ≤ (s.source r).length - 1 := by rw [State.source_length]; omega
  cases plain <;> simpa using hlen

end

/-! ## The statements -/

/-- Settles O59: the difference drops one sample, and the low-pass at the end forces index 0. -/
theorem fmdemodStartsAtZeroOneShorter : Obligations.FmdemodStartsAtZeroOneShorter := by
  intro s d r ovr plain prime ha hp
  have ho : 1 ≤ s.k.order.toNat := hp.count_pos (id := 0x10) (by simp [checkTable])
  obtain ⟨t, y, he, rfl, hy, -⟩ := fmdemod_completes ha hp
  refine ⟨t, he, ?_, fun hr => hy.read_zero (fmDemodulated_zero ho ovr plain prime _ hr)⟩
  obtain ⟨hlen, -⟩ := hy
  rw [hlen, State.fmDemodulated, fmDemodF_length, State.source_length]

/-- Settles O60: the low-pass forces index 0, from which DC removal takes a mean of `+0.0` and `DCFIX` takes `1.0`. -/
theorem amdemodFirstSample : Obligations.AmdemodFirstSample := by
  intro s d r dcfix hinv ha hp
  have ho : 1 ≤ s.k.order.toNat := hp.count_pos (id := 0x10) (by simp [checkTable])
  have hw (hd : dcfix = false) : derivedWindow (amDcQuotient s) < 2 ^ 32 := by
    have hfits := checksPass_iff.1 hp (countCheck (amDcQuotient s) s.capW 0x42) (by simp [checkTable, hd])
    exact lt_of_le_of_lt (derivedWindow_le hfits hinv.capW_pos) hinv.capW_lt
  obtain ⟨t, y, he, rfl, hy, -⟩ := amdemod_completes ha hp
  refine ⟨t, he, ?_, fun hr => hy.read_zero (amDemodulated_zero ho hr hw)⟩
  obtain ⟨hlen, -⟩ := hy
  rw [hlen, State.amDemodulated, amDemodF_length, State.source_length]

end Sys2Proof.Machine
end

section
/-! PROOFS. How a command ends (statements CommandsCompleteWhenTheirChecksPass and CommandsAlwaysEnd) and the step that runs the
table's word (statement FetchWordStepRunsTheTableWord): a command that is accepted and passes its checks runs its effect, and
its effect inside the frame is a completion. -/

namespace Sys2Proof.Machine

/-! ## Completion (R246) -/

/-- R246 steps 2, 8 and 9: the effect of a command, between the acceptance and `DONE`, is a completion. -/
theorem Effect.completed {i : Instr} {s u : State} (h : Effect i s.accept u) (hf : s.status.fault = false) :
    s.Completed u.complete i.dests u.p u.status.corrected := by
  obtain ⟨hfault, hcause, hinfo⟩ := h.flags_kept
  have hstatus : u.complete.status = { fault := false, corrected := u.status.corrected, done := true } := by
    simp [hfault, hf]
  exact ⟨h.slotsKept, { h.regsKept with }, rfl, hstatus, hcause, hinfo⟩

/-- R246 step 9: a command that is accepted and passes its checks ends with `DONE` 1. -/
theorem exec_done {i : Instr} {s : State} (ha : s.accepts i) (hp : checksPass i s) :
    ∃ t, exec i s = .next t ∧ t.status.done = true := by
  obtain ⟨hf, hw⟩ := ha
  obtain ⟨α, checks, effect, hexec, hchecks⟩ := exec_frame i s
  obtain ⟨x, hx⟩ := checks_ok hchecks hp
  exact ⟨_, hexec.trans (frame_completes hf hw hx), rfl⟩

/-- R246 steps 7 to 9: a command that is accepted and passes its checks runs its effect, being the only way to `DONE`. -/
theorem exec_effect {i : Instr} {s : State} (ha : s.accepts i) (hp : checksPass i s) :
    ∃ u, exec i s = .next u.complete ∧ Effect i s.accept u := by
  obtain ⟨t, he, hdone⟩ := exec_done ha hp
  obtain ⟨hf, -⟩ := ha
  rcases exec_cases he with ⟨hs, -⟩ | ⟨-, r, rfl⟩ | ⟨-, -, u, rfl, hu⟩
  · rw [hs] at hf; cases hf
  · cases hdone
  · exact ⟨u, he, hu⟩

/-- Settles O14: the command runs its effect, which is a completion; `MU` is O17's, and `CORRECTED` is set by FMDEMOD alone. -/
theorem commandsCompleteWhenTheirChecksPass : Obligations.CommandsCompleteWhenTheirChecksPass := by
  unfold Obligations.CommandsCompleteWhenTheirChecksPass
  intro i s ha hp
  obtain ⟨u, he, hu⟩ := exec_effect ha hp
  obtain ⟨hf, -⟩ := ha
  obtain ⟨hslots, hregs, -, hstatus, hcause, hinfo⟩ := hu.completed hf
  obtain ⟨-, hmu, hkeeps⟩ := onlyMuIsWrittenByCommands i s u.complete he
  refine ⟨_, he, by rw [hstatus], by rw [hstatus], hslots, hregs, hcause, hinfo, hmu, fun hno => hkeeps (.inl hno), ?_⟩
  refine fun hne => Bool.eq_false_iff.2 fun hc => ?_
  obtain ⟨d, r, plain, prime, rfl, -⟩ := exec_corrected he hf hc
  exact hne d r true plain prime rfl

/-- Settles O18: a command always answers a next state, and the three answers there are end it in the three ways. -/
theorem commandsAlwaysEnd : Obligations.CommandsAlwaysEnd := by
  unfold Obligations.CommandsAlwaysEnd
  intro i s
  obtain ⟨t, he⟩ := exec_total i s
  rcases exec_cases he with ⟨hf, rfl⟩ | ⟨hf, r, rfl⟩ | ⟨hf, -, u, rfl, hu⟩
  · exact .inl ⟨hf, he⟩
  · exact .inr (.inl ⟨hf, r, he⟩)
  · exact .inr (.inr ⟨hf, _, _, _, he, hu.completed hf⟩)

/-! ## The step that runs a table's word (R244, R70) -/

theorem decodeTableWord_eq_some_iff {nbits w : Nat} {i : Instr} :
    decodeTableWord nbits w = some i ↔ decode (tableWord nbits w) = .ok i := by
  unfold decodeTableWord
  cases decode (tableWord nbits w) <;> simp

/-- R70: a word written to `CMD` zero-extended is the word issued. -/
theorem issuedWord_setWidth (w : BitVec 32) : issuedWord (w.setWidth 64) = w := by
  rw [issuedWord, BitVec.setWidth_setWidth_of_le w (by decide), BitVec.setWidth_eq]

/-- Settles O9: the host's next operation issues the table word, which is legal, so O8 says what the step runs. -/
theorem fetchWordStepRunsTheTableWord : Obligations.FetchWordStepRunsTheTableWord := by
  unfold Obligations.FetchWordStepRunsTheTableWord
  intro s nbits w i h
  have hissued : issuedWord ((tableWord nbits w).setWidth 64) = tableWord nbits w := issuedWord_setWidth _
  have hdecode : decode (issuedWord ((tableWord nbits w).setWidth 64)) = .ok i := by
    rw [hissued, decodeTableWord_eq_some_iff.1 h]
  obtain ⟨-, -, hruns⟩ := stepRunsTheDecodedCommand
  rw [hruns (s.withFetchWord nbits w) _ s.ops i rfl hdecode, hissued]
  rfl

end Sys2Proof.Machine
end

section
/-! PROOFS. The host's writes to `CTRL` and `LEN` (statements ClrfAcknowledges and LengthWriteIsDroppedAboveCapacity): a write to
`CTRL` without `SRST` is the return from a fault or nothing, and a write to `LEN` stores a length or nothing. -/

namespace Sys2Proof.Machine

/-! ## CTRL (R30, R247, R274) -/

/-- R274: with no fault recorded the return changes nothing, because `CAUSE` and `INFO` are 0 already. -/
theorem State.Inv.acknowledge_eq_self {s : State} (h : s.Inv) (hf : s.status.fault = false) : s.acknowledge = s := by
  have hcause : s.cause = 0 := by
    by_contra hne
    rw [h.fault_iff.2 hne] at hf
    cases hf
  have hinfo : s.info = 0 := h.no_cause_no_info hcause
  rw [State.acknowledge, ← hf, ← hcause, ← hinfo]

section
variable {v : BitVec 64} (s : State) (h1 : v.getLsbD 1 = false)
include h1

/-- R247: a write to `CTRL` with bit 0 set and bit 1 clear is the return. -/
theorem hostOp_clrf (h0 : v.getLsbD 0 = true) : hostOp (.writeReg 0x24 v) s = .next s.acknowledge := by
  have hcontrol : s.control v = s.acknowledge := by rw [State.control, if_neg (Bool.eq_false_iff.1 h1), if_pos h0]
  exact congrArg _ hcontrol

/-- R30: a write to `CTRL` with bits 0 and 1 clear does nothing. -/
theorem hostOp_ctrl_idle (h0 : v.getLsbD 0 = false) : hostOp (.writeReg 0x24 v) s = .next s := by
  have hcontrol : s.control v = s := by
    rw [State.control, if_neg (Bool.eq_false_iff.1 h1), if_neg (Bool.eq_false_iff.1 h0)]
  exact congrArg _ hcontrol

end

/-- Settles O25: with bit 0 set the write is the return, which undoes a fault and nothing else; with bit 0 clear, nothing. -/
theorem clrfAcknowledges : Obligations.ClrfAcknowledges := by
  unfold Obligations.ClrfAcknowledges
  intro s v h1
  refine ⟨fun h0 => ⟨⟨s.acknowledge, hostOp_clrf s h1 h0, rfl, rfl, rfl, rfl, rfl, rfl, rfl, rfl, rfl,
    ⟨rfl, rfl, rfl, rfl, rfl, rfl⟩⟩, fun hinv hf => ?_⟩, hostOp_ctrl_idle s h1⟩
  rw [hostOp_clrf s h1 h0, hinv.acknowledge_eq_self hf]

/-! ## LEN (R33, R243) -/

/-- R60: a write to a register of `LEN` is the slot's length write, of the whole value. -/
theorem hostOp_writeReg_len (s : State) (d : SlotNo) (v : BitVec 64) :
    hostOp (.writeReg (0x30 + d.val) v) s = .next (s.writeLen d v.toNat) := by
  rw [hostOp_writeReg_stores s v (by omega) (by omega), State.storeReg, lenSlot_len]

/-- R33: setting one slot's length leaves the others. -/
theorem len_set_getElem (len : Vector Nat 16) (d e : SlotNo) (n : Nat) :
    (len.set d n)[e] = if e = d then n else len[e] := by
  simp only [Fin.getElem_fin, Vector.getElem_set, Fin.val_inj, eq_comm (a := d)]

/-- Settles O29: the length write either sets one slot's length or answers the same state. -/
theorem lengthWriteIsDroppedAboveCapacity : Obligations.LengthWriteIsDroppedAboveCapacity := by
  unfold Obligations.LengthWriteIsDroppedAboveCapacity
  intro s d v
  rw [hostOp_writeReg_len]
  rcases s.writeLen_cases d v.toNat with ⟨hle, hset⟩ | ⟨hlt, hdrop⟩
  · refine ⟨fun _ => ⟨_, congrArg _ hset, ?_, fun e he => ?_, rfl, rfl, rfl, rfl, rfl, ⟨rfl, rfl, rfl, rfl, rfl, rfl⟩⟩,
      fun hlt => absurd hle (Nat.not_le.2 hlt)⟩
    · rw [len_set_getElem, if_pos rfl]
    · rw [len_set_getElem, if_neg he]
  · exact ⟨fun hle => absurd hle (Nat.not_le.2 hlt), fun _ => congrArg _ hdrop⟩

end Sys2Proof.Machine
end

section
/-! PROOFS. The faults (60_exceptions.md R260 to R272, statements SharedSlotsRaiseBufferAlias, FirstFailingCheckIsRaised,
FaultingCommandChangesNothingElse, FaultsComeOnlyFromIssuedCommands, IssueIsRefusedWhileFaultIsRecorded and
IllegalWordRaisesIllegalCommand): which words, commands and operations raise one, and that raising is all they then do. -/

namespace Sys2Proof

/-! ## Well-formed commands (R75) -/

/-- R75: a command of format U is well formed exactly when its two slots differ. -/
theorem Instr.wf_of_formatU {i : Instr} {d r : SlotNo} (hr : i.src? = some r) (hd : i.dests = [d]) :
    i.wf = decide (d ≠ r) := by
  cases i with
  | ammodSin | ammodTri | ammodSqr | ammodIdx | fmmod => cases hr
  | _ => cases hr; cases hd; rfl

/-- R75: a command of format G is well formed exactly when its three slots are pairwise different. -/
theorem Instr.wf_of_formatG {i : Instr} {d m t : SlotNo} (hd : i.dests = [d, m, t]) :
    i.wf = (decide (d ≠ m) && decide (d ≠ t) && decide (m ≠ t)) := by
  cases i with
  | ammodSin | ammodTri | ammodSqr | ammodIdx | fmmod => cases hd; rfl
  | _ => cases hd

end Sys2Proof

namespace Sys2Proof.Machine

/-- R246 step 2, R270: accepting a command and then raising a fault is the fault alone. -/
theorem State.accept_raise (s : State) (r : Raise) : s.accept.raise r = s.faulted r := rfl

/-! ## Shared slots (R266) -/

/-- R266: a command that is not well formed raises `BufferAlias`, whatever its checks say. -/
theorem exec_alias {i : Instr} {s : State} (hf : s.status.fault = false) (hw : i.wf = false) :
    exec i s = .next (s.faulted ⟨.bufferAlias, (encode i).setWidth 64⟩) := by
  obtain ⟨α, checks, effect, he, -⟩ := exec_frame i s
  rw [he, frame_alias hf hw, State.accept_raise]

/-- Settles O12: shared slots are what makes a command of either format ill formed. -/
theorem sharedSlotsRaiseBufferAlias : Obligations.SharedSlotsRaiseBufferAlias := by
  unfold Obligations.SharedSlotsRaiseBufferAlias
  intro i s hf hshared
  refine exec_alias hf ?_
  rcases hshared with ⟨d, r, hr, hd, rfl⟩ | ⟨d, m, t, -, hd, hsame⟩
  · simp [Instr.wf_of_formatU hr hd]
  · rw [Instr.wf_of_formatG hd]
    rcases hsame with rfl | rfl | rfl <;> simp

/-! ## Failing checks (R271) -/

/-- R271: the checks of an accepted command raise what the first failing check of its list raises. -/
theorem checks_error {α : Type} {checks : State → Except Raise α} {i : Instr} {s : State} {r : Raise}
    (ha : ∀ a, ChecksAgree (checks a) (checkTable i a)) (h : firstFailing (checkTable i s) = some r) :
    checks s.accept = .error r := by
  have hs := ha s.accept
  rwa [ChecksAgree, checkTable_accept, h] at hs

/-- Settles O13: the frame raises what the command's checks raise, and these agree with its list. -/
theorem firstFailingCheckIsRaised : Obligations.FirstFailingCheckIsRaised := by
  unfold Obligations.FirstFailingCheckIsRaised
  intro i s r ⟨hf, hw⟩ hr
  obtain ⟨α, checks, effect, he, ha⟩ := exec_frame i s
  rw [he, frame_check_fails hf hw (checks_error ha hr), State.accept_raise]

/-! ## Illegal words (R82, R265) -/

/-- R82: the decoder rejects exactly the words that match no row of the table. -/
theorem decode_error_iff {w : BitVec 32} : (∃ e, decode w = .error e) ↔ ∀ i : Instr, w &&& i.mask ≠ i.pattern := by
  obtain ⟨hagrees, hdecoded, -⟩ := decodeIsTheMaskMatchTable w
  constructor
  · rintro ⟨e, he⟩ i hi
    obtain ⟨j, hj, -⟩ := hagrees i hi
    cases he.symm.trans hj
  · intro hno
    cases hd : decode w with
    | error e => exact ⟨e, rfl⟩
    | ok j => exact absurd (hdecoded j hd) (hno j)

/-- R265: the issue of an illegal word raises `IllegalCommand`. -/
theorem issue_illegal {w : BitVec 32} {s : State} (hf : s.status.fault = false) (hw : ∃ e, decode w = .error e) :
    issue w s = .next (({ s with cmd := w } : State).faulted ⟨.illegalCommand, w.setWidth 64⟩) := by
  obtain ⟨e, he⟩ := hw
  rw [issue, if_neg (Bool.eq_false_iff.1 hf), he]
  rfl

/-- R244: a write to `CMD` is the issue of its low 32 bits. -/
theorem hostOp_writeReg_cmd (s : State) (v : BitVec 64) :
    hostOp (.writeReg 0x20 v) s = issue (issuedWord v) s := by
  rw [hostOp, writeReg, if_pos rfl]

/-- Settles O11: the words that match no row are those the decoder rejects, the zero word among them. -/
theorem illegalWordRaisesIllegalCommand : Obligations.IllegalWordRaisesIllegalCommand := by
  unfold Obligations.IllegalWordRaisesIllegalCommand
  refine ⟨fun s v hf hno => ?_, decode_error_iff.1 ⟨.reservedOpcode, rfl⟩⟩
  rw [hostOp_writeReg_cmd, issue_illegal hf (decode_error_iff.2 hno)]

/-! ## What a raised fault changes (R270) -/

/-- R270: a command that newly records a fault has raised it and done nothing else: one that completes keeps `FAULT`. -/
theorem exec_faulted {i : Instr} {s t : State} (h : exec i s = .next t) (hf : s.status.fault = false)
    (ht : t.status.fault = true) : ∃ r, t = s.faulted r := by
  rcases exec_cases h with ⟨hs, -⟩ | ⟨-, r, rfl⟩ | ⟨-, -, u, rfl, hu⟩
  · rw [hs] at hf; cases hf
  · exact ⟨r, s.accept_raise r⟩
  · rw [State.complete_status, hu.flags_kept.1, State.accept_status, hf] at ht
    cases ht

/-- R244, R270: an issue that newly records a fault has written `CMD` and raised it. -/
theorem issue_faulted {w : BitVec 32} {s t : State} (h : issue w s = .next t) (hf : s.status.fault = false)
    (ht : t.status.fault = true) : ∃ r, t = ({ s with cmd := w } : State).faulted r := by
  rcases issue_cases h with ⟨hs, -⟩ | ⟨-, -, rfl⟩ | ⟨-, i, -, he⟩
  · rw [hs] at hf; cases hf
  · exact ⟨_, State.accept_raise _ _⟩
  · exact exec_faulted he hf ht

/-- Settles O15: `exec_faulted` and `issue_faulted`. -/
theorem faultingCommandChangesNothingElse : Obligations.FaultingCommandChangesNothingElse :=
  ⟨fun _ _ _ => exec_faulted, fun s _ v h => issue_faulted ((hostOp_writeReg_cmd s v).symm.trans h)⟩

/-! ## What raises a fault (R260) -/

/-- R30: a write to `CTRL` records no fault. -/
theorem control_raises_no_fault {s : State} (v : BitVec 64) (hf : s.status.fault = false) :
    (s.control v).status.fault = false := by
  rcases s.control_cases v with ⟨-, e⟩ | ⟨-, -, e⟩ | ⟨-, -, e⟩ <;> rw [e]
  · rfl
  · rfl
  · exact hf

/-- Settles O20: of the operations that change `STATUS`, a write to `CTRL` and the reset record no fault. -/
theorem faultsComeOnlyFromIssuedCommands : Obligations.FaultsComeOnlyFromIssuedCommands := by
  unfold Obligations.FaultsComeOnlyFromIssuedCommands
  intro s t h hf ht
  rcases step_cases h with ⟨-, rfl⟩ | ⟨op, rest, hops, ho⟩
  · rw [hf] at ht; cases ht
  rcases hostOp_status_cases ho with hst | ⟨v, rfl, -⟩ | ⟨v, -, rfl⟩ | ⟨-, rfl⟩
  · rw [hst, hf] at ht; cases ht
  · exact ⟨v, rest, hops⟩
  · rw [control_raises_no_fault v (s := { s with ops := rest }) hf] at ht; cases ht
  · cases ht

/-! ## While a fault is recorded (R272) -/

/-- R272: while a fault is recorded an issued word, legal or not, changes `CMD` alone. -/
theorem issue_refused (w : BitVec 32) {s : State} (hf : s.status.fault = true) :
    issue w s = .next { s with cmd := w } := by
  rw [issue, if_pos hf]

/-- Settles O10: the fault refuses commands and issues, and no other host operation looks at it. -/
theorem issueIsRefusedWhileFaultIsRecorded : Obligations.IssueIsRefusedWhileFaultIsRecorded := by
  unfold Obligations.IssueIsRefusedWhileFaultIsRecorded
  intro s hf
  have hissue : ∀ v : BitVec 64, hostOp (.writeReg 0x20 v) s = .next { s with cmd := issuedWord v } := fun v => by
    rw [hostOp_writeReg_cmd, issue_refused _ hf]
  exact ⟨hissue, fun i => exec_refused i hf, fun _ v => hostOp_writeReg_stores s v, fun _ => rfl, fun _ => rfl,
    fun d _ v => writeSample_inside d v, fun _ _ => readSample_below⟩

end Sys2Proof.Machine
end

section
/-! PROOFS. Reset and the capacities (70_reset_and_hazards.md R300 and R301, statements SoftwareResetIsTheExternalReset and
CapacitiesNeverChange): a write to `CTRL` with `SRST` is the external reset, and no operation changes `CAPN` or `CAPW`. -/

namespace Sys2Proof.Machine

/-! ## The capacities (R26, R301) -/

/-- R26: a storing register write reaches neither capacity. -/
theorem State.storeReg_capacities (s : State) (r : Nat) (v : BitVec 64) :
    (s.storeReg r v).capN = s.capN ∧ (s.storeReg r v).capW = s.capW := by
  rcases s.storeReg_cases r v with ⟨d, n, -, e⟩ | ⟨p, k, e⟩ <;> rw [e] <;> exact ⟨rfl, rfl⟩

/-- R30, R301: a write to `CTRL` keeps the capacities, the reset being one of its cases. -/
theorem State.control_capacities (s : State) (v : BitVec 64) :
    (s.control v).capN = s.capN ∧ (s.control v).capW = s.capW := by
  rcases s.control_cases v with ⟨-, e⟩ | ⟨-, -, e⟩ | ⟨-, -, e⟩ <;> rw [e] <;> exact ⟨rfl, rfl⟩

/-- R244: an issue keeps the capacities, because the command it runs does. -/
theorem issue_capacities {w : BitVec 32} {s t : State} (h : issue w s = .next t) :
    t.capN = s.capN ∧ t.capW = s.capW := by
  rcases issue_cases h with ⟨-, rfl⟩ | ⟨-, -, rfl⟩ | ⟨-, i, -, he⟩
  · exact ⟨rfl, rfl⟩
  · exact ⟨rfl, rfl⟩
  · have hkept := exec_regsKept he
    exact ⟨hkept.capN, hkept.capW⟩

/-- R301: every operation of the host keeps the capacities. -/
theorem hostOp_capacities {op : HostOp} {s t : State} (h : hostOp op s = .next t) :
    t.capN = s.capN ∧ t.capW = s.capW := by
  rcases hostOp_cases h with ⟨v, rfl⟩ | ⟨v, -, hi⟩ | ⟨v, -, rfl⟩ | ⟨r, v, -, -, -, rfl⟩ | ⟨d, i, v, -, rfl⟩ | ⟨-, rfl⟩
  · exact ⟨rfl, rfl⟩
  · exact issue_capacities hi
  · exact s.control_capacities v
  · exact s.storeReg_capacities r v
  · exact ⟨rfl, rfl⟩
  · exact ⟨rfl, rfl⟩

/-- Settles O22: a step is one host operation or none, and each keeps the capacities. -/
theorem capacitiesNeverChange : Obligations.CapacitiesNeverChange := by
  unfold Obligations.CapacitiesNeverChange
  intro s t h
  rcases step_cases h with ⟨-, rfl⟩ | ⟨op, rest, -, ho⟩
  · exact ⟨rfl, rfl⟩
  · exact hostOp_capacities (s := { s with ops := rest }) ho

/-! ## The reset (R248, R300) -/

/-- R30, R248: a write to `CTRL` with bit 1 set resets the block. -/
theorem hostOp_srst (s : State) {v : BitVec 64} (h : v.getLsbD 1 = true) :
    hostOp (.writeReg 0x24 v) s = .next s.resetBlock := by
  have hcontrol : s.control v = s.resetBlock := by rw [State.control, if_pos h]
  exact congrArg _ hcontrol

/-- R26: `CAPB` is a constant. -/
theorem State.readReg_capB (s : State) : s.readReg 0x28 = 16 := s.readReg_system (by omega)

/-- Settles O26: both operations answer the reset block, whose lengths are those of the reset state. -/
theorem softwareResetIsTheExternalReset : Obligations.SoftwareResetIsTheExternalReset := by
  unfold Obligations.SoftwareResetIsTheExternalReset
  intro s v h
  have hcapB : s.resetBlock.readReg 0x28 = s.readReg 0x28 := s.resetBlock.readReg_capB.trans s.readReg_capB.symm
  exact ⟨s.resetBlock, hostOp_srst s h, rfl, rfl, rfl, rfl, rfl, rfl, rfl, State.reset_len, rfl, rfl, hcapB, rfl, rfl⟩

end Sys2Proof.Machine
end
